-- ==== Sys2Proof/Word.lean ====
section
/-! DEFINITION. The words of IFPC and the two small closed sets of values its requests carry:
bytes, the 96-bit request word (30_encoding.md R90), the 32-bit response word (R96), the eight colours
(40_color_model.md R130) and the four rotations (10_state.md R34). -/

namespace Sys2Proof

/-- An 8-bit unsigned value, the spec's u8 (00_scope.md R9). -/
abbrev Byte := BitVec 8

/-- A request word REQ[95:0] (30_encoding.md R90). -/
abbrev Req := BitVec 96

/-- A response word RSP[31:0] (30_encoding.md R96). -/
abbrev Rsp := BitVec 32

/-- The eight colours, in enumeration order (40_color_model.md R130). HiZ is an ordinary colour here. -/
inductive Color where
  | black | white | green | blue | red | yellow | orange | hiZ
deriving DecidableEq, Repr

/-- The four rotations (10_state.md R34): 0, 90, 180 and 270 degrees clockwise. -/
inductive Rotation where
  | deg0 | deg90 | deg180 | deg270
deriving DecidableEq, Repr

end Sys2Proof
end

