-- ==== Sys2Proof/Config.lean ====
section
/-! DEFINITION. The parameters of 00_scope.md R6 as one record of plain data, and the two free values of the
model (the transport's answers and the levels of the busy line). -/

namespace Sys2Proof

/-- The sixteen wire commands of 30_encoding.md R101. -/
inductive CmdName where
  | psr | pwr | pof | pfs | pon | btst | dslp | dtm | dsp | drf | pll | tse | cdi | tcon | tres | flash
deriving DecidableEq, Repr

/-- Which busy adapter is fitted: BUSY_SOURCE (00_scope.md R6, 43_busy_status.md R250). -/
inductive BusySource where
  | pin | shiftReg
deriving DecidableEq, Repr

/-- A 24-bit RGB triple, three unsigned channels (40_color_model.md R131). -/
structure Rgb where
  r : Byte
  g : Byte
  b : Byte
deriving DecidableEq, Repr

/-- PALETTE: each colour's RGB triple (40_color_model.md R131). -/
structure Palette where
  black  : Rgb
  white  : Rgb
  green  : Rgb
  blue   : Rgb
  red    : Rgb
  yellow : Rgb
  orange : Rgb
  hiZ    : Rgb
deriving DecidableEq, Repr

/-- CMD: the byte that spells each wire command (30_encoding.md R101). -/
structure CmdBytes where
  psr   : Byte
  pwr   : Byte
  pof   : Byte
  pfs   : Byte
  pon   : Byte
  btst  : Byte
  dslp  : Byte
  dtm   : Byte
  dsp   : Byte
  drf   : Byte
  pll   : Byte
  tse   : Byte
  cdi   : Byte
  tcon  : Byte
  tres  : Byte
  flash : Byte
deriving DecidableEq, Repr

/-- INIT_PAYLOAD: the eight fixed payloads of the initialize sequence (30_encoding.md R102), of any length each. -/
structure InitPayload where
  psr   : List Byte
  pwr   : List Byte
  pfs   : List Byte
  btst  : List Byte
  pll   : List Byte
  tse   : List Byte
  tcon  : List Byte
  flash : List Byte
deriving DecidableEq, Repr

/-- The parameters of 00_scope.md R6. FB_LEN is not a field: it is fixed as WIDTH * HEIGHT / 2
(Config.fbLen in Machine/Operands.lean). -/
structure Config where
  /-- WIDTH, native panel width in pixels. -/
  width : Nat
  /-- HEIGHT, native panel height in pixels. -/
  height : Nat
  /-- FB_INIT, the framebuffer's bytes at construction. -/
  fbInit : List Byte
  /-- BG_INIT, the background colour at construction. -/
  bgInit : Color
  /-- PALETTE. -/
  palette : Palette
  /-- CMD. -/
  cmd : CmdBytes
  /-- INIT_PAYLOAD. -/
  initPayload : InitPayload
  /-- T_RST_LOW_MS, the delay after driving reset low. -/
  tRstLowMs : Nat
  /-- T_RST_HIGH_MS, the delay after driving reset high. -/
  tRstHighMs : Nat
  /-- POLL_DELAY_MS, the delay between two busy polls, or none. -/
  pollDelayMs : Option Nat
  /-- CLEAR_FRAME_WRITES_FB. -/
  clearFrameWritesFb : Bool
  /-- BUSY_SOURCE. -/
  busySource : BusySource
  /-- BUSY_PIN_BUSY_LEVEL, the pin level that means busy. -/
  busyPinBusyLevel : Bool
  /-- SR_BUSY_BIT, the bit of the status byte that carries busy (7, fixed by the source). -/
  srBusyBit : Fin 8
deriving DecidableEq, Repr

/-- FREE VALUE (log entry 3): the transport's answer to the n-th failable event, true for success, where none was
supplied in State.xportIn. The transport oracle is a free input (42_panel_controller.md R191). -/
opaque Config.freeXport : Nat → Bool

/-- FREE VALUE (log entry 3): the level of the busy line at the n-th sample, where none was supplied in State.lineIn.
The busy oracle is a free input under no law (42_panel_controller.md R192). -/
opaque Config.freeLevel : Nat → Bool

end Sys2Proof
end

