-- ==== Sys2Proof/Syntax.lean ====
section
/-! DEFINITION. The requests of IFPC as syntax: one constructor per row of spec/opcode_table.json
(30_encoding.md R93), its operands as R91 assembles them. -/

namespace Sys2Proof

/-- A request with its operands. Colours and rotations are the values their codes name, bytes and channels are 8-bit
words, and coordinates are the signed integers R91 reads from X and Y (their range is checked by Instr.wf). -/
inductive Instr where
  /-- TO_CODE (R132). -/
  | toCode (c : Color)
  /-- FROM_CODE (R133): the whole byte A, of which the low four bits are the nibble. -/
  | fromCode (a : Byte)
  /-- PACK (R134). -/
  | pack (hi lo : Color)
  /-- UNPACK (R135). -/
  | unpack (a : Byte)
  /-- NEAREST (R136). -/
  | nearest (r g b : Byte)
  /-- FB_CLEAR (R160). -/
  | fbClear (c : Color)
  /-- FB_SET_ROTATION (R161). -/
  | fbSetRotation (r : Rotation)
  /-- FB_SET_PIXEL (R162). -/
  | fbSetPixel (x y : Int) (c : Color)
  /-- FB_AS_BYTES (R166). -/
  | fbAsBytes
  /-- PC_RESET (R205). -/
  | pcReset
  /-- PC_INITIALIZE (R206). -/
  | pcInitialize
  /-- PC_WAKE_UP (R207). -/
  | pcWakeUp
  /-- PC_UPDATE_FRAME (R208). -/
  | pcUpdateFrame
  /-- PC_DISPLAY_FRAME (R209). -/
  | pcDisplayFrame
  /-- PC_UPDATE_AND_DISPLAY_FRAME (R210). -/
  | pcUpdateAndDisplayFrame
  /-- PC_CLEAR_FRAME (R211). -/
  | pcClearFrame
  /-- PC_POWER_OFF (R213). -/
  | pcPowerOff
  /-- PC_SLEEP (R214). -/
  | pcSleep
  /-- PC_SET_BACKGROUND (R215). -/
  | pcSetBackground (c : Color)
  /-- IS_BUSY (R254). -/
  | isBusy
  /-- READ_STATUS (R255). -/
  | readStatus
deriving DecidableEq, Repr

end Sys2Proof
end

