-- ==== Sys2Proof/WellFormed.lean ====
section
/-! DEFINITION. Which instruction terms the encoding admits. Colours, rotations, bytes and channels are well formed by
their types; a coordinate must lie in the range of a 32-bit two's-complement value (30_encoding.md R91). -/

namespace Sys2Proof

/-- A coordinate operand's legal range, -2^31 to 2^31-1 (30_encoding.md R91). -/
def coordOk (x : Int) : Bool := decide (-2147483648 ≤ x) && decide (x ≤ 2147483647)

/-- An instruction the encoding of 30_encoding.md can spell. -/
def Instr.wf : Instr → Bool
  | .toCode _ => true
  | .fromCode _ => true
  | .pack _ _ => true
  | .unpack _ => true
  | .nearest _ _ _ => true
  | .fbClear _ => true
  | .fbSetRotation _ => true
  | .fbSetPixel x y _ => coordOk x && coordOk y
  | .fbAsBytes => true
  | .pcReset => true
  | .pcInitialize => true
  | .pcWakeUp => true
  | .pcUpdateFrame => true
  | .pcDisplayFrame => true
  | .pcUpdateAndDisplayFrame => true
  | .pcClearFrame => true
  | .pcPowerOff => true
  | .pcSleep => true
  | .pcSetBackground _ => true
  | .isBusy => true
  | .readStatus => true

end Sys2Proof
end

