-- ==== Sys2Proof/Decode.lean ====
section
/-! DEFINITION. The decoder of 30_encoding.md R94, total on any 96 bits and rejecting by name, the encoder written from
the same tables (R90 to R93), the assembler's spelling (R99), and the form in which the host hands over a row of spec/opcode_table.json. -/

namespace Sys2Proof

/-! ### Codes of colours and rotations -/

/-- code(c) (40_color_model.md R130). Codes 3 to 7 are the spec's own decision D5. -/
def Color.code : Color → BitVec 3
  | .black => 0
  | .white => 1
  | .green => 2
  | .blue => 3
  | .red => 4
  | .yellow => 5
  | .orange => 6
  | .hiZ => 7

/-- color(k), the inverse of code (40_color_model.md R130). -/
def Color.ofCode (k : BitVec 3) : Color :=
  match k with
  | 0#3 => .black
  | 1#3 => .white
  | 2#3 => .green
  | 3#3 => .blue
  | 4#3 => .red
  | 5#3 => .yellow
  | 6#3 => .orange
  | _ => .hiZ

/-- The encoding of a rotation (10_state.md R34). -/
def Rotation.code : Rotation → BitVec 2
  | .deg0 => 0
  | .deg90 => 1
  | .deg180 => 2
  | .deg270 => 3

/-- The rotation a 2-bit code names (10_state.md R34). -/
def Rotation.ofCode (k : BitVec 2) : Rotation :=
  match k with
  | 0#2 => .deg0
  | 1#2 => .deg90
  | 2#2 => .deg180
  | _ => .deg270

/-! ### Fields of a request word (R90) -/

/-- OPC, bits [7:0]. -/
def fieldOpc (w : Req) : Byte := w.extractLsb' 0 8
/-- A, bits [15:8]. -/
def fieldA (w : Req) : Byte := w.extractLsb' 8 8
/-- B, bits [23:16]. -/
def fieldB (w : Req) : Byte := w.extractLsb' 16 8
/-- C, bits [31:24]. -/
def fieldC (w : Req) : Byte := w.extractLsb' 24 8
/-- X, bits [63:32]. -/
def fieldX (w : Req) : BitVec 32 := w.extractLsb' 32 32
/-- Y, bits [95:64]. -/
def fieldY (w : Req) : BitVec 32 := w.extractLsb' 64 32

/-- The word with the given fields, most significant first: Y, X, C, B, A, OPC (R90). -/
def reqOf (opc a b c : Byte) (x y : BitVec 32) : Req := y ++ x ++ c ++ b ++ a ++ opc

/-! ### The opcode map (R93) -/

/-- The formats of R92. -/
inductive Format where
  | f0 | fc | fcc | fn | frgb | fr | fp
deriving DecidableEq, Repr

/-- The operations of R93, without operands. -/
inductive Op where
  | toCode | fromCode | pack | unpack | nearest
  | fbClear | fbSetRotation | fbSetPixel | fbAsBytes
  | pcReset | pcInitialize | pcWakeUp | pcUpdateFrame | pcDisplayFrame | pcUpdateAndDisplayFrame
  | pcClearFrame | pcPowerOff | pcSleep | pcSetBackground
  | isBusy | readStatus
deriving DecidableEq, Repr

/-- Every operation, in the order of R93. -/
def allOps : List Op :=
  [.toCode, .fromCode, .pack, .unpack, .nearest, .fbClear, .fbSetRotation, .fbSetPixel, .fbAsBytes,
    .pcReset, .pcInitialize, .pcWakeUp, .pcUpdateFrame, .pcDisplayFrame, .pcUpdateAndDisplayFrame,
    .pcClearFrame, .pcPowerOff, .pcSleep, .pcSetBackground, .isBusy, .readStatus]

/-- The column OPC of R93. -/
def opcodeOf : Op → Byte
  | .toCode => 0x01
  | .fromCode => 0x02
  | .pack => 0x03
  | .unpack => 0x04
  | .nearest => 0x05
  | .fbClear => 0x10
  | .fbSetRotation => 0x11
  | .fbSetPixel => 0x12
  | .fbAsBytes => 0x13
  | .pcReset => 0x20
  | .pcInitialize => 0x21
  | .pcWakeUp => 0x22
  | .pcUpdateFrame => 0x23
  | .pcDisplayFrame => 0x24
  | .pcUpdateAndDisplayFrame => 0x25
  | .pcClearFrame => 0x26
  | .pcPowerOff => 0x27
  | .pcSleep => 0x28
  | .pcSetBackground => 0x29
  | .isBusy => 0x30
  | .readStatus => 0x31

/-- The column format of R93. -/
def formatOf : Op → Format
  | .toCode => .fc
  | .fromCode => .fn
  | .pack => .fcc
  | .unpack => .fn
  | .nearest => .frgb
  | .fbClear => .fc
  | .fbSetRotation => .fr
  | .fbSetPixel => .fp
  | .fbAsBytes => .f0
  | .pcReset => .f0
  | .pcInitialize => .f0
  | .pcWakeUp => .f0
  | .pcUpdateFrame => .f0
  | .pcDisplayFrame => .f0
  | .pcUpdateAndDisplayFrame => .f0
  | .pcClearFrame => .f0
  | .pcPowerOff => .f0
  | .pcSleep => .f0
  | .pcSetBackground => .fc
  | .isBusy => .f0
  | .readStatus => .f0

/-- lookup(REQ[7:0]) of R94: the row of R93 with this opcode, if there is one. -/
def lookupOp (opc : Byte) : Option Op := allOps.find? (fun op => opcodeOf op == opc)

/-- Every zero field of the format is zero (R92). FN's byte A is no zero field (R95). -/
def zeroFieldsOk (f : Format) (w : Req) : Bool :=
  match f with
  | .f0 => fieldA w == 0 && fieldB w == 0 && fieldC w == 0 && fieldX w == 0 && fieldY w == 0
  | .fc => (fieldA w).extractLsb' 3 5 == 0 && fieldB w == 0 && fieldC w == 0 && fieldX w == 0 && fieldY w == 0
  | .fcc =>
      (fieldA w).extractLsb' 3 5 == 0 && (fieldB w).extractLsb' 3 5 == 0 && fieldC w == 0 && fieldX w == 0 &&
        fieldY w == 0
  | .fn => fieldB w == 0 && fieldC w == 0 && fieldX w == 0 && fieldY w == 0
  | .frgb => fieldX w == 0 && fieldY w == 0
  | .fr => (fieldA w).extractLsb' 2 6 == 0 && fieldB w == 0 && fieldC w == 0 && fieldX w == 0 && fieldY w == 0
  | .fp => (fieldA w).extractLsb' 3 5 == 0 && fieldB w == 0 && fieldC w == 0

/-- The colour whose code is F[2:0] (R91). -/
def colorOperand (f : Byte) : Color := .ofCode (f.extractLsb' 0 3)

/-- The rotation whose code is A[1:0] (R91). -/
def rotationOperand (f : Byte) : Rotation := .ofCode (f.extractLsb' 0 2)

/-- The operation with its operands assembled as R91 says. -/
def assemble (op : Op) (w : Req) : Instr :=
  match op with
  | .toCode => .toCode (colorOperand (fieldA w))
  | .fromCode => .fromCode (fieldA w)
  | .pack => .pack (colorOperand (fieldA w)) (colorOperand (fieldB w))
  | .unpack => .unpack (fieldA w)
  | .nearest => .nearest (fieldA w) (fieldB w) (fieldC w)
  | .fbClear => .fbClear (colorOperand (fieldA w))
  | .fbSetRotation => .fbSetRotation (rotationOperand (fieldA w))
  | .fbSetPixel => .fbSetPixel (fieldX w).toInt (fieldY w).toInt (colorOperand (fieldA w))
  | .fbAsBytes => .fbAsBytes
  | .pcReset => .pcReset
  | .pcInitialize => .pcInitialize
  | .pcWakeUp => .pcWakeUp
  | .pcUpdateFrame => .pcUpdateFrame
  | .pcDisplayFrame => .pcDisplayFrame
  | .pcUpdateAndDisplayFrame => .pcUpdateAndDisplayFrame
  | .pcClearFrame => .pcClearFrame
  | .pcPowerOff => .pcPowerOff
  | .pcSleep => .pcSleep
  | .pcSetBackground => .pcSetBackground (colorOperand (fieldA w))
  | .isBusy => .isBusy
  | .readStatus => .readStatus

/-- Why a word does not decode (R95). -/
inductive DecodeError where
  /-- OPC is in no row of R93. -/
  | unassignedOpcode
  /-- A bit of a zero field of the opcode's format is one. -/
  | nonzeroField
deriving DecidableEq, Repr

/-- decode(REQ) of R94, total on any 96 bits. -/
def decode (w : Req) : Except DecodeError Instr :=
  match lookupOp (fieldOpc w) with
  | none => .error .unassignedOpcode
  | some op => if zeroFieldsOk (formatOf op) w then .ok (assemble op w) else .error .nonzeroField

/-! ### The encoder -/

/-- A colour operand's byte: its code in bits [2:0], zero above (R91). -/
def colorByte (c : Color) : Byte := c.code.zeroExtend 8

/-- A rotation operand's byte: its code in bits [1:0], zero above (R91). -/
def rotationByte (r : Rotation) : Byte := r.code.zeroExtend 8

/-- The operation an instruction is a form of. -/
def opOf : Instr → Op
  | .toCode _ => .toCode
  | .fromCode _ => .fromCode
  | .pack _ _ => .pack
  | .unpack _ => .unpack
  | .nearest _ _ _ => .nearest
  | .fbClear _ => .fbClear
  | .fbSetRotation _ => .fbSetRotation
  | .fbSetPixel _ _ _ => .fbSetPixel
  | .fbAsBytes => .fbAsBytes
  | .pcReset => .pcReset
  | .pcInitialize => .pcInitialize
  | .pcWakeUp => .pcWakeUp
  | .pcUpdateFrame => .pcUpdateFrame
  | .pcDisplayFrame => .pcDisplayFrame
  | .pcUpdateAndDisplayFrame => .pcUpdateAndDisplayFrame
  | .pcClearFrame => .pcClearFrame
  | .pcPowerOff => .pcPowerOff
  | .pcSleep => .pcSleep
  | .pcSetBackground _ => .pcSetBackground
  | .isBusy => .isBusy
  | .readStatus => .readStatus

/-- The request word of an instruction: its opcode (R93), its operands where its format puts them (R91, R92), and
zero everywhere else. -/
def encode (i : Instr) : Req :=
  let opc := opcodeOf (opOf i)
  match i with
  | .toCode c => reqOf opc (colorByte c) 0 0 0 0
  | .fromCode a => reqOf opc a 0 0 0 0
  | .pack hi lo => reqOf opc (colorByte hi) (colorByte lo) 0 0 0
  | .unpack a => reqOf opc a 0 0 0 0
  | .nearest r g b => reqOf opc r g b 0 0
  | .fbClear c => reqOf opc (colorByte c) 0 0 0 0
  | .fbSetRotation r => reqOf opc (rotationByte r) 0 0 0 0
  | .fbSetPixel x y c => reqOf opc (colorByte c) 0 0 (BitVec.ofInt 32 x) (BitVec.ofInt 32 y)
  | .fbAsBytes => reqOf opc 0 0 0 0 0
  | .pcReset => reqOf opc 0 0 0 0 0
  | .pcInitialize => reqOf opc 0 0 0 0 0
  | .pcWakeUp => reqOf opc 0 0 0 0 0
  | .pcUpdateFrame => reqOf opc 0 0 0 0 0
  | .pcDisplayFrame => reqOf opc 0 0 0 0 0
  | .pcUpdateAndDisplayFrame => reqOf opc 0 0 0 0 0
  | .pcClearFrame => reqOf opc 0 0 0 0 0
  | .pcPowerOff => reqOf opc 0 0 0 0 0
  | .pcSleep => reqOf opc 0 0 0 0 0
  | .pcSetBackground c => reqOf opc (colorByte c) 0 0 0 0
  | .isBusy => reqOf opc 0 0 0 0 0
  | .readStatus => reqOf opc 0 0 0 0 0

/-! ### The assembler's spelling (R99) -/

/-- The column mnemonic of R93. -/
def mnemonicOf : Op → String
  | .toCode => "TO_CODE"
  | .fromCode => "FROM_CODE"
  | .pack => "PACK"
  | .unpack => "UNPACK"
  | .nearest => "NEAREST"
  | .fbClear => "FB_CLEAR"
  | .fbSetRotation => "FB_SET_ROTATION"
  | .fbSetPixel => "FB_SET_PIXEL"
  | .fbAsBytes => "FB_AS_BYTES"
  | .pcReset => "PC_RESET"
  | .pcInitialize => "PC_INITIALIZE"
  | .pcWakeUp => "PC_WAKE_UP"
  | .pcUpdateFrame => "PC_UPDATE_FRAME"
  | .pcDisplayFrame => "PC_DISPLAY_FRAME"
  | .pcUpdateAndDisplayFrame => "PC_UPDATE_AND_DISPLAY_FRAME"
  | .pcClearFrame => "PC_CLEAR_FRAME"
  | .pcPowerOff => "PC_POWER_OFF"
  | .pcSleep => "PC_SLEEP"
  | .pcSetBackground => "PC_SET_BACKGROUND"
  | .isBusy => "IS_BUSY"
  | .readStatus => "READ_STATUS"

/-- A colour operand's name (R99). -/
def colorName : Color → String
  | .black => "Black"
  | .white => "White"
  | .green => "Green"
  | .blue => "Blue"
  | .red => "Red"
  | .yellow => "Yellow"
  | .orange => "Orange"
  | .hiZ => "HiZ"

/-- A rotation operand in degrees (R99). -/
def rotationName : Rotation → String
  | .deg0 => "0"
  | .deg90 => "90"
  | .deg180 => "180"
  | .deg270 => "270"

/-- The operands of an instruction as they are written, numbers in decimal (R99). -/
def operandNames : Instr → List String
  | .toCode c => [colorName c]
  | .fromCode a => [toString a.toNat]
  | .pack hi lo => [colorName hi, colorName lo]
  | .unpack a => [toString a.toNat]
  | .nearest r g b => [toString r.toNat, toString g.toNat, toString b.toNat]
  | .fbClear c => [colorName c]
  | .fbSetRotation r => [rotationName r]
  | .fbSetPixel x y c => [toString x, toString y, colorName c]
  | .pcSetBackground c => [colorName c]
  | .fbAsBytes => []
  | .pcReset => []
  | .pcInitialize => []
  | .pcWakeUp => []
  | .pcUpdateFrame => []
  | .pcDisplayFrame => []
  | .pcUpdateAndDisplayFrame => []
  | .pcClearFrame => []
  | .pcPowerOff => []
  | .pcSleep => []
  | .isBusy => []
  | .readStatus => []

/-- An instruction as the assembler writes it: its mnemonic, then its operands separated by commas (R99). -/
def assemblerText (i : Instr) : String :=
  match operandNames i with
  | [] => mnemonicOf (opOf i)
  | ops => mnemonicOf (opOf i) ++ " " ++ ", ".intercalate ops

/-! ### A row of the opcode table as the host hands it over -/

/-- The request word whose low nbits bits are those of w, the bits above zero. -/
def tableReq (nbits w : Nat) : Req := BitVec.ofNat 96 (w % 2 ^ nbits)

/-- The instruction the decoder reads from a table word of nbits bits; a request is one 96-bit word (R98), so a longer
word is none. -/
def decodeTableWord (nbits w : Nat) : Option Instr :=
  if nbits ≤ 96 then (decode (tableReq nbits w)).toOption else none

end Sys2Proof
end

