-- ==== Sys2Proof/Machine/Operands.lean ====
section
/-! DEFINITION. What operands and parameters mean: bytes made of colours (40_color_model.md), distances and the nearest
colour, the addresser's clip, rotation and byte index (20_memory.md, 41_framebuffer.md), the computed payloads
(42_panel_controller.md), the spec's default tables, and the configurations that define a machine (00_scope.md R7). -/

namespace Sys2Proof

/-! ### The spec's default tables, and the configuration of its test vectors -/

/-- The default PALETTE of 40_color_model.md R131. PRESUMED for every row but Orange: the spec marks them
"from general knowledge, not in source" (log entry 2). -/
def Palette.default : Palette where
  black  := ⟨0, 0, 0⟩
  white  := ⟨255, 255, 255⟩
  green  := ⟨0, 255, 0⟩
  blue   := ⟨0, 0, 255⟩
  red    := ⟨255, 0, 0⟩
  yellow := ⟨255, 255, 0⟩
  orange := ⟨255, 128, 0⟩
  hiZ    := ⟨128, 128, 128⟩

/-- The default CMD table of 30_encoding.md R101. PRESUMED: "from general knowledge, not in source" (log entry 2). -/
def CmdBytes.default : CmdBytes where
  psr   := 0x00
  pwr   := 0x01
  pof   := 0x02
  pfs   := 0x03
  pon   := 0x04
  btst  := 0x06
  dslp  := 0x07
  dtm   := 0x10
  dsp   := 0x11
  drf   := 0x12
  pll   := 0x30
  tse   := 0x41
  cdi   := 0x50
  tcon  := 0x60
  tres  := 0x61
  flash := 0xE3

/-- The default INIT_PAYLOAD table of 30_encoding.md R102. PRESUMED: "from general knowledge, not in source"
(log entry 2). -/
def InitPayload.default : InitPayload where
  psr   := [0xEF, 0x08]
  pwr   := [0x37, 0x00, 0x23, 0x23]
  pfs   := [0x00]
  btst  := [0xC7, 0xC7, 0x1D]
  pll   := [0x3C]
  tse   := [0x00]
  tcon  := [0x22]
  flash := [0xAA]

/-- The configuration of the spec's test vectors (95_test_vectors.md, "Conventions"): 4 by 2 pixels, the default
tables, no poll delay, no fill by PC_CLEAR_FRAME, background White. DESIGN CHOICE (log entry 2) where the vectors
fix nothing: FB_INIT all zero and the reset delays 10 and 2 as program P3 has them, and the PIN adapter. -/
def Config.default : Config where
  width := 4
  height := 2
  fbInit := [0, 0, 0, 0]
  bgInit := .white
  palette := .default
  cmd := .default
  initPayload := .default
  tRstLowMs := 10
  tRstHighMs := 2
  pollDelayMs := none
  clearFrameWritesFb := false
  busySource := .pin
  busyPinBusyLevel := true
  srBusyBit := 7

/-! ### Parameters -/

/-- FB_LEN (00_scope.md R6, R7). -/
def Config.fbLen (c : Config) : Nat := c.width * c.height / 2

/-- What a framebuffer byte that nothing has written reads as: FB_INIT (20_memory.md R72). The fallback is for an index
outside FB_INIT only, which no access reaches (20_memory.md R66, R70; log entry 9). -/
def Config.fbUnlisted (c : Config) (i : Nat) : Byte := c.fbInit.getD i 0

/-- PALETTE(c) (40_color_model.md R131). -/
def Palette.rgb (p : Palette) : Color → Rgb
  | .black => p.black
  | .white => p.white
  | .green => p.green
  | .blue => p.blue
  | .red => p.red
  | .yellow => p.yellow
  | .orange => p.orange
  | .hiZ => p.hiZ

/-- CMD[name] (30_encoding.md R101). -/
def CmdBytes.byte (t : CmdBytes) : CmdName → Byte
  | .psr => t.psr
  | .pwr => t.pwr
  | .pof => t.pof
  | .pfs => t.pfs
  | .pon => t.pon
  | .btst => t.btst
  | .dslp => t.dslp
  | .dtm => t.dtm
  | .dsp => t.dsp
  | .drf => t.drf
  | .pll => t.pll
  | .tse => t.tse
  | .cdi => t.cdi
  | .tcon => t.tcon
  | .tres => t.tres
  | .flash => t.flash

/-! ### The colour model -/

/-- The eight colours in enumeration order (40_color_model.md R130). -/
def allColors : List Color := [.black, .white, .green, .blue, .red, .yellow, .orange, .hiZ]

/-- pack(hi, lo) = (code(hi) << 4) | code(lo) (40_color_model.md R134). -/
def packByte (hi lo : Color) : Byte := (hi.code.zeroExtend 8 <<< 4) ||| lo.code.zeroExtend 8

/-- b[7:4]. -/
def hiNibble (b : Byte) : BitVec 4 := b.extractLsb' 4 4

/-- b[3:0]. -/
def loNibble (b : Byte) : BitVec 4 := b.extractLsb' 0 4

/-- Decoding a nibble as a colour: its colour, or none where it is in 8..15 (40_color_model.md R133, 60_exceptions.md
R271). -/
def colorOfNibble (n : BitVec 4) : Option Color :=
  if n.toNat ≤ 7 then some (.ofCode (n.extractLsb' 0 3)) else none

/-- dist of 40_color_model.md R137, in Int. -/
def rgbDist (p q : Rgb) : Int :=
  ((p.r.toNat : Int) - q.r.toNat) ^ 2 + ((p.g.toNat : Int) - q.g.toNat) ^ 2 + ((p.b.toNat : Int) - q.b.toNat) ^ 2

/-- The search of 40_color_model.md R136 over the remaining candidates: a strictly smaller distance replaces the best
so far, so an earlier colour wins a tie. -/
def nearestFrom (p : Palette) (v : Rgb) (best : Color) : List Color → Color
  | [] => best
  | c :: cs =>
    if rgbDist v (p.rgb c) < rgbDist v (p.rgb best) then nearestFrom p v c cs else nearestFrom p v best cs

/-- The minimum-distance search alone (40_color_model.md R138). -/
def nearestSearch (p : Palette) (v : Rgb) : Color := nearestFrom p v .black allColors.tail

/-- nearest(rgb) (40_color_model.md R136): an exact match first, in enumeration order; otherwise the search. -/
def nearestColor (p : Palette) (v : Rgb) : Color :=
  match allColors.find? (fun c => p.rgb c == v) with
  | some c => c
  | none => nearestSearch p v

/-! ### The addresser -/

/-- inBounds(ROT, x, y) (41_framebuffer.md R163). -/
def inBounds (c : Config) (r : Rotation) (x y : Int) : Bool :=
  if x < 0 ∨ y < 0 then false
  else
    match r with
    | .deg0 => decide (x < c.width) && decide (y < c.height)
    | .deg180 => decide (x < c.width) && decide (y < c.height)
    | .deg90 => decide (x < c.height) && decide (y < c.width)
    | .deg270 => decide (x < c.height) && decide (y < c.width)

/-- native(ROT, x, y) (41_framebuffer.md R164), in Int. -/
def native (c : Config) (r : Rotation) (x y : Int) : Int × Int :=
  match r with
  | .deg0 => (x, y)
  | .deg90 => (c.width - 1 - y, x)
  | .deg180 => (c.width - 1 - x, c.height - 1 - y)
  | .deg270 => (y, c.height - 1 - x)

/-- byte_index(nx, ny) = nx div 2 + (WIDTH div 2) * ny (20_memory.md R61). -/
def byteIndex (c : Config) (nx ny : Nat) : Nat := nx / 2 + c.width / 2 * ny

/-- The byte a pixel lives in with its nibble overwritten: the high nibble where nx is even, the low one where it is
odd, the sibling kept (41_framebuffer.md R162, R165). -/
def setNibble (nx : Nat) (col : Color) (old : Byte) : Byte :=
  if nx % 2 = 0 then (old &&& 0x0F) ||| (col.code.zeroExtend 8 <<< 4) else (old &&& 0xF0) ||| col.code.zeroExtend 8

/-! ### Computed payloads -/

/-- vcom(BG) = 0x17 | ((BG & 0b111) << 5) (42_panel_controller.md R203). -/
def vcom (bg : Color) : Byte := 0x17 ||| ((bg.code.zeroExtend 8 &&& 0b111) <<< 5)

/-- res() (42_panel_controller.md R204): high byte first, width first. -/
def resBytes (c : Config) : List Byte :=
  let w := BitVec.ofNat 16 c.width
  let h := BitVec.ofNat 16 c.height
  [w.extractLsb' 8 8, w.extractLsb' 0 8, h.extractLsb' 8 8, h.extractLsb' 0 8]

/-! ### Configurations that define a machine -/

/-- The constraints on the parameters: those of 00_scope.md R7, the length of FB_INIT and the fixed value of
SR_BUSY_BIT (R6), and what 40_color_model.md R131 requires of PALETTE (log entry 10). -/
abbrev Config.Ok (c : Config) : Prop :=
  c.width % 2 = 0 ∧ 1 ≤ c.width ∧ c.width ≤ 65535 ∧ 1 ≤ c.height ∧ c.height ≤ 65535 ∧
  c.fbInit.length = c.fbLen ∧
  (allColors.map c.palette.rgb).Nodup ∧ c.palette.orange = ⟨255, 128, 0⟩ ∧
  nearestColor c.palette ⟨0, 0, 0⟩ = .black ∧ nearestColor c.palette ⟨10, 10, 10⟩ = .black ∧
  c.srBusyBit = 7

/-- The check of Config.Ok, as step makes it. -/
def Config.wf (c : Config) : Bool := decide c.Ok

end Sys2Proof
end

