-- ==== Sys2Proof/Machine/State.lean ====
section
/-! DEFINITION. Everything the spec gives IFPC to hold (10_state.md R30), the output records its rules append to, the
inputs its rules draw, and the state after block reset (R42, 70_reset_and_hazards.md R300). -/

namespace Sys2Proof.Machine

/-- PHASE (10_state.md R36). -/
inductive Phase where
  | unknown | reset | initialized | idle | updating | displaying | powerOff | asleep
deriving DecidableEq, Repr

/-- A recorded line level: 0, 1 or UNDRIVEN (10_state.md R30, R39). -/
inductive LineLevel where
  | low | high | undriven
deriving DecidableEq, Repr

/-- The nine sequencer requests (42_panel_controller.md R197): those that run a script. -/
inductive SeqOp where
  | reset | initPanel | wakeUp | updateFrame | displayFrame | updateAndDisplayFrame | clearFrame | powerOff | sleep
deriving DecidableEq, Repr

/-- The events of the wire trace (42_panel_controller.md R190); a level or an answer is true for 1. -/
inductive Event where
  /-- DC(l): the command/data line is driven. -/
  | dc (l : Bool)
  /-- TX(b): one byte is written. -/
  | tx (b : Byte)
  /-- RST(l): the reset line is driven. -/
  | rst (l : Bool)
  /-- DLY(n): delay_ms(n). -/
  | dly (n : Nat)
  /-- BUSY(v): is_busy() returned v. -/
  | busy (v : Bool)
deriving DecidableEq, Repr

/-- The shift-register adapter's own pin events (43_busy_status.md R252). -/
inductive PinEvent where
  /-- LAT(l). -/
  | lat (l : Bool)
  /-- CLK(l). -/
  | clk (l : Bool)
  /-- sample(DATA) that read the level l. -/
  | sample (l : Bool)
deriving DecidableEq, Repr

/-- The events of the refined trace (43_busy_status.md R256): those of the wire trace, but with the adapter's own pin
events in the place of each BUSY(v). -/
inductive FineEvent where
  /-- DC(l). -/
  | dc (l : Bool)
  /-- TX(b). -/
  | tx (b : Byte)
  /-- RST(l). -/
  | rst (l : Bool)
  /-- DLY(n). -/
  | dly (n : Nat)
  /-- A pin event of the adapter. -/
  | pin (p : PinEvent)
deriving DecidableEq, Repr

/-- The status codes a response may carry (30_encoding.md R96). -/
inductive Status where
  | ok | outOfRange | transportError | illegal
deriving DecidableEq, Repr

/-- A response: the word of 30_encoding.md R96 and the data stream beside it (R97), empty but for FB_AS_BYTES. -/
structure Response where
  word : Rsp
  data : List Byte
deriving DecidableEq, Repr

/-- Why a step stops with a fault: never. IFPC has no trap, and every error of the spec is a response after which the
machine goes on (60_exceptions.md R270, R278), so this closed type has no constructor (log entry 20). -/
inductive Fault where
deriving DecidableEq, Repr

/-- Why a step answers no meaning. -/
inductive Refusal where
  /-- Raised by an arm of exec whose instruction has no meaning yet; safe: nothing is claimed of it. -/
  | notModelled (mnemonic : String)
  /-- Raised by step where the configuration breaks 00_scope.md R7 or 40_color_model.md R131: it "defines no machine".
  Safe: nothing is claimed of such a configuration. -/
  | badConfiguration
deriving DecidableEq, Repr

/-- The state of the machine. The first ten fields are the spec's (10_state.md R30); the others are the model's own
(INVENTORY.md, "State"). -/
structure State where
  /-- FB, as cells that differ from FB_INIT, addresses strictly rising (R33; log entry 9). -/
  fb : List Host.Cell
  /-- ROT (R34). -/
  rot : Rotation
  /-- BG, the colour whose code the register holds (R35). -/
  bg : Color
  /-- PHASE (R36). -/
  phase : Phase
  /-- PROTO_ERR, sticky (R37). -/
  protoErr : Bool
  /-- XPORT_ERR, sticky (R38). -/
  xportErr : Bool
  /-- DC_LEVEL (R39). -/
  dcLevel : LineLevel
  /-- RST_LEVEL (R39). -/
  rstLevel : LineLevel
  /-- CUR, the sequencer request in progress, or NONE (R32). -/
  cur : Option SeqOp
  /-- STEP, the index of the next element of the script of CUR (R32). -/
  stepIx : Nat
  /-- The value `legal` of 42_panel_controller.md R197 for the request in progress (log entry 5). -/
  curLegal : Bool
  /-- The request words the host has put on the request port, the next first (log entry 7). -/
  reqPort : List Req
  /-- The responses given, oldest first (log entry 8). -/
  rsps : List Response
  /-- The wire trace, oldest event first (log entry 8). -/
  trace : List Event
  /-- The refined trace (43_busy_status.md R256), oldest event first: the wire trace with the adapter's own pin events
  in the place of each BUSY(v) (log entry 8). -/
  refined : List FineEvent
  /-- Transport answers supplied from outside, the next first; true is success (log entry 3). -/
  xportIn : List Bool
  /-- How many transport answers have been drawn: the index of the free value (log entry 3). -/
  xportDraws : Nat
  /-- Levels of the busy line supplied from outside, the next first (log entry 3). -/
  lineIn : List Bool
  /-- How many levels have been sampled: the index of the free value (log entry 3). -/
  lineDraws : Nat
  /-- The parameters of 00_scope.md R6; no request changes them (log entry 1). -/
  cfg : Config
deriving DecidableEq, Repr

/-- The state after block reset of the block with parameters c (10_state.md R42, 70_reset_and_hazards.md R300). -/
def State.resetWith (c : Config) : State where
  fb := []
  rot := .deg0
  bg := c.bgInit
  phase := .unknown
  protoErr := false
  xportErr := false
  dcLevel := .undriven
  rstLevel := .undriven
  cur := none
  stepIx := 0
  curLegal := false
  reqPort := []
  rsps := []
  trace := []
  refined := []
  xportIn := []
  xportDraws := 0
  lineIn := []
  lineDraws := 0
  cfg := c

/-- The state after block reset. The configuration is the one of the spec's test vectors: DESIGN CHOICE (log entry 2). -/
def State.reset : State := .resetWith .default

end Sys2Proof.Machine
end

