-- ==== Sys2Proof/Machine/Flags.lean ====
section
/-! DEFINITION. The control bits: the phase machine and its two sticky bits (10_state.md R36 to R38,
42_panel_controller.md R220 and R221), STATUS_WORD (10_state.md R40), and the status field of a response
(30_encoding.md R96). -/

namespace Sys2Proof.Machine

/-- The encoding of PHASE (10_state.md R36). -/
def Phase.code : Phase → BitVec 3
  | .unknown => 0
  | .reset => 1
  | .initialized => 2
  | .idle => 3
  | .updating => 4
  | .displaying => 5
  | .powerOff => 6
  | .asleep => 7

/-- A resting phase is one PHASE may hold between requests (10_state.md R36). -/
def Phase.resting : Phase → Bool
  | .unknown => true
  | .reset => true
  | .initialized => false
  | .idle => true
  | .updating => false
  | .displaying => false
  | .powerOff => true
  | .asleep => true

/-- STATUS in bits [3:0] of a response (30_encoding.md R96). -/
def Status.code : Status → BitVec 4
  | .ok => 0
  | .outOfRange => 1
  | .transportError => 2
  | .illegal => 3

/-- The response word: VALUE in [31:8], zero in [7:4], STATUS in [3:0] (30_encoding.md R96). -/
def respWord (st : Status) (value : BitVec 24) : Rsp := value ++ 0#4 ++ st.code

/-- legalFrom(op, PHASE) (42_panel_controller.md R221). -/
def legalFrom (op : SeqOp) (p : Phase) : Bool :=
  match op with
  | .reset => true
  | .initPanel => true
  | .wakeUp => true
  | .updateFrame => p == .idle
  | .displayFrame => p == .idle
  | .updateAndDisplayFrame => p == .idle
  | .clearFrame => p == .idle
  | .powerOff => p == .idle
  | .sleep => p == .idle

/-- endPhase(op) (42_panel_controller.md R220). -/
def endPhase : SeqOp → Phase
  | .reset => .reset
  | .initPanel => .idle
  | .wakeUp => .idle
  | .updateFrame => .idle
  | .displayFrame => .idle
  | .updateAndDisplayFrame => .idle
  | .clearFrame => .idle
  | .powerOff => .powerOff
  | .sleep => .asleep

/-- PHASE at the end of a request that raised no TransportError (42_panel_controller.md R197). -/
def finalPhase (op : SeqOp) (legal : Bool) : Phase := if legal then endPhase op else .unknown

/-- STATUS_WORD (10_state.md R40): {0, XPORT_ERR, PROTO_ERR, BG, ROT, PHASE}. -/
def statusWord (s : State) : BitVec 32 :=
  0#22 ++ BitVec.ofBool s.xportErr ++ BitVec.ofBool s.protoErr ++ s.bg.code ++ s.rot.code ++ s.phase.code

/-- A driven level as it is recorded (10_state.md R39). -/
def LineLevel.ofBool (l : Bool) : LineLevel := if l then .high else .low

end Sys2Proof.Machine
end

