-- ==== Sys2Proof/Machine/Ops.lean ====
section
/-! DEFINITION. The named operations over the state: the framebuffer's bytes, the free draws, Emit and Poll
(42_panel_controller.md R191, R192) with the two busy adapters (43_busy_status.md R251, R252), responding, and the
three ways a request ends in an error (60_exceptions.md R271 to R273). IFPC has no trap entry and no return from one
(60_exceptions.md R278, R279): raising an error is answering it. -/

namespace Sys2Proof.Machine

/-! ### Cells -/

/-- The byte listed at an address, if one is. -/
def cellsFind : List Host.Cell → Nat → Option Byte
  | [], _ => none
  | (k, v) :: m, a => if k = a then some v else cellsFind m a

/-- The list without the address. -/
def cellsErase (m : List Host.Cell) (a : Nat) : List Host.Cell := m.filter (fun p => p.1 != a)

/-- The list with the byte at the address, addresses rising. -/
def cellsInsert : List Host.Cell → Nat → Byte → List Host.Cell
  | [], a, v => [(a, v)]
  | (k, w) :: m, a, v =>
    if a < k then (a, v) :: (k, w) :: m
    else if a = k then (a, v) :: m
    else (k, w) :: cellsInsert m a v

/-- The canonical form of the framebuffer: addresses strictly rising, all inside the FB space, and no cell equal to
what an unlisted address reads as (log entry 9). -/
abbrev Memory.wf (c : Config) (m : List Host.Cell) : Prop :=
  m.Pairwise (fun p q => p.1 < q.1) ∧ ∀ p ∈ m, p.1 < c.fbLen ∧ p.2 ≠ c.fbUnlisted p.1

/-! ### The framebuffer (20_memory.md R60, R66, R72) -/

/-- The byte the framebuffer holds at an index of the FB space: the last one written, or FB_INIT (20_memory.md R72). -/
def State.fbByte (s : State) (i : Nat) : Byte := (cellsFind s.fb i).getD (s.cfg.fbUnlisted i)

/-- Reading one byte: none where the index is not in the FB space (20_memory.md R60, R70). -/
def State.readFb (s : State) (i : Nat) : Option Byte := if i < s.cfg.fbLen then some (s.fbByte i) else none

/-- Writing one byte, FB[i] <- v, keeping the canonical form. -/
def State.writeFb (s : State) (i : Nat) (v : Byte) : State :=
  { s with fb := if v = s.cfg.fbUnlisted i then cellsErase s.fb i else cellsInsert s.fb i v }

/-- Writing every byte, FB[i] <- v for every i (41_framebuffer.md R160, 42_panel_controller.md R196 FillFB). -/
def State.fillFb (s : State) (v : Byte) : State :=
  { s with
    fb := (List.range s.cfg.fbLen).filterMap (fun i => if v = s.cfg.fbUnlisted i then none else some (i, v)) }

/-- The whole buffer in index order (30_encoding.md R97, 42_panel_controller.md R212). -/
def State.fbBytes (s : State) : List Byte := (List.range s.cfg.fbLen).map s.fbByte

/-! ### Responding (00_scope.md R10, 30_encoding.md R96) -/

/-- Ends the request with a response word and a data stream. -/
def respondData (st : Status) (value : BitVec 24) (data : List Byte) (s : State) : State :=
  { s with rsps := s.rsps ++ [⟨respWord st value, data⟩] }

/-- respond(status, value): a response without a data stream. -/
def respond (st : Status) (value : BitVec 24) (s : State) : State := respondData st value [] s

/-- CUR <- NONE. STEP is then meaningless (10_state.md R32); the model clears it with CUR (log entry 6). -/
def endRequest (s : State) : State := { s with cur := none, stepIx := 0, curLegal := false }

/-- raise OutOfRange(n) (60_exceptions.md R271). -/
def raiseOutOfRange (n : BitVec 4) (s : State) : State := respond .outOfRange (n.zeroExtend 24) s

/-- raise TransportError (60_exceptions.md R272): PHASE <- UNKNOWN, XPORT_ERR <- 1, CUR <- NONE, respond. Nothing is
rolled back. -/
def raiseTransportError (s : State) : State :=
  respond .transportError 0 (endRequest { s with phase := .unknown, xportErr := true })

/-- raise IllegalRequest (60_exceptions.md R273): no state change, no event, the response ILLEGAL. -/
def raiseIllegal (s : State) : State := respond .illegal 0 s

/-! ### Free draws (log entry 3) -/

/-- The transport oracle's answer for the current event: the next one supplied, or the free value. -/
def drawXport (s : State) : Bool × State :=
  match s.xportIn with
  | b :: rest => (b, { s with xportIn := rest, xportDraws := s.xportDraws + 1 })
  | [] => (Config.freeXport s.xportDraws, { s with xportDraws := s.xportDraws + 1 })

/-- The level of the busy line at this sample: the next one supplied, or the free value. -/
def sampleLine (s : State) : Bool × State :=
  match s.lineIn with
  | b :: rest => (b, { s with lineIn := rest, lineDraws := s.lineDraws + 1 })
  | [] => (Config.freeLevel s.lineDraws, { s with lineDraws := s.lineDraws + 1 })

/-! ### Emit (42_panel_controller.md R191) -/

/-- Whether the transport may answer failure for the event (42_panel_controller.md R190). -/
def Event.failable : Event → Bool
  | .dc _ => true
  | .tx _ => true
  | .rst _ => true
  | .dly _ => false
  | .busy _ => false

/-- What of an event the refined trace holds: the event, but nothing of BUSY(v), in whose place the adapter's own events
stand (43_busy_status.md R256). -/
def Event.fine : Event → List FineEvent
  | .dc l => [.dc l]
  | .tx b => [.tx b]
  | .rst l => [.rst l]
  | .dly n => [.dly n]
  | .busy _ => []

/-- The first lines of Emit(e): the event joins the trace and what the refined trace holds of it that trace, and a line
event's level is recorded whether or not the transport then reports success (10_state.md R39). -/
def recordEvent (e : Event) (s : State) : State :=
  match e with
  | .dc l => { s with trace := s.trace ++ [e], refined := s.refined ++ e.fine, dcLevel := .ofBool l }
  | .rst l => { s with trace := s.trace ++ [e], refined := s.refined ++ e.fine, rstLevel := .ofBool l }
  | .tx _ => { s with trace := s.trace ++ [e], refined := s.refined ++ e.fine }
  | .dly _ => { s with trace := s.trace ++ [e], refined := s.refined ++ e.fine }
  | .busy _ => { s with trace := s.trace ++ [e], refined := s.refined ++ e.fine }

/-- Emit(e): true where the transport reports success. An event that cannot fail draws no answer. -/
def emit (e : Event) (s : State) : Bool × State :=
  if e.failable then drawXport (recordEvent e s) else (true, recordEvent e s)

/-! ### Poll and the busy adapters (42_panel_controller.md R192, 43_busy_status.md R250 to R252) -/

/-- The adapter's own pin events join the refined trace, where they replace the BUSY event of their poll
(43_busy_status.md R256). -/
def recordPins (es : List PinEvent) (s : State) : State := { s with refined := s.refined ++ es.map .pin }

/-- Clocking out n bits, most significant first: sample, then one clock pulse high and low (43_busy_status.md R252).
acc holds the bits already read. -/
def shiftRead : Nat → Byte → State → Byte × State
  | 0, acc, s => (acc, s)
  | n + 1, acc, s =>
    let r := sampleLine s
    shiftRead n ((acc <<< 1) ||| (if r.1 then 1 else 0)) (recordPins [.sample r.1, .clk true, .clk false] r.2)

/-- is_busy_sr() (43_busy_status.md R252): the latch low then high, eight bits, and a zero in SR_BUSY_BIT means busy. -/
def isBusyShiftReg (s : State) : Bool × State :=
  let r := shiftRead 8 0 (recordPins [.lat false, .lat true] s)
  (!(r.1.getLsbD s.cfg.srBusyBit), r.2)

/-- is_busy() of the PIN adapter (43_busy_status.md R251): the pin is sampled once and nothing is driven. -/
def isBusyPin (s : State) : Bool × State :=
  let r := sampleLine s
  (r.1 == s.cfg.busyPinBusyLevel, r.2)

/-- is_busy() of the fitted adapter (43_busy_status.md R250). -/
def isBusyLine (s : State) : Bool × State :=
  match s.cfg.busySource with
  | .pin => isBusyPin s
  | .shiftReg => isBusyShiftReg s

/-- Poll() (42_panel_controller.md R192): one busy sample, recorded as BUSY(v) in the wire trace and as the adapter's own
events in the refined trace (43_busy_status.md R256). A poll cannot fail. -/
def poll (s : State) : Bool × State :=
  let r := isBusyLine s
  (r.1, recordEvent (.busy r.1) r.2)

/-! ### The request port (30_encoding.md R90, 70_reset_and_hazards.md R301, R312) -/

/-- The next request word on the port, and the state with it taken. -/
def takeRequest (s : State) : Option (Req × State) :=
  match s.reqPort with
  | [] => none
  | w :: rest => some (w, { s with reqPort := rest })

/-- The request port with the word put before all others, and no request in progress, so that the word is taken next. -/
def putRequest (w : Req) (s : State) : State := endRequest { s with reqPort := w :: s.reqPort }

end Sys2Proof.Machine
end

