-- ==== Sys2Proof/Machine/Fba.lean ====
section
/-! DEFINITION. The four FBA requests (41_framebuffer.md R160 to R166). None emits an event or touches PHASE, BG or the
error bits. -/

namespace Sys2Proof.Machine

/-- FB_CLEAR (R160): every byte becomes pack(c, c). -/
def execFbClear (c : Color) (s : State) : Host.Outcome State Fault Refusal :=
  .next (respond .ok 0 (s.fillFb (packByte c c)))

/-- FB_SET_ROTATION (R161). -/
def execFbSetRotation (r : Rotation) (s : State) : Host.Outcome State Fault Refusal :=
  .next (respond .ok 0 { s with rot := r })

/-- The native x of the pixel a caller's coordinates name under ROT (R164). -/
def pixelX (s : State) (x y : Int) : Nat := (native s.cfg s.rot x y).1.toNat

/-- The native y of the pixel a caller's coordinates name under ROT (R164). -/
def pixelY (s : State) (x y : Int) : Nat := (native s.cfg s.rot x y).2.toNat

/-- The framebuffer index of the byte FB_SET_PIXEL stores to (R162; 20_memory.md R61). -/
def pixelIndex (s : State) (x y : Int) : Nat := byteIndex s.cfg (pixelX s x y) (pixelY s x y)

/-- FB_SET_PIXEL (R162): a pixel outside the rotated frame, or an index outside the buffer (20_memory.md R70), is
dropped and answered OK. -/
def execFbSetPixel (x y : Int) (c : Color) (s : State) : Host.Outcome State Fault Refusal :=
  if inBounds s.cfg s.rot x y then
    match s.readFb (pixelIndex s x y) with
    | none => .next (respond .ok 0 s)
    | some old => .next (respond .ok 0 (s.writeFb (pixelIndex s x y) (setNibble (pixelX s x y) c old)))
  else .next (respond .ok 0 s)

/-- FB_AS_BYTES (R166): the buffer as it is stored, as the data stream of the response (30_encoding.md R97). -/
def execFbAsBytes (s : State) : Host.Outcome State Fault Refusal := .next (respondData .ok 0 s.fbBytes s)

end Sys2Proof.Machine
end

