-- ==== Sys2Proof/Machine/Observe.lean ====
section
/-! DEFINITION. The two observation requests (43_busy_status.md R254, R255). -/

namespace Sys2Proof.Machine

/-- IS_BUSY (R254): one poll, no wait, answered in VALUE[0]. -/
def execIsBusy (s : State) : Host.Outcome State Fault Refusal :=
  let r := poll s
  .next (respond .ok (if r.1 then 1 else 0) r.2)

/-- READ_STATUS (R255): VALUE[9:0] is STATUS_WORD[9:0]. -/
def execReadStatus (s : State) : Host.Outcome State Fault Refusal :=
  .next (respond .ok (((statusWord s).extractLsb' 0 10).zeroExtend 24) s)

end Sys2Proof.Machine
end

