-- ==== Sys2Proof/Machine/Qnt.lean ====
section
/-! DEFINITION. The five QNT requests (40_color_model.md R132 to R136). Each answers in one step and changes nothing
but the list of responses. -/

namespace Sys2Proof.Machine

/-- A code or a byte as VALUE[7:0] of a response (30_encoding.md R96). -/
def colorValue (c : Color) : BitVec 24 := c.code.zeroExtend 24

/-- TO_CODE (R132). -/
def execToCode (c : Color) (s : State) : Host.Outcome State Fault Refusal := .next (respond .ok (colorValue c) s)

/-- FROM_CODE (R133): the nibble is A[3:0]; A[7:4] is ignored. -/
def execFromCode (a : Byte) (s : State) : Host.Outcome State Fault Refusal :=
  match colorOfNibble (loNibble a) with
  | some c => .next (respond .ok (colorValue c) s)
  | none => .next (raiseOutOfRange (loNibble a) s)

/-- PACK (R134). -/
def execPack (hi lo : Color) (s : State) : Host.Outcome State Fault Refusal :=
  .next (respond .ok ((packByte hi lo).zeroExtend 24) s)

/-- UNPACK (R135): the high nibble is checked first; the high colour's code goes in VALUE[7:0], the low one's in
VALUE[15:8]. -/
def execUnpack (a : Byte) (s : State) : Host.Outcome State Fault Refusal :=
  match colorOfNibble (hiNibble a) with
  | none => .next (raiseOutOfRange (hiNibble a) s)
  | some h =>
    match colorOfNibble (loNibble a) with
    | none => .next (raiseOutOfRange (loNibble a) s)
    | some l => .next (respond .ok (0#8 ++ l.code.zeroExtend 8 ++ h.code.zeroExtend 8) s)

/-- NEAREST (R136). -/
def execNearest (r g b : Byte) (s : State) : Host.Outcome State Fault Refusal :=
  .next (respond .ok (colorValue (nearestColor s.cfg.palette ⟨r, g, b⟩)) s)

end Sys2Proof.Machine
end

