-- ==== Sys2Proof/Machine/Seq.lean ====
section
/-! DEFINITION. The sequencer (42_panel_controller.md): the building blocks of scripts, the script of each of its nine
script requests, the frame every one of them runs in (R197), and PC_SET_BACKGROUND. -/

namespace Sys2Proof.Machine

/-! ### Scripts (R193 to R196, R200 to R202) -/

/-- An element of a script (R196), after Cmd and ResetPulse are expanded. -/
inductive Elem where
  /-- SetPhase(p). -/
  | setPhase (p : Phase)
  /-- Emit(e). -/
  | emit (e : Event)
  /-- WaitBusy() (R194). -/
  | waitBusy
  /-- FillFB(v). -/
  | fillFb (v : Byte)
deriving DecidableEq, Repr

/-- Cmd(name, payload) (R193): DC low, the command byte, and for a payload DC high once and its bytes in order. -/
def cmdElems (c : Config) (name : CmdName) (payload : List Byte) : List Elem :=
  [.emit (.dc false), .emit (.tx (c.cmd.byte name))] ++
    (if payload.isEmpty then [] else .emit (.dc true) :: payload.map (fun b => .emit (.tx b)))

/-- ResetPulse() (R195). -/
def resetPulse (c : Config) : List Elem :=
  [.emit (.rst false), .emit (.dly c.tRstLowMs), .emit (.rst true), .emit (.dly c.tRstHighMs), .waitBusy]

/-- INIT_CMDS (R200). -/
def initCmds (c : Config) (bg : Color) : List Elem :=
  cmdElems c .psr c.initPayload.psr ++ cmdElems c .pwr c.initPayload.pwr ++ cmdElems c .pfs c.initPayload.pfs ++
  cmdElems c .btst c.initPayload.btst ++ cmdElems c .pll c.initPayload.pll ++ cmdElems c .tse c.initPayload.tse ++
  cmdElems c .cdi [vcom bg] ++ cmdElems c .tcon c.initPayload.tcon ++ cmdElems c .tres (resBytes c) ++
  cmdElems c .flash c.initPayload.flash ++ cmdElems c .cdi [vcom bg]

/-- LOAD(frame) (R201). -/
def loadElems (c : Config) (bg : Color) (frame : List Byte) : List Elem :=
  cmdElems c .cdi [vcom bg] ++ cmdElems c .tres (resBytes c) ++ cmdElems c .dtm frame ++ cmdElems c .dsp []

/-- REFRESH (R202). -/
def refreshElems (c : Config) : List Elem :=
  [.waitBusy] ++ cmdElems c .pon [] ++ [.waitBusy] ++ cmdElems c .drf [] ++ [.waitBusy] ++ cmdElems c .pof [] ++
  [.waitBusy]

/-- The script of PC_UPDATE_FRAME's rule for a given frame (R208). -/
def updateScript (c : Config) (bg : Color) (frame : List Byte) : List Elem :=
  [.setPhase .updating, .waitBusy] ++ loadElems c bg frame

/-- The script of PC_DISPLAY_FRAME (R209). -/
def displayScript (c : Config) : List Elem := .setPhase .displaying :: refreshElems c

/-- The script of PC_INITIALIZE (R206). -/
def initializeScript (c : Config) (bg : Color) : List Elem :=
  [.setPhase .reset] ++ resetPulse c ++ [.setPhase .initialized] ++ initCmds c bg

/-- script(op): what each sequencer request performs (R205 to R214). Nothing a request performs changes what its own
script is: BG is not written, and FB only by PC_CLEAR_FRAME, whose script does not read it. -/
def script (op : SeqOp) (s : State) : List Elem :=
  match op with
  | .reset => .setPhase .reset :: resetPulse s.cfg
  | .initPanel => initializeScript s.cfg s.bg
  | .wakeUp => initializeScript s.cfg s.bg
  | .updateFrame => updateScript s.cfg s.bg s.fbBytes
  | .displayFrame => displayScript s.cfg
  | .updateAndDisplayFrame => updateScript s.cfg s.bg s.fbBytes ++ displayScript s.cfg
  | .clearFrame =>
    (if s.cfg.clearFrameWritesFb then [.fillFb (packByte s.bg s.bg)] else []) ++
      updateScript s.cfg s.bg (List.replicate s.cfg.fbLen (packByte s.bg s.bg)) ++ displayScript s.cfg
  | .powerOff => cmdElems s.cfg .pof []
  | .sleep => cmdElems s.cfg .dslp [0xA5]

/-! ### Performing a script (R191, R194, R196) -/

/-- What performing one element does. -/
inductive Progress where
  /-- The element performed: the sequencer goes on with the next one. -/
  | advance (s : State)
  /-- A busy-wait's poll answered busy: STEP stays where it is (10_state.md R32). -/
  | hold (s : State)
  /-- The transport answered failure. -/
  | failed (s : State)
deriving DecidableEq, Repr

/-- One round of the loop of WaitBusy() (R194): a poll and, where it answered busy, the optional delay. -/
def waitBusyRound (s : State) : Progress :=
  let r := poll s
  if r.1 then
    match r.2.cfg.pollDelayMs with
    | none => .hold r.2
    | some d => .hold (recordEvent (.dly d) r.2)
  else .advance r.2

/-- Performing one element (R196). -/
def perform (e : Elem) (s : State) : Progress :=
  match e with
  | .setPhase p => .advance { s with phase := p }
  | .emit ev =>
    let r := emit ev s
    if r.1 then .advance r.2 else .failed r.2
  | .waitBusy => waitBusyRound s
  | .fillFb v => .advance (s.fillFb v)

/-- The end of a request whose script performed to its last element (R197): the end phase, or UNKNOWN where the request
was not legal, and the response OK. -/
def finishSeq (op : SeqOp) (s : State) : State :=
  respond .ok 0 (endRequest { s with phase := finalPhase op s.curLegal })

/-- Performing the elements that remain, one at a time and in list order, until the request responds, a poll answers
busy, or the transport fails (R196, R197, 60_exceptions.md R272). STEP advances by one after each element that
performs (10_state.md R32). -/
def runElems (op : SeqOp) : List Elem → State → State
  | [], s => finishSeq op s
  | e :: es, s =>
    match perform e s with
    | .advance t => runElems op es { t with stepIx := t.stepIx + 1 }
    | .hold t => t
    | .failed t => raiseTransportError t

/-- Accepting a sequencer request: CUR, STEP 0, and the legality check made once, at the start (R197, R221). -/
def acceptSeq (op : SeqOp) (s : State) : State :=
  { s with
    cur := some op
    stepIx := 0
    curLegal := legalFrom op s.phase
    protoErr := s.protoErr || !legalFrom op s.phase }

/-- run_seq(op) (R197), from the start of the script. -/
def runSeq (op : SeqOp) (s : State) : State := runElems op (script op s) (acceptSeq op s)

/-- Going on with a request in progress at STEP (10_state.md R32, 42_panel_controller.md R194). -/
def resumeSeq (op : SeqOp) (s : State) : State := runElems op ((script op s).drop s.stepIx) s

/-! ### The requests -/

/-- PC_RESET (R205). -/
def execPcReset (s : State) : Host.Outcome State Fault Refusal := .next (runSeq .reset s)

/-- PC_INITIALIZE (R206). -/
def execPcInitialize (s : State) : Host.Outcome State Fault Refusal := .next (runSeq .initPanel s)

/-- PC_WAKE_UP (R207). -/
def execPcWakeUp (s : State) : Host.Outcome State Fault Refusal := .next (runSeq .wakeUp s)

/-- PC_UPDATE_FRAME (R208). -/
def execPcUpdateFrame (s : State) : Host.Outcome State Fault Refusal := .next (runSeq .updateFrame s)

/-- PC_DISPLAY_FRAME (R209). -/
def execPcDisplayFrame (s : State) : Host.Outcome State Fault Refusal := .next (runSeq .displayFrame s)

/-- PC_UPDATE_AND_DISPLAY_FRAME (R210). -/
def execPcUpdateAndDisplayFrame (s : State) : Host.Outcome State Fault Refusal :=
  .next (runSeq .updateAndDisplayFrame s)

/-- PC_CLEAR_FRAME (R211). -/
def execPcClearFrame (s : State) : Host.Outcome State Fault Refusal := .next (runSeq .clearFrame s)

/-- PC_POWER_OFF (R213). -/
def execPcPowerOff (s : State) : Host.Outcome State Fault Refusal := .next (runSeq .powerOff s)

/-- PC_SLEEP (R214). -/
def execPcSleep (s : State) : Host.Outcome State Fault Refusal := .next (runSeq .sleep s)

/-- PC_SET_BACKGROUND (R215): a pure state update, with no event and no legality check. -/
def execPcSetBackground (c : Color) (s : State) : Host.Outcome State Fault Refusal :=
  .next (respond .ok 0 { s with bg := c })

end Sys2Proof.Machine
end

