-- ==== Sys2Proof/Machine/Dispatch.lean ====
section
/-! DEFINITION. One arm per request of 30_encoding.md R93. -/

namespace Sys2Proof.Machine

def exec (i : Instr) (s : State) : Host.Outcome State Fault Refusal :=
  match i with
  | .toCode c => Sys2Proof.Machine.execToCode c s
  | .fromCode a => Sys2Proof.Machine.execFromCode a s
  | .pack hi lo => Sys2Proof.Machine.execPack hi lo s
  | .unpack a => Sys2Proof.Machine.execUnpack a s
  | .nearest r g b => Sys2Proof.Machine.execNearest r g b s
  | .fbClear c => Sys2Proof.Machine.execFbClear c s
  | .fbSetRotation r => Sys2Proof.Machine.execFbSetRotation r s
  | .fbSetPixel x y c => Sys2Proof.Machine.execFbSetPixel x y c s
  | .fbAsBytes => Sys2Proof.Machine.execFbAsBytes s
  | .pcReset => Sys2Proof.Machine.execPcReset s
  | .pcInitialize => Sys2Proof.Machine.execPcInitialize s
  | .pcWakeUp => Sys2Proof.Machine.execPcWakeUp s
  | .pcUpdateFrame => Sys2Proof.Machine.execPcUpdateFrame s
  | .pcDisplayFrame => Sys2Proof.Machine.execPcDisplayFrame s
  | .pcUpdateAndDisplayFrame => Sys2Proof.Machine.execPcUpdateAndDisplayFrame s
  | .pcClearFrame => Sys2Proof.Machine.execPcClearFrame s
  | .pcPowerOff => Sys2Proof.Machine.execPcPowerOff s
  | .pcSleep => Sys2Proof.Machine.execPcSleep s
  | .pcSetBackground c => Sys2Proof.Machine.execPcSetBackground c s
  | .isBusy => Sys2Proof.Machine.execIsBusy s
  | .readStatus => Sys2Proof.Machine.execReadStatus s

end Sys2Proof.Machine
end

