-- ==== Sys2Proof/Machine/Step.lean ====
section
/-! DEFINITION. One step of the machine: it goes on with the request in progress, or takes the next request word from
the port, decodes it and runs it (00_scope.md R3, 30_encoding.md R94, 70_reset_and_hazards.md R301, R312). -/

namespace Sys2Proof.Machine

/-- One step (log entry 4 says how much of a script one step performs). A configuration that breaks 00_scope.md R7
defines no machine and is refused. With no request in progress and none on the port, the block waits. -/
def step (s : State) : Host.Outcome State Fault Refusal :=
  if s.cfg.wf then
    match s.cur with
    | some op => .next (resumeSeq op s)
    | none =>
      match takeRequest s with
      | none => .next s
      | some (w, t) =>
        match decode w with
        | .ok i => exec i t
        | .error _ => .next (raiseIllegal t)
  else .refused .badConfiguration

/-- The state with a table word put on the request port, so that the next step takes and runs it (log entry 7). -/
def State.withFetchWord (s : State) (nbits w : Nat) : State := putRequest (tableReq nbits w) s

end Sys2Proof.Machine
end

