-- ==== Sys2Proof/Safety.lean ====
section
/-! DEFINITION. The terms in which claims about runs are made: the answers the free inputs are going to give, the events
a request sends when nothing fails and nothing is busy, the state it then leaves, what a trace says of the lines and of
the bytes on them, panel equivalence (42_panel_controller.md R198), and the invariants every step keeps. -/

namespace Sys2Proof.Machine

/-! ### What the free inputs are going to answer -/

/-- The transport's answer to the k-th failable event from now (42_panel_controller.md R191). -/
def State.xportAnswer (s : State) (k : Nat) : Bool := (s.xportIn[k]?).getD (Config.freeXport (s.xportDraws + k))

/-- The level of the busy line at the k-th sample from now. -/
def State.lineAnswer (s : State) (k : Nat) : Bool := (s.lineIn[k]?).getD (Config.freeLevel (s.lineDraws + k))

/-- How many samples one poll takes: one of the pin, or eight of the shift register (43_busy_status.md R251, R252). -/
def samplesPerPoll (c : Config) : Nat :=
  match c.busySource with
  | .pin => 1
  | .shiftReg => 8

/-- The busy answer of the k-th poll from now: the pin at its busy level (43_busy_status.md R251), or a zero in bit
SR_BUSY_BIT of a byte sampled most significant bit first (R252). -/
def State.pollAnswer (s : State) (k : Nat) : Bool :=
  match s.cfg.busySource with
  | .pin => s.lineAnswer k == s.cfg.busyPinBusyLevel
  | .shiftReg => !(s.lineAnswer (8 * k + (7 - s.cfg.srBusyBit)))

/-- The pin events of one read of the shift register whose samples are the given bits, in order: the latch toggle, and
each sample with its clock pulse (43_busy_status.md R252). -/
def shiftRegPins (bits : List Bool) : List PinEvent :=
  [.lat false, .lat true] ++ bits.flatMap (fun b => [.sample b, .clk true, .clk false])

/-- The adapter's own pin events of the k-th poll from now: none for the pin, and for the shift register the latch
toggle and eight samples with a clock pulse each (43_busy_status.md R252, R256). -/
def State.pollPins (s : State) (k : Nat) : List PinEvent :=
  match s.cfg.busySource with
  | .pin => []
  | .shiftReg => shiftRegPins ((List.range 8).map (fun j => s.lineAnswer (8 * k + j)))

/-- The refined trace of the given events, whose polls have, from the k-th on, the given pin events: these stand in the
place of each BUSY(v) (43_busy_status.md R256). -/
def refineEvents (pins : Nat → List PinEvent) : Nat → List Event → List FineEvent
  | _, [] => []
  | k, .busy _ :: es => (pins k).map .pin ++ refineEvents pins (k + 1) es
  | k, .dc l :: es => .dc l :: refineEvents pins k es
  | k, .tx b :: es => .tx b :: refineEvents pins k es
  | k, .rst l :: es => .rst l :: refineEvents pins k es
  | k, .dly n :: es => .dly n :: refineEvents pins k es

/-- The next n failable events succeed. -/
abbrev TransportOk (s : State) (n : Nat) : Prop := ∀ k < n, s.xportAnswer k = true

/-- The next n polls answer not-busy. -/
abbrev NotBusy (s : State) (n : Nat) : Prop := ∀ k < n, s.pollAnswer k = false

/-- The next n polls answer busy. -/
abbrev StaysBusy (s : State) (n : Nat) : Prop := ∀ k < n, s.pollAnswer k = true

/-! ### The opcode table -/

/-- The rows of spec/opcode_table.json as it gives them: operation, match and mask. -/
def opcodeTable : List (Op × Req × Req) :=
  [(.toCode, 0x000000000000000000000001, 0xFFFFFFFFFFFFFFFFFFFFF8FF),
   (.fromCode, 0x000000000000000000000002, 0xFFFFFFFFFFFFFFFFFFFF00FF),
   (.pack, 0x000000000000000000000003, 0xFFFFFFFFFFFFFFFFFFF8F8FF),
   (.unpack, 0x000000000000000000000004, 0xFFFFFFFFFFFFFFFFFFFF00FF),
   (.nearest, 0x000000000000000000000005, 0xFFFFFFFFFFFFFFFF000000FF),
   (.fbClear, 0x000000000000000000000010, 0xFFFFFFFFFFFFFFFFFFFFF8FF),
   (.fbSetRotation, 0x000000000000000000000011, 0xFFFFFFFFFFFFFFFFFFFFFCFF),
   (.fbSetPixel, 0x000000000000000000000012, 0x0000000000000000FFFFF8FF),
   (.fbAsBytes, 0x000000000000000000000013, 0xFFFFFFFFFFFFFFFFFFFFFFFF),
   (.pcReset, 0x000000000000000000000020, 0xFFFFFFFFFFFFFFFFFFFFFFFF),
   (.pcInitialize, 0x000000000000000000000021, 0xFFFFFFFFFFFFFFFFFFFFFFFF),
   (.pcWakeUp, 0x000000000000000000000022, 0xFFFFFFFFFFFFFFFFFFFFFFFF),
   (.pcUpdateFrame, 0x000000000000000000000023, 0xFFFFFFFFFFFFFFFFFFFFFFFF),
   (.pcDisplayFrame, 0x000000000000000000000024, 0xFFFFFFFFFFFFFFFFFFFFFFFF),
   (.pcUpdateAndDisplayFrame, 0x000000000000000000000025, 0xFFFFFFFFFFFFFFFFFFFFFFFF),
   (.pcClearFrame, 0x000000000000000000000026, 0xFFFFFFFFFFFFFFFFFFFFFFFF),
   (.pcPowerOff, 0x000000000000000000000027, 0xFFFFFFFFFFFFFFFFFFFFFFFF),
   (.pcSleep, 0x000000000000000000000028, 0xFFFFFFFFFFFFFFFFFFFFFFFF),
   (.pcSetBackground, 0x000000000000000000000029, 0xFFFFFFFFFFFFFFFFFFFFF8FF),
   (.isBusy, 0x000000000000000000000030, 0xFFFFFFFFFFFFFFFFFFFFFFFF),
   (.readStatus, 0x000000000000000000000031, 0xFFFFFFFFFFFFFFFFFFFFFFFF)]

/-! ### The events of a request -/

/-- The instruction that a sequencer request is. -/
def SeqOp.instr : SeqOp → Instr
  | .reset => .pcReset
  | .initPanel => .pcInitialize
  | .wakeUp => .pcWakeUp
  | .updateFrame => .pcUpdateFrame
  | .displayFrame => .pcDisplayFrame
  | .updateAndDisplayFrame => .pcUpdateAndDisplayFrame
  | .clearFrame => .pcClearFrame
  | .powerOff => .pcPowerOff
  | .sleep => .pcSleep

/-- The events of one wire command (42_panel_controller.md R193). -/
def cmdEvents (c : Config) (name : CmdName) (payload : List Byte) : List Event :=
  match payload with
  | [] => [.dc false, .tx (c.cmd.byte name)]
  | b :: bs => .dc false :: .tx (c.cmd.byte name) :: .dc true :: .tx b :: bs.map .tx

/-- The events of ResetPulse() when its poll answers not-busy at once (42_panel_controller.md R195). -/
def resetEvents (c : Config) : List Event :=
  [.rst false, .dly c.tRstLowMs, .rst true, .dly c.tRstHighMs, .busy false]

/-- The events of INIT_CMDS (42_panel_controller.md R200). -/
def initEvents (c : Config) (bg : Color) : List Event :=
  cmdEvents c .psr c.initPayload.psr ++ (cmdEvents c .pwr c.initPayload.pwr ++ (cmdEvents c .pfs c.initPayload.pfs ++
  (cmdEvents c .btst c.initPayload.btst ++ (cmdEvents c .pll c.initPayload.pll ++
  (cmdEvents c .tse c.initPayload.tse ++ (cmdEvents c .cdi [vcom bg] ++ (cmdEvents c .tcon c.initPayload.tcon ++
  (cmdEvents c .tres (resBytes c) ++ (cmdEvents c .flash c.initPayload.flash ++ cmdEvents c .cdi [vcom bg])))))))))

/-- The events of WaitBusy(); LOAD(frame) when the poll answers not-busy at once (42_panel_controller.md R201, R208). -/
def updateEvents (c : Config) (bg : Color) (frame : List Byte) : List Event :=
  .busy false :: (cmdEvents c .cdi [vcom bg] ++ (cmdEvents c .tres (resBytes c) ++
    (cmdEvents c .dtm frame ++ cmdEvents c .dsp [])))

/-- The events of REFRESH when every poll answers not-busy at once (42_panel_controller.md R202). -/
def refreshEvents (c : Config) : List Event :=
  [.busy false, .dc false, .tx c.cmd.pon, .busy false, .dc false, .tx c.cmd.drf, .busy false, .dc false,
    .tx c.cmd.pof, .busy false]

/-- The events of a sequencer request when nothing fails and every poll answers not-busy (42_panel_controller.md R205
to R214). -/
def opEvents (op : SeqOp) (s : State) : List Event :=
  match op with
  | .reset => resetEvents s.cfg
  | .initPanel => resetEvents s.cfg ++ initEvents s.cfg s.bg
  | .wakeUp => resetEvents s.cfg ++ initEvents s.cfg s.bg
  | .updateFrame => updateEvents s.cfg s.bg s.fbBytes
  | .displayFrame => refreshEvents s.cfg
  | .updateAndDisplayFrame => updateEvents s.cfg s.bg s.fbBytes ++ refreshEvents s.cfg
  | .clearFrame =>
    updateEvents s.cfg s.bg (List.replicate s.cfg.fbLen (packByte s.bg s.bg)) ++ refreshEvents s.cfg
  | .powerOff => cmdEvents s.cfg .pof []
  | .sleep => cmdEvents s.cfg .dslp [0xA5]

/-- How many events of a list the transport may answer failure for (42_panel_controller.md R190). -/
def failables (evs : List Event) : Nat := evs.countP Event.failable

/-- How many events of a list are polls. -/
def polls (evs : List Event) : Nat := evs.countP (fun e => match e with | .busy _ => true | _ => false)

/-- The events up to and including the k-th failable one, counting from 0 (95_test_vectors.md, "Conventions"). -/
def upToFailable (k : Nat) : List Event → List Event
  | [] => []
  | e :: es =>
    if e.failable then
      match k with
      | 0 => [e]
      | j + 1 => e :: upToFailable j es
    else e :: upToFailable k es

/-! ### The events of elements -/

/-- The events of one element of a script when nothing fails and nothing is busy (42_panel_controller.md R196). -/
def Elem.events : Elem → List Event
  | .emit e => [e]
  | .waitBusy => [.busy false]
  | .setPhase _ => []
  | .fillFb _ => []

/-- The events of a list of elements when nothing fails and nothing is busy. -/
def elemEvents (es : List Elem) : List Event := es.flatMap Elem.events

/-- The phase after the SetPhase elements of a list. -/
def phaseAfter (p : Phase) (es : List Elem) : Phase :=
  es.foldl (fun p e => match e with | .setPhase q => q | _ => p) p

/-- The events that a request in progress has still to send, from STEP on, when nothing fails and nothing is busy. -/
def remainingEvents (op : SeqOp) (s : State) : List Event := elemEvents ((script op s).drop s.stepIx)

/-- A request in progress that stands at a busy-wait of its script (10_state.md R32). -/
abbrev HeldAt (op : SeqOp) (s : State) : Prop :=
  s.cfg.wf = true ∧ s.cur = some op ∧ (script op s)[s.stepIx]? = some .waitBusy

/-! ### What a trace says -/

/-- The level the last DC event of a trace drove, or the given one (10_state.md R39). -/
def lastDc (l : LineLevel) (evs : List Event) : LineLevel :=
  evs.foldl (fun l e => match e with | .dc b => .ofBool b | _ => l) l

/-- The level the last RST event of a trace drove, or the given one (10_state.md R39). -/
def lastRst (l : LineLevel) (evs : List Event) : LineLevel :=
  evs.foldl (fun l e => match e with | .rst b => .ofBool b | _ => l) l

/-- The bytes of a trace, each with the command/data level under which it was sent: low for a command byte, high for a
payload byte (30_encoding.md R100). -/
def taggedBytes : LineLevel → List Event → List (LineLevel × Byte)
  | _, [] => []
  | l, .tx b :: es => (l, b) :: taggedBytes l es
  | _, .dc b :: es => taggedBytes (.ofBool b) es
  | l, .rst _ :: es => taggedBytes l es
  | l, .dly _ :: es => taggedBytes l es
  | l, .busy _ :: es => taggedBytes l es

/-- The command bytes of a list of events, in order: those sent with DC low (30_encoding.md R100). -/
def commandBytes (evs : List Event) : List Byte :=
  ((taggedBytes .undriven evs).filter (fun p => p.1 == .low)).map Prod.snd

/-- The payload bytes of a list of events, in order: those sent with DC high (30_encoding.md R100). -/
def payloadBytes (evs : List Event) : List Byte :=
  ((taggedBytes .undriven evs).filter (fun p => p.1 == .high)).map Prod.snd

/-- How many DLY events a list holds. -/
def delays (evs : List Event) : Nat := evs.countP (fun e => match e with | .dly _ => true | _ => false)

/-- The trace with every DC event deleted that drives the level the line already has (42_panel_controller.md R198). -/
def panelView : LineLevel → List Event → List Event
  | _, [] => []
  | l, .dc b :: es => if l = .ofBool b then panelView l es else .dc b :: panelView (.ofBool b) es
  | l, .tx b :: es => .tx b :: panelView l es
  | l, .rst b :: es => .rst b :: panelView l es
  | l, .dly n :: es => .dly n :: panelView l es
  | l, .busy v :: es => .busy v :: panelView l es

/-- Two traces that the panel cannot tell apart (42_panel_controller.md R198). -/
def PanelEquivalent (a b : List Event) : Prop := panelView .undriven a = panelView .undriven b

/-- One wire command as an implementation sends it that asserts the command/data line before every payload byte
(42_panel_controller.md R198). -/
def perByteCmdEvents (c : Config) (name : CmdName) (payload : List Byte) : List Event :=
  [.dc false, .tx (c.cmd.byte name)] ++ payload.flatMap (fun b => [.dc true, .tx b])

/-- What one poll that answered v is in the refined trace: nothing for PIN, and for SHIFT_REG the pin events of a read
whose bit SR_BUSY_BIT is zero exactly where v says busy (43_busy_status.md R252, R256). -/
def PollRefines (c : Config) (v : Bool) (ps : List PinEvent) : Prop :=
  match c.busySource with
  | .pin => ps = []
  | .shiftReg =>
    ∃ bits : List Bool, bits.length = 8 ∧ ps = shiftRegPins bits ∧ bits[(7 - c.srBusyBit : Nat)]? = some (!v)

/-- A refined trace is the wire trace with each BUSY(v) replaced by the adapter's own events (43_busy_status.md R256). -/
def TraceRefines (c : Config) : List Event → List FineEvent → Prop
  | [], fs => fs = []
  | .busy v :: es, fs => ∃ ps rest, PollRefines c v ps ∧ fs = ps.map .pin ++ rest ∧ TraceRefines c es rest
  | .dc l :: es, fs => ∃ rest, fs = .dc l :: rest ∧ TraceRefines c es rest
  | .tx b :: es, fs => ∃ rest, fs = .tx b :: rest ∧ TraceRefines c es rest
  | .rst l :: es, fs => ∃ rest, fs = .rst l :: rest ∧ TraceRefines c es rest
  | .dly n :: es, fs => ∃ rest, fs = .dly n :: rest ∧ TraceRefines c es rest

/-- The state with another busy adapter fitted, another refined trace so far, and other levels of the line to come. -/
def withAdapter (s : State) (src : BusySource) (lvl : Bool) (levels : List Bool) (draws : Nat) (fs : List FineEvent) :
    State :=
  { s with
    cfg := { s.cfg with busySource := src, busyPinBusyLevel := lvl }
    lineIn := levels
    lineDraws := draws
    refined := fs }

/-! ### What a request leaves -/

/-- The state with the given events sent, the draws they take taken, and nothing else changed. -/
def afterEvents (s : State) (evs : List Event) : State :=
  { s with
    trace := s.trace ++ evs
    dcLevel := lastDc s.dcLevel evs
    rstLevel := lastRst s.rstLevel evs
    xportIn := s.xportIn.drop (failables evs)
    xportDraws := s.xportDraws + failables evs
    lineIn := s.lineIn.drop (polls evs * samplesPerPoll s.cfg)
    lineDraws := s.lineDraws + polls evs * samplesPerPoll s.cfg
    refined := s.refined ++ refineEvents s.pollPins 0 evs }

/-- The response word VVVVVV0S with VALUE and STATUS as numbers (30_encoding.md R96). -/
def rspOf (value status : Nat) : Rsp := BitVec.ofNat 32 (256 * value + status)

/-- The state with one more response, of the VALUE and STATUS given and without data, and nothing else changed. -/
def plusResponse (s : State) (value status : Nat) : State :=
  { s with rsps := s.rsps ++ [⟨rspOf value status, []⟩] }

/-- The state with no request in progress and one more response, with VALUE 0 and the STATUS given. -/
def answered (status : Nat) (s : State) : State :=
  { s with cur := none, stepIx := 0, curLegal := false, rsps := s.rsps ++ [⟨rspOf 0 status, []⟩] }

/-- What a sequencer request leaves that sent the given events and completed (42_panel_controller.md R197): legal says
whether it started in a legal phase, and p is its end phase. -/
def completed (s : State) (evs : List Event) (legal : Bool) (p : Phase) : State :=
  answered 0
    { afterEvents s evs with
      phase := if legal then p else .unknown
      protoErr := s.protoErr || !legal }

/-- What a sequencer request leaves whose last event, of those given, the transport failed (60_exceptions.md R272). -/
def transportFailed (s : State) (evs : List Event) (legal : Bool) : State :=
  answered 2
    { afterEvents s evs with
      phase := .unknown
      xportErr := true
      protoErr := s.protoErr || !legal }

/-- The state whose framebuffer PC_CLEAR_FRAME has filled where CLEAR_FRAME_WRITES_FB says so, and no other request has
changed (42_panel_controller.md R211). -/
def afterFill (op : SeqOp) (s : State) : State :=
  if op = .clearFrame ∧ s.cfg.clearFrameWritesFb = true then s.fillFb (packByte s.bg s.bg) else s

/-- The delay events of one round of a busy-wait that polled busy (42_panel_controller.md R194). -/
def pollDelayEvents (c : Config) : List Event :=
  match c.pollDelayMs with
  | none => []
  | some d => [.dly d]

/-- The events of n rounds of a busy-wait that polled busy (42_panel_controller.md R194). -/
def busyRounds (c : Config) (n : Nat) : List Event := (List.replicate n (.busy true :: pollDelayEvents c)).flatten

/-! ### Invariants -/

/-- The phases a sequencer request holds while it runs (42_panel_controller.md R220); PC_POWER_OFF and PC_SLEEP hold
the phase they started in and never wait. -/
def heldPhases : SeqOp → List Phase
  | .reset => [.reset]
  | .initPanel => [.reset, .initialized]
  | .wakeUp => [.reset, .initialized]
  | .updateFrame => [.updating]
  | .displayFrame => [.displaying]
  | .updateAndDisplayFrame => [.updating, .displaying]
  | .clearFrame => [.updating, .displaying]
  | .powerOff => []
  | .sleep => []

/-- CUR, STEP and PHASE agree: between requests PHASE is a resting phase (10_state.md R36) and STEP and the legality are
clear (log entry 6); a request in progress stands at a busy-wait of its script (10_state.md R32), in a phase it holds,
and one that was not legal has set PROTO_ERR (42_panel_controller.md R197). -/
def ControlOk (s : State) : Prop :=
  match s.cur with
  | none => s.phase.resting = true ∧ s.stepIx = 0 ∧ s.curLegal = false
  | some op =>
    (script op s)[s.stepIx]? = some .waitBusy ∧ s.phase ∈ heldPhases op ∧ (s.curLegal = false → s.protoErr = true)

/-- The recorded line levels are those the trace last drove (10_state.md R39). -/
def LinesMatchTrace (s : State) : Prop :=
  s.dcLevel = lastDc .undriven s.trace ∧ s.rstLevel = lastRst .undriven s.trace

/-- Every byte of the trace was sent with the command/data line driven, and a byte sent with it low is one of the
sixteen wire commands (30_encoding.md R100, R101). -/
def WireOk (s : State) : Prop :=
  ∀ p ∈ taggedBytes .undriven s.trace, p.1 ≠ .undriven ∧ (p.1 = .low → ∃ name : CmdName, p.2 = s.cfg.cmd.byte name)

/-- The invariant of the machine: the configuration defines a machine, the framebuffer is in canonical form, the
control state agrees, and the trace says what the lines and the wire commands do. -/
structure Inv (s : State) : Prop where
  config : s.cfg.wf = true
  memory : Memory.wf s.cfg s.fb
  control : ControlOk s
  lines : LinesMatchTrace s
  wire : WireOk s

end Sys2Proof.Machine
end

