-- ==== Sys2Proof/Certificates/Slice0/Obligations.lean ====
section
/-! DEFINITION. The statements about the model, each a Prop for the provers; OBLIGATIONS.json lists them. -/

open Sys2Proof Sys2Proof.Machine

/-! ### Encoding (30_encoding.md) -/

/-- R90 to R94: decoding the word of a well-formed instruction gives it back, with every operand at every value. -/
def Obligations.DecodeOfEncodeGivesInstructionBack : Prop :=
  ∀ i : Instr, i.wf = true → decode (encode i) = .ok i

/-- R90 to R95: a word that decodes is the word of the instruction it decodes to, which is well formed; so each word
has one meaning and no bit of it is dropped (FROM_CODE's ignored bits A[7:4] included). -/
def Obligations.EncodeOfDecodeGivesWordBack : Prop :=
  ∀ (w : Req) (i : Instr), decode w = .ok i → i.wf = true ∧ encode i = w

/-- R93, R94: the decoder agrees with spec/opcode_table.json's match and mask: a word decodes to a row's operation
exactly where it matches the row, and is refused exactly where it matches none. -/
def Obligations.DecodeAgreesWithMasksOfOpcodeTable : Prop :=
  ∀ w : Req,
    (∀ row ∈ opcodeTable, w &&& row.2.2 = row.2.1 ↔ ∃ i, decode w = .ok i ∧ opOf i = row.1) ∧
    ((∀ row ∈ opcodeTable, w &&& row.2.2 ≠ row.2.1) ↔ ∃ e, decode w = .error e)

/-- R95: which words are illegal and why: an opcode of no row, or a nonzero bit in a zero field of the opcode's format;
and FROM_CODE and UNPACK decode with any A. -/
def Obligations.IllegalEncodingsAreRefusedByName : Prop :=
  (∀ w : Req, decode w = .error .unassignedOpcode ↔
    (fieldOpc w).toNat = 0 ∨ (6 ≤ (fieldOpc w).toNat ∧ (fieldOpc w).toNat ≤ 0x0F) ∨
    (0x14 ≤ (fieldOpc w).toNat ∧ (fieldOpc w).toNat ≤ 0x1F) ∨ (0x2A ≤ (fieldOpc w).toNat ∧ (fieldOpc w).toNat ≤ 0x2F) ∨
    0x32 ≤ (fieldOpc w).toNat) ∧
  (∀ w : Req, decode w = .error .nonzeroField ↔
    ∃ op, fieldOpc w = opcodeOf op ∧ zeroFieldsOk (formatOf op) w = false) ∧
  (∀ a : Byte, decode (reqOf 0x02 a 0 0 0 0) = .ok (.fromCode a) ∧ decode (reqOf 0x04 a 0 0 0 0) = .ok (.unpack a))

/-- R273: with no request in progress, a word that does not decode changes no state of the spec and emits no event: it
is answered ILLEGAL with VALUE 0, and taken from the port (that the port gives it up is the model's choice, log entry
12). -/
def Obligations.IllegalWordIsAnsweredAndChangesNothing : Prop :=
  ∀ (s : State) (w : Req) (rest : List Req) (e : DecodeError), s.cfg.wf = true → s.cur = none → s.reqPort = w :: rest →
    decode w = .error e →
    step s = .next { s with reqPort := rest, rsps := s.rsps ++ [⟨0x00000003, []⟩] }

/-- 95_test_vectors.md: words written out from the encoding decode to the instructions they stand for (a sanity
statement). -/
def Obligations.WordsOfTheSpecDecode : Prop :=
  decode 0x00000000_00000000_00000601 = .ok (.toCode .orange) ∧
  decode 0x00000000_00000000_00001702 = .ok (.fromCode 0x17) ∧
  decode 0x00000000_00000000_00050403 = .ok (.pack .red .yellow) ∧
  decode 0x00000000_00000000_0080FF05 = .ok (.nearest 255 128 0) ∧
  decode 0x00000000_00000000_00000311 = .ok (.fbSetRotation .deg270) ∧
  decode 0xFFFFFFFF_00000003_00000212 = .ok (.fbSetPixel 3 (-1) .green) ∧
  decode 0x00000000_00000000_00000021 = .ok .pcInitialize ∧
  decode 0x00000000_00000000_00000429 = .ok (.pcSetBackground .red) ∧
  decode 0x00000000_00000000_00000031 = .ok .readStatus

/-! ### The step (00_scope.md, 70_reset_and_hazards.md) -/

/-- R3, R32, R94: with no request in progress, a step takes the first word of the port and is exec of the instruction
the word decodes to, the word gone from the port. -/
def Obligations.StepRunsTheDecodedRequest : Prop :=
  ∀ (s : State) (w : Req) (rest : List Req) (i : Instr), s.cfg.wf = true → s.cur = none → s.reqPort = w :: rest →
    decode w = .ok i → step s = exec i { s with reqPort := rest }

/-- R301: with no request in progress and none on the port, the block waits (log entry 7). -/
def Obligations.StepWaitsWithoutRequest : Prop :=
  ∀ s : State, s.cfg.wf = true → s.cur = none → s.reqPort = [] → step s = .next s

/-- R7: a configuration that breaks a constraint is refused. -/
def Obligations.BrokenConfigurationIsRefused : Prop :=
  ∀ s : State,
    (s.cfg.width % 2 = 1 ∨ s.cfg.width = 0 ∨ 65535 < s.cfg.width ∨ s.cfg.height = 0 ∨ 65535 < s.cfg.height ∨
      s.cfg.fbInit.length ≠ s.cfg.width * s.cfg.height / 2 ∨
      ∃ a b : Color, a ≠ b ∧ s.cfg.palette.rgb a = s.cfg.palette.rgb b) →
    step s = .refused .badConfiguration

/-- R270: with a configuration that defines a machine, every step answers a next state; and every instruction does in
every state. -/
def Obligations.NothingStopsTheMachine : Prop :=
  (∀ s : State, s.cfg.wf = true → ∃ t, step s = .next t) ∧ (∀ (i : Instr) (s : State), ∃ t, exec i s = .next t)

/-! ### The colour model (40_color_model.md) -/

/-- R132, R134: TO_CODE answers the fixed 3-bit code, PACK answers (code(high) << 4) | code(low); neither fails, and
neither changes anything but the responses; and the words that spell them. -/
def Obligations.ToCodeAndPackAreTotal : Prop :=
  (∀ (c : Color) (s : State), exec (.toCode c) s = .next (plusResponse s c.code.toNat 0)) ∧
  (∀ (hi lo : Color) (s : State),
    exec (.pack hi lo) s = .next (plusResponse s (16 * hi.code.toNat + lo.code.toNat) 0)) ∧
  (∀ c : Color, decode (reqOf 0x01 (colorByte c) 0 0 0 0) = .ok (.toCode c)) ∧
  (∀ hi lo : Color, decode (reqOf 0x03 (colorByte hi) (colorByte lo) 0 0 0) = .ok (.pack hi lo))

/-- R133: FROM_CODE answers the code of the masked nibble, or OUT_OF_RANGE with the nibble; any A spells it. -/
def Obligations.FromCodeMatchesTheMaskedNibble : Prop :=
  ∀ (a : Byte) (s : State),
    (a.toNat % 16 ≤ 7 → exec (.fromCode a) s = .next (plusResponse s (a.toNat % 16) 0)) ∧
    (8 ≤ a.toNat % 16 → exec (.fromCode a) s = .next (plusResponse s (a.toNat % 16) 1)) ∧
    decode (reqOf 0x02 a 0 0 0 0) = .ok (.fromCode a)

/-- R135: UNPACK answers both codes, or OUT_OF_RANGE with the offending nibble, the high one first; any A spells it. -/
def Obligations.UnpackChecksTheHighNibbleFirst : Prop :=
  ∀ (a : Byte) (s : State),
    (8 ≤ a.toNat / 16 → exec (.unpack a) s = .next (plusResponse s (a.toNat / 16) 1)) ∧
    (a.toNat / 16 ≤ 7 → 8 ≤ a.toNat % 16 → exec (.unpack a) s = .next (plusResponse s (a.toNat % 16) 1)) ∧
    (a.toNat / 16 ≤ 7 → a.toNat % 16 ≤ 7 →
      exec (.unpack a) s = .next (plusResponse s (a.toNat / 16 + 256 * (a.toNat % 16)) 0)) ∧
    decode (reqOf 0x04 a 0 0 0 0) = .ok (.unpack a)

/-- R134, R135: unpack after pack gives the two colours, and pack after unpack gives the byte. -/
def Obligations.PackAndUnpackAreInverse : Prop :=
  (∀ (hi lo : Color) (s : State),
    exec (.unpack (packByte hi lo)) s = .next (plusResponse s (hi.code.toNat + 256 * lo.code.toNat) 0)) ∧
  (∀ a : Byte, a.toNat / 16 ≤ 7 → a.toNat % 16 ≤ 7 →
    ∃ hi lo : Color, packByte hi lo = a ∧
      ∀ s : State, exec (.unpack a) s = .next (plusResponse s (hi.code.toNat + 256 * lo.code.toNat) 0))

/-- R136: NEAREST answers a colour of the configuration's PALETTE at the least distance, and of those the first in
enumeration order; where one colour's triple is the operand exactly, that colour; it never fails; and the word that
spells it. -/
def Obligations.NearestIsFirstAtLeastDistance : Prop :=
  ∀ (r g b : Byte) (s : State),
    decode (reqOf 0x05 r g b 0 0) = .ok (.nearest r g b) ∧
    ∃ k : Color,
      exec (.nearest r g b) s = .next (plusResponse s k.code.toNat 0) ∧
      (∀ c : Color, rgbDist ⟨r, g, b⟩ (s.cfg.palette.rgb k) ≤ rgbDist ⟨r, g, b⟩ (s.cfg.palette.rgb c)) ∧
      (∀ c : Color, c.code.toNat < k.code.toNat →
        rgbDist ⟨r, g, b⟩ (s.cfg.palette.rgb k) < rgbDist ⟨r, g, b⟩ (s.cfg.palette.rgb c)) ∧
      (s.cfg.wf = true → ∀ c : Color, s.cfg.palette.rgb c = ⟨r, g, b⟩ → k = c)

/-- R138: the exact-match clause never changes the result, whatever injective PALETTE the configuration has. -/
def Obligations.ExactMatchClauseIsRedundant : Prop :=
  ∀ (p : Palette) (v : Rgb), (allColors.map p.rgb).Nodup → nearestColor p v = nearestSearch p v

/-! ### The framebuffer (20_memory.md, 41_framebuffer.md) -/

/-- R160: FB_CLEAR overwrites every byte with pack(c, c), answers OK and changes nothing else; and the word that spells
it. -/
def Obligations.ClearOverwritesEveryByte : Prop :=
  ∀ (c : Color) (s : State),
    decode (reqOf 0x10 (colorByte c) 0 0 0 0) = .ok (.fbClear c) ∧
    ∃ t : State,
      exec (.fbClear c) s = .next t ∧
      (∀ i < s.cfg.fbLen, (t.fbByte i).toNat = 17 * c.code.toNat) ∧
      t = plusResponse { s with fb := t.fb } 0 0

/-- R161, R168, R215: FB_SET_ROTATION writes ROT and PC_SET_BACKGROUND writes BG; each answers OK and changes nothing
else: no byte already stored, no event, no phase. -/
def Obligations.SettersWriteOneRegister : Prop :=
  (∀ (r : Rotation) (s : State),
    exec (.fbSetRotation r) s = .next (plusResponse { s with rot := r } 0 0) ∧
    ∀ i, (plusResponse { s with rot := r } 0 0).fbByte i = s.fbByte i) ∧
  (∀ (c : Color) (s : State), exec (.pcSetBackground c) s = .next (plusResponse { s with bg := c } 0 0))

/-- R162, R165: FB_SET_PIXEL in bounds writes one nibble of the byte at pixelIndex: the high one where the native x is
even, the low one where it is odd; the sibling nibble and every other byte are kept, and nothing else changes but the
response OK. -/
def Obligations.SetPixelWritesOneNibble : Prop :=
  ∀ (x y : Int) (c : Color) (s : State), s.cfg.wf = true → inBounds s.cfg s.rot x y = true → ∃ t : State,
    exec (.fbSetPixel x y c) s = .next t ∧
    t = plusResponse { s with fb := t.fb } 0 0 ∧
    (∀ j, j ≠ pixelIndex s x y → t.fbByte j = s.fbByte j) ∧
    (pixelX s x y % 2 = 0 →
      (hiNibble (t.fbByte (pixelIndex s x y))).toNat = c.code.toNat ∧
      loNibble (t.fbByte (pixelIndex s x y)) = loNibble (s.fbByte (pixelIndex s x y))) ∧
    (pixelX s x y % 2 = 1 →
      (loNibble (t.fbByte (pixelIndex s x y))).toNat = c.code.toNat ∧
      hiNibble (t.fbByte (pixelIndex s x y)) = hiNibble (s.fbByte (pixelIndex s x y)))

/-- R163, R274: the bounds clip; a pixel it rejects, and one whose byte index is past the buffer's length, are dropped
with no state change and no event and answered OK. -/
def Obligations.ClippedPixelIsDropped : Prop :=
  ∀ (x y : Int) (c : Color) (s : State),
    (inBounds s.cfg s.rot x y = false ↔
      x < 0 ∨ y < 0 ∨
      ((s.rot = .deg0 ∨ s.rot = .deg180) ∧ (x ≥ s.cfg.width ∨ y ≥ s.cfg.height)) ∨
      ((s.rot = .deg90 ∨ s.rot = .deg270) ∧ (y ≥ s.cfg.width ∨ x ≥ s.cfg.height))) ∧
    (inBounds s.cfg s.rot x y = false → exec (.fbSetPixel x y c) s = .next (plusResponse s 0 0)) ∧
    (s.cfg.fbLen ≤ pixelIndex s x y → exec (.fbSetPixel x y c) s = .next (plusResponse s 0 0))

/-- R61, R164, R70: the native pixel of the caller's coordinates under each rotation, its range, its byte index, and
that under R7 the index is in the buffer. -/
def Obligations.PixelAddressFollowsRotation : Prop :=
  ∀ (x y : Int) (s : State), inBounds s.cfg s.rot x y = true →
    (s.rot = .deg0 → (pixelX s x y : Int) = x ∧ (pixelY s x y : Int) = y) ∧
    (s.rot = .deg90 → (pixelX s x y : Int) = s.cfg.width - 1 - y ∧ (pixelY s x y : Int) = x) ∧
    (s.rot = .deg180 → (pixelX s x y : Int) = s.cfg.width - 1 - x ∧ (pixelY s x y : Int) = s.cfg.height - 1 - y) ∧
    (s.rot = .deg270 → (pixelX s x y : Int) = y ∧ (pixelY s x y : Int) = s.cfg.height - 1 - x) ∧
    pixelX s x y < s.cfg.width ∧ pixelY s x y < s.cfg.height ∧
    pixelIndex s x y = pixelX s x y / 2 + s.cfg.width / 2 * pixelY s x y ∧
    (s.cfg.wf = true → pixelIndex s x y < s.cfg.fbLen)

/-- R169: for each rotation the inverse rotation is a bijection from the in-bounds caller coordinates onto the native
pixels; at 180 degrees it is an involution and exchanges the two corners. -/
def Obligations.NativeIsBijection : Prop :=
  ∀ c : Config,
    (∀ (r : Rotation) (x y : Int), inBounds c r x y = true →
      0 ≤ (native c r x y).1 ∧ (native c r x y).1 < c.width ∧ 0 ≤ (native c r x y).2 ∧ (native c r x y).2 < c.height) ∧
    (∀ (r : Rotation) (nx ny : Nat), nx < c.width → ny < c.height →
      ∃! p : Int × Int, inBounds c r p.1 p.2 = true ∧ native c r p.1 p.2 = ((nx : Int), (ny : Int))) ∧
    (∀ x y : Int, native c .deg180 (native c .deg180 x y).1 (native c .deg180 x y).2 = (x, y)) ∧
    native c .deg180 0 0 = ((c.width : Int) - 1, (c.height : Int) - 1) ∧
    native c .deg180 (c.width - 1) (c.height - 1) = (0, 0)

/-- R62: byte i holds exactly the native pixels (2k, ny) and (2k+1, ny) with k = i mod (WIDTH div 2) and
ny = i div (WIDTH div 2). -/
def Obligations.EveryByteHoldsTwoNativePixels : Prop :=
  ∀ (c : Config) (i : Nat), c.wf = true → i < c.fbLen →
    (∀ nx ny : Nat, nx < c.width → ny < c.height → byteIndex c nx ny < c.fbLen) ∧
    2 * (i % (c.width / 2)) + 1 < c.width ∧ i / (c.width / 2) < c.height ∧
    (∀ nx ny : Nat, nx < c.width → ny < c.height →
      (byteIndex c nx ny = i ↔
        (nx = 2 * (i % (c.width / 2)) ∨ nx = 2 * (i % (c.width / 2)) + 1) ∧ ny = i / (c.width / 2)))

/-- R167: two writes to the same native pixel, by the same coordinates or by others under another rotation: the second
wins, and nothing of the first is left in any byte. -/
def Obligations.LastPixelWriteWins : Prop :=
  ∀ (x y x' y' : Int) (r : Rotation) (c d : Color) (s : State),
    inBounds s.cfg s.rot x y = true → inBounds s.cfg r x' y' = true →
    native s.cfg s.rot x y = native s.cfg r x' y' →
    ∃ t u v : State,
      exec (.fbSetPixel x y c) s = .next t ∧ exec (.fbSetPixel x' y' d) { t with rot := r } = .next u ∧
      exec (.fbSetPixel x' y' d) { s with rot := r } = .next v ∧ ∀ j, u.fbByte j = v.fbByte j

/-- R166, R97: FB_AS_BYTES answers OK with the FB_LEN bytes of the buffer in index order, and changes nothing else. -/
def Obligations.AsBytesExportsTheBuffer : Prop :=
  ∀ s : State, ∃ data : List Byte,
    exec .fbAsBytes s = .next { s with rsps := s.rsps ++ [⟨rspOf 0 0, data⟩] } ∧
    data.length = s.cfg.fbLen ∧ ∀ i < s.cfg.fbLen, data[i]? = some (s.fbByte i)

/-! ### The sequencer (42_panel_controller.md) -/

/-- R205: PC_RESET, when the transport does not fail and the poll answers not-busy. -/
def Obligations.ResetCompletes : Prop :=
  ∀ s : State, TransportOk s 2 → NotBusy s 1 →
    exec .pcReset s = .next (completed s
      [.rst false, .dly s.cfg.tRstLowMs, .rst true, .dly s.cfg.tRstHighMs, .busy false] true .reset)

/-- R206, R200: PC_INITIALIZE, when the transport does not fail and the poll answers not-busy: legal from every phase,
it ends in IDLE. -/
def Obligations.InitializeCompletes : Prop :=
  ∀ s : State,
    TransportOk s (failables (resetEvents s.cfg ++ initEvents s.cfg s.bg)) → NotBusy s 1 →
    exec .pcInitialize s = .next (completed s (resetEvents s.cfg ++ initEvents s.cfg s.bg) true .idle)

/-- R207: PC_WAKE_UP, when the transport does not fail and the poll answers not-busy: the events and the end phase of
PC_INITIALIZE. -/
def Obligations.WakeUpCompletes : Prop :=
  ∀ s : State,
    TransportOk s (failables (resetEvents s.cfg ++ initEvents s.cfg s.bg)) → NotBusy s 1 →
    exec .pcWakeUp s = .next (completed s (resetEvents s.cfg ++ initEvents s.cfg s.bg) true .idle)

/-- R208, R201, R212, R73: PC_UPDATE_FRAME, when the transport does not fail and the poll answers not-busy: the frame
sent is FB as it stood. -/
def Obligations.UpdateFrameCompletes : Prop :=
  ∀ s : State,
    TransportOk s (failables (updateEvents s.cfg s.bg s.fbBytes)) → NotBusy s 1 →
    exec .pcUpdateFrame s =
      .next (completed s (updateEvents s.cfg s.bg s.fbBytes) (decide (s.phase = .idle)) .idle)

/-- R209, R202: PC_DISPLAY_FRAME, when the transport does not fail and its four polls answer not-busy. -/
def Obligations.DisplayFrameCompletes : Prop :=
  ∀ s : State, TransportOk s 6 → NotBusy s 4 →
    exec .pcDisplayFrame s = .next (completed s
      [.busy false, .dc false, .tx s.cfg.cmd.pon, .busy false, .dc false, .tx s.cfg.cmd.drf, .busy false, .dc false,
        .tx s.cfg.cmd.pof, .busy false] (decide (s.phase = .idle)) .idle)

/-- R210: PC_UPDATE_AND_DISPLAY_FRAME, when the transport does not fail and its five polls answer not-busy: the events
of PC_UPDATE_FRAME and then those of PC_DISPLAY_FRAME. -/
def Obligations.UpdateAndDisplayFrameCompletes : Prop :=
  ∀ s : State,
    TransportOk s (failables (updateEvents s.cfg s.bg s.fbBytes) + 6) → NotBusy s 5 →
    exec .pcUpdateAndDisplayFrame s = .next (completed s
      (updateEvents s.cfg s.bg s.fbBytes ++ refreshEvents s.cfg) (decide (s.phase = .idle)) .idle)

/-- R211: PC_CLEAR_FRAME, when the transport does not fail and its five polls answer not-busy: the frame sent is
pack(BG, BG) FB_LEN times, and FB is filled with it exactly where CLEAR_FRAME_WRITES_FB says so. -/
def Obligations.ClearFrameCompletes : Prop :=
  ∀ s : State,
    TransportOk s (failables (updateEvents s.cfg s.bg (List.replicate s.cfg.fbLen (packByte s.bg s.bg))) + 6) →
    NotBusy s 5 →
    exec .pcClearFrame s = .next (completed
      (if s.cfg.clearFrameWritesFb = true then s.fillFb (packByte s.bg s.bg) else s)
      (updateEvents s.cfg s.bg (List.replicate s.cfg.fbLen (packByte s.bg s.bg)) ++ refreshEvents s.cfg)
      (decide (s.phase = .idle)) .idle)

/-- R213, R214, R103: PC_POWER_OFF sends its command and no payload, PC_SLEEP the deep-sleep command and the check byte
0xA5 once, when the transport does not fail; neither waits. -/
def Obligations.PowerOffAndSleepComplete : Prop :=
  ∀ s : State,
    (TransportOk s 2 →
      exec .pcPowerOff s =
        .next (completed s [.dc false, .tx s.cfg.cmd.pof] (decide (s.phase = .idle)) .powerOff)) ∧
    (TransportOk s 4 →
      exec .pcSleep s =
        .next (completed s [.dc false, .tx s.cfg.cmd.dslp, .dc true, .tx 0xA5] (decide (s.phase = .idle)) .asleep))

/-- R203, R204: the Vcom byte of each background, by formula and by table, and the resolution payload, high byte first
and width first. -/
def Obligations.ComputedPayloads : Prop :=
  (∀ c : Color, (vcom c).toNat = 0x17 + 32 * c.code.toNat) ∧
  allColors.map vcom = [0x17, 0x37, 0x57, 0x77, 0x97, 0xB7, 0xD7, 0xF7] ∧
  (∀ c : Config, c.wf = true →
    (resBytes c).map BitVec.toNat = [c.width / 256, c.width % 256, c.height / 256, c.height % 256])

/-- R200, R193: the command bytes of PC_INITIALIZE and PC_WAKE_UP in order, each sent with DC low, and the payload
bytes, each sent with DC high, when the transport does not fail and the poll answers not-busy. -/
def Obligations.InitializeSendsTheCommandListInOrder : Prop :=
  ∀ (s : State) (i : Instr), i = .pcInitialize ∨ i = .pcWakeUp →
    TransportOk s (failables (resetEvents s.cfg ++ initEvents s.cfg s.bg)) → NotBusy s 1 →
    ∃ (t : State) (evs : List Event), exec i s = .next t ∧ t.trace = s.trace ++ evs ∧
      commandBytes evs = [s.cfg.cmd.psr, s.cfg.cmd.pwr, s.cfg.cmd.pfs, s.cfg.cmd.btst, s.cfg.cmd.pll, s.cfg.cmd.tse,
        s.cfg.cmd.cdi, s.cfg.cmd.tcon, s.cfg.cmd.tres, s.cfg.cmd.flash, s.cfg.cmd.cdi] ∧
      payloadBytes evs = s.cfg.initPayload.psr ++ s.cfg.initPayload.pwr ++ s.cfg.initPayload.pfs ++
        s.cfg.initPayload.btst ++ s.cfg.initPayload.pll ++ s.cfg.initPayload.tse ++ [vcom s.bg] ++
        s.cfg.initPayload.tcon ++ resBytes s.cfg ++ s.cfg.initPayload.flash ++ [vcom s.bg]

/-- R216: how many command bytes, payload bytes, BUSY events and DLY events each sequencer request sends, when nothing
fails and every poll answers not-busy. -/
def Obligations.EventCountsPerRequest : Prop :=
  ∀ (op : SeqOp) (s : State),
    TransportOk s (failables (opEvents op s)) → NotBusy s (polls (opEvents op s)) →
    ∃ (t : State) (evs : List Event), exec op.instr s = .next t ∧ t.trace = s.trace ++ evs ∧
      ((commandBytes evs).length, (payloadBytes evs).length, polls evs, delays evs) =
        match op with
        | .reset => (0, 0, 1, 2)
        | .initPanel | .wakeUp =>
          (11, s.cfg.initPayload.psr.length + s.cfg.initPayload.pwr.length + s.cfg.initPayload.pfs.length +
            s.cfg.initPayload.btst.length + s.cfg.initPayload.pll.length + s.cfg.initPayload.tse.length +
            s.cfg.initPayload.tcon.length + s.cfg.initPayload.flash.length + 6, 1, 2)
        | .updateFrame => (4, 5 + s.cfg.fbLen, 1, 0)
        | .displayFrame => (3, 0, 4, 0)
        | .updateAndDisplayFrame | .clearFrame => (7, 5 + s.cfg.fbLen, 5, 0)
        | .powerOff => (1, 0, 0, 0)
        | .sleep => (1, 1, 0, 0)

/-- R272, R191: a sequencer request whose k-th failable event (counting from 0) the transport fails, after polls that
answered not-busy, has sent exactly the events up to that one, leaves PHASE UNKNOWN and XPORT_ERR set, and answers
TRANSPORT_ERROR; nothing is rolled back. The same of a request held at a busy-wait that polls busy n times more and
whose k-th failable event from there fails (log entry 4 fixes what one step performs). -/
def Obligations.TransportErrorEndsTheRequest : Prop :=
  (∀ (op : SeqOp) (s : State) (k : Nat), k < failables (opEvents op s) → TransportOk s k → s.xportAnswer k = false →
    NotBusy s (polls (upToFailable k (opEvents op s))) →
    exec op.instr s =
      .next (transportFailed (afterFill op s) (upToFailable k (opEvents op s)) (legalFrom op s.phase))) ∧
  (∀ (op : SeqOp) (s : State) (n k : Nat), HeldAt op s → k < failables (remainingEvents op s) → TransportOk s k →
    s.xportAnswer k = false → StaysBusy s n →
    (∀ j < polls (upToFailable k (remainingEvents op s)), s.pollAnswer (n + j) = false) →
    Sys2Proof.core.run (n + 1) s =
      .next (answered 2
        { afterEvents s (busyRounds s.cfg n ++ upToFailable k (remainingEvents op s)) with
          phase := .unknown
          xportErr := true }))

/-- R194, R277: while the polls answer busy, a request in progress never responds, for as many steps as one likes (log
entry 4 fixes what one step performs). -/
def Obligations.BusyForeverHangs : Prop :=
  ∀ (n : Nat) (op : SeqOp) (s : State), HeldAt op s → StaysBusy s n →
    Sys2Proof.core.run n s = .next (afterEvents s (busyRounds s.cfg n))

/-- R194, R196, R32: a request that meets no failure and no busy answer before a busy-wait, and polls busy there, has
sent exactly the events before it, that poll and its delay, and stands at it with no response: PC_DISPLAY_FRAME at its
first busy-wait, in DISPLAYING; every request taken; and every request in progress that goes on from STEP (log entries 4
and 5). -/
def Obligations.RequestWaitsAtABusyPoll : Prop :=
  (∀ s : State, s.pollAnswer 0 = true →
    exec .pcDisplayFrame s =
      .next { afterEvents s (.busy true :: pollDelayEvents s.cfg) with
        phase := .displaying
        cur := some .displayFrame
        stepIx := 1
        curLegal := decide (s.phase = .idle)
        protoErr := s.protoErr || decide (s.phase ≠ .idle) }) ∧
  (∀ (op : SeqOp) (s : State) (es rest : List Elem), script op s = es ++ .waitBusy :: rest →
    TransportOk s (failables (elemEvents es)) → NotBusy s (polls (elemEvents es)) →
    s.pollAnswer (polls (elemEvents es)) = true →
    exec op.instr s =
      .next { afterEvents (afterFill op s) (elemEvents es ++ .busy true :: pollDelayEvents s.cfg) with
        phase := phaseAfter s.phase es
        cur := some op
        stepIx := es.length
        curLegal := legalFrom op s.phase
        protoErr := s.protoErr || !legalFrom op s.phase }) ∧
  (∀ (op : SeqOp) (s : State) (es rest : List Elem), HeldAt op s → (script op s).drop s.stepIx = es ++ .waitBusy :: rest →
    TransportOk s (failables (elemEvents es)) → NotBusy s (polls (elemEvents es)) →
    s.pollAnswer (polls (elemEvents es)) = true →
    step s =
      .next { afterEvents s (elemEvents es ++ .busy true :: pollDelayEvents s.cfg) with
        phase := phaseAfter s.phase es
        stepIx := s.stepIx + es.length })

/-- R194, R196, R197, R320: a request held at a busy-wait that polls busy n times more and then, there and at every
busy-wait behind it, not-busy, and that meets no failure, completes in n + 1 steps: it goes on from STEP, sends exactly
the events that remain, ends in its end phase where it started in a legal phase and in UNKNOWN where it did not, and
answers OK. And PC_RESET (R205) from the port, with every poll and delay in its trace (log entries 4 to 6). -/
def Obligations.RequestCompletesAfterBusyAnswers : Prop :=
  (∀ (op : SeqOp) (s : State) (n : Nat), HeldAt op s → TransportOk s (failables (remainingEvents op s)) →
    StaysBusy s n → (∀ j < polls (remainingEvents op s), s.pollAnswer (n + j) = false) →
    Sys2Proof.core.run (n + 1) s =
      .next (answered 0
        { afterEvents s (busyRounds s.cfg n ++ remainingEvents op s) with
          phase := if s.curLegal then endPhase op else .unknown })) ∧
  (∀ (n : Nat) (s : State) (rest : List Req), s.cfg.wf = true → s.cur = none → s.reqPort = encode .pcReset :: rest →
    TransportOk s 2 → StaysBusy s n → s.pollAnswer n = false →
    Sys2Proof.core.run (n + 1) s =
      .next (completed { s with reqPort := rest }
        ([.rst false, .dly s.cfg.tRstLowMs, .rst true, .dly s.cfg.tRstHighMs] ++ busyRounds s.cfg n ++ [.busy false])
        true .reset))

/-- R197, R221: which phases a sequencer request is legal from; one started elsewhere sets PROTO_ERR (and no other
does), and, when it is over, leaves UNKNOWN: in the step that takes it, and in a later step where it waited (curLegal
remembers that it was not legal, log entry 5). -/
def Obligations.ProtocolViolationIsRecorded : Prop :=
  (∀ (op : SeqOp) (s t : State), exec op.instr s = .next t →
    (t.protoErr = true ↔
      s.protoErr = true ∨ (op ≠ .reset ∧ op ≠ .initPanel ∧ op ≠ .wakeUp ∧ s.phase ≠ .idle)) ∧
    (op ≠ .reset ∧ op ≠ .initPanel ∧ op ≠ .wakeUp ∧ s.phase ≠ .idle → t.cur = none → t.phase = .unknown) ∧
    (t.cur = some op → (t.curLegal = false ↔
      op ≠ .reset ∧ op ≠ .initPanel ∧ op ≠ .wakeUp ∧ s.phase ≠ .idle))) ∧
  (∀ (op : SeqOp) (s t : State), s.cur = some op → s.curLegal = false → step s = .next t →
    t.protoErr = s.protoErr ∧
    ((t.cur = none ∧ t.phase = .unknown) ∨ (t.cur = some op ∧ t.curLegal = false)))

/-- R197, R275: the sequencer never refuses a request because of the phase: from another phase, the same events are
sent, the same responses given and the same lines, framebuffer and draws left. -/
def Obligations.PhaseChangesOnlyTheRecord : Prop :=
  ∀ (op : SeqOp) (s : State) (p : Phase), ∃ t u : State,
    exec op.instr s = .next t ∧ exec op.instr { s with phase := p } = .next u ∧
    u = { t with phase := u.phase, protoErr := u.protoErr, curLegal := u.curLegal }

/-- R207: PC_WAKE_UP does what PC_INITIALIZE does in every state, whatever the transport and the polls answer; only the
name in CUR differs while it waits. -/
def Obligations.WakeUpIsInitialize : Prop :=
  ∀ s : State, ∃ t : State,
    exec .pcInitialize s = .next t ∧ exec .pcWakeUp s = .next { t with cur := t.cur.map (fun _ => .wakeUp) }

/-- R211: whatever the transport and the polls answer, the events of PC_CLEAR_FRAME are those of
PC_UPDATE_AND_DISPLAY_FRAME run on a framebuffer filled with pack(BG, BG). -/
def Obligations.ClearFrameIsUpdateAndDisplayOfFilled : Prop :=
  ∀ s : State, ∃ t u : State,
    exec .pcClearFrame s = .next t ∧ exec .pcUpdateAndDisplayFrame (s.fillFb (packByte s.bg s.bg)) = .next u ∧
    t.trace = u.trace ∧ t.refined = u.refined ∧ t.phase = u.phase ∧ t.rsps = u.rsps ∧ t.xportErr = u.xportErr

/-- R41, R302, R272: what a sequencer request leaves alone, whatever the transport and the polls answer; and the fill
of PC_CLEAR_FRAME, which stands even where an error aborts the request. -/
def Obligations.SequencerFrame : Prop :=
  ∀ (op : SeqOp) (s t : State), exec op.instr s = .next t →
    t.rot = s.rot ∧ t.bg = s.bg ∧ t.cfg = s.cfg ∧ t.reqPort = s.reqPort ∧
    (s.xportErr = true → t.xportErr = true) ∧ (s.protoErr = true → t.protoErr = true) ∧
    s.trace <+: t.trace ∧ s.refined <+: t.refined ∧
    (op ≠ .clearFrame ∨ s.cfg.clearFrameWritesFb = false → ∀ i, t.fbByte i = s.fbByte i) ∧
    (op = .clearFrame → s.cfg.clearFrameWritesFb = true →
      ∀ i < s.cfg.fbLen, t.fbByte i = packByte s.bg s.bg)

/-- R198: an implementation that asserts the command/data line before every payload byte sends, command by command, a
trace the panel cannot tell from the model's. -/
def Obligations.PerByteAssertionIsPanelEquivalent : Prop :=
  ∀ (c : Config) (name : CmdName) (payload : List Byte) (before after : List Event),
    PanelEquivalent (before ++ perByteCmdEvents c name payload ++ after) (before ++ cmdEvents c name payload ++ after)

/-! ### Observation (43_busy_status.md) -/

/-- R254, R251, R192: IS_BUSY with the PIN adapter: one sample, busy where the pin is at its busy level, one BUSY event,
and nothing in its place in the refined trace; it never waits and changes nothing else. -/
def Obligations.IsBusyReadsThePin : Prop :=
  ∀ s : State, s.cfg.busySource = .pin →
    exec .isBusy s =
      .next { plusResponse s (s.lineAnswer 0 == s.cfg.busyPinBusyLevel).toNat 0 with
        trace := s.trace ++ [.busy (s.lineAnswer 0 == s.cfg.busyPinBusyLevel)]
        lineIn := s.lineIn.drop 1
        lineDraws := s.lineDraws + 1 }

/-- R254, R252, R192: IS_BUSY with the SHIFT_REG adapter: the latch low then high, eight samples with a clock pulse
each, most significant bit first, which the refined trace has; with SR_BUSY_BIT = 7, busy is a zero in the first sample. -/
def Obligations.IsBusyReadsTheShiftRegister : Prop :=
  ∀ s : State, s.cfg.busySource = .shiftReg → s.cfg.srBusyBit = 7 →
    exec .isBusy s =
      .next { plusResponse s (!(s.lineAnswer 0)).toNat 0 with
        trace := s.trace ++ [.busy (!(s.lineAnswer 0))]
        refined := s.refined ++ [PinEvent.lat false, .lat true,
          .sample (s.lineAnswer 0), .clk true, .clk false, .sample (s.lineAnswer 1), .clk true, .clk false,
          .sample (s.lineAnswer 2), .clk true, .clk false, .sample (s.lineAnswer 3), .clk true, .clk false,
          .sample (s.lineAnswer 4), .clk true, .clk false, .sample (s.lineAnswer 5), .clk true, .clk false,
          .sample (s.lineAnswer 6), .clk true, .clk false, .sample (s.lineAnswer 7), .clk true, .clk false].map .pin
        lineIn := s.lineIn.drop 8
        lineDraws := s.lineDraws + 8 }

/-- R256: the refined trace is the wire trace with each BUSY(v) replaced by the adapter's own events, nothing for PIN and
for SHIFT_REG the pin events of a read from which v is computed: after block reset, and kept by every step. And both
levels of detail give the same semantics: with another adapter, other levels and another refined trace, but the same
answers to the polls of a step (five at most), a step does the same to everything else. -/
def Obligations.RefinedTraceReplacesEachPoll : Prop :=
  (∀ c : Config, TraceRefines c (State.resetWith c).trace (State.resetWith c).refined) ∧
  (∀ s t : State, TraceRefines s.cfg s.trace s.refined → step s = .next t → TraceRefines t.cfg t.trace t.refined) ∧
  (∀ (s t : State) (src : BusySource) (lvl : Bool) (levels : List Bool) (draws : Nat) (fs : List FineEvent),
    (∀ k < 5, (withAdapter s src lvl levels draws fs).pollAnswer k = s.pollAnswer k) → step s = .next t →
    ∃ u : State, step (withAdapter s src lvl levels draws fs) = .next u ∧
      u = withAdapter t src lvl u.lineIn u.lineDraws u.refined)

/-- R255, R40: READ_STATUS answers STATUS_WORD[9:0] and changes nothing else. -/
def Obligations.ReadStatusAnswersTheStatusWord : Prop :=
  ∀ s : State,
    exec .readStatus s =
      .next (plusResponse s (s.phase.code.toNat + 8 * s.rot.code.toNat + 32 * s.bg.code.toNat +
        256 * s.protoErr.toNat + 512 * s.xportErr.toNat) 0)

/-! ### The whole machine -/

/-- Every step keeps the machine's invariant: the configuration, the canonical framebuffer, the agreement of CUR, STEP
and PHASE (10_state.md R36), the recorded line levels (R39) and the wire discipline (30_encoding.md R100, R101). -/
def Obligations.StepKeepsInvariant : Prop :=
  ∀ s t : State, Inv s → step s = .next t → Inv t

/-- Block reset leaves the invariant, for every configuration that defines a machine. -/
def Obligations.ResetHasInvariant : Prop :=
  (∀ c : Config, c.wf = true → Inv (.resetWith c)) ∧ Inv State.reset

/-- R42: the state after block reset, for every configuration; STEP is 0 and FB reads FB_INIT. -/
def Obligations.BlockResetValues : Prop :=
  ∀ c : Config,
    (State.resetWith c).rot.code = 0 ∧ (State.resetWith c).bg = c.bgInit ∧ (State.resetWith c).phase.code = 0 ∧
    (State.resetWith c).protoErr = false ∧ (State.resetWith c).xportErr = false ∧
    (State.resetWith c).dcLevel = .undriven ∧ (State.resetWith c).rstLevel = .undriven ∧
    (State.resetWith c).cur = none ∧ (State.resetWith c).stepIx = 0 ∧ (State.resetWith c).trace = [] ∧
    (c.wf = true → (State.resetWith c).fbBytes = c.fbInit)

/-- R37, R38: no step clears a sticky bit; a step that sets PROTO_ERR took a sequencer request in a phase other than
IDLE; and a step that sets XPORT_ERR ended its request in a TransportError. -/
def Obligations.StickyBitsStaySet : Prop :=
  ∀ s t : State, step s = .next t →
    (s.protoErr = true → t.protoErr = true) ∧ (s.xportErr = true → t.xportErr = true) ∧
    (s.protoErr = false → t.protoErr = true →
      s.cur = none ∧ s.phase ≠ .idle ∧
        ∃ (w : Req) (rest : List Req) (op : SeqOp), s.reqPort = w :: rest ∧ decode w = .ok op.instr) ∧
    (s.xportErr = false → t.xportErr = true →
      t.cur = none ∧ t.phase = .unknown ∧ t.rsps = s.rsps ++ [⟨0x00000002, []⟩])

/-- R30, R72, R190: no step changes the configuration, an event of either trace already sent, or a response already given. -/
def Obligations.HistoryIsNeverRewritten : Prop :=
  ∀ s t : State, step s = .next t →
    t.cfg = s.cfg ∧ s.trace <+: t.trace ∧ s.refined <+: t.refined ∧ s.rsps <+: t.rsps

/-- R3, R312: no request is taken from the port while one is in progress, and a step answers at most one response, and
none where the request stays in progress. -/
def Obligations.OneRequestAtATime : Prop :=
  ∀ (op : SeqOp) (s t : State), s.cur = some op → step s = .next t →
    t.reqPort = s.reqPort ∧
    ((t.cur = none ∧ ∃ r, t.rsps = s.rsps ++ [r]) ∨ (t.cur = some op ∧ t.rsps = s.rsps))

/-- R270: a request either responds exactly once, or is a sequencer request that waits at a poll with no response. -/
def Obligations.RequestRespondsOnceOrWaits : Prop :=
  ∀ (i : Instr) (s t : State), s.cur = none → exec i s = .next t →
    (t.cur = none ∧ ∃ r, t.rsps = s.rsps ++ [r]) ∨
    (∃ op, i = SeqOp.instr op ∧ t.cur = some op ∧ t.rsps = s.rsps)

/-- R96: every response of a run has zero in bits [7:4] and a status of 0 to 3. -/
def Obligations.ResponsesKeepTheirLayout : Prop :=
  ∀ s t : State, step s = .next t →
    (∀ r ∈ s.rsps, r.word.extractLsb' 4 4 = 0 ∧ (r.word.extractLsb' 0 4).toNat ≤ 3) →
    ∀ r ∈ t.rsps, r.word.extractLsb' 4 4 = 0 ∧ (r.word.extractLsb' 0 4).toNat ≤ 3

/-- R41: which requests change the framebuffer, ROT, BG, the control state and the lines, and the trace. -/
def Obligations.AccessMatrix : Prop :=
  ∀ (i : Instr) (s t : State), exec i s = .next t →
    (t.fb ≠ s.fb → (∃ c, i = .fbClear c) ∨ (∃ x y c, i = .fbSetPixel x y c) ∨
      (i = .pcClearFrame ∧ s.cfg.clearFrameWritesFb = true)) ∧
    (t.rot ≠ s.rot → ∃ r, i = .fbSetRotation r) ∧
    (t.bg ≠ s.bg → ∃ c, i = .pcSetBackground c) ∧
    (t.phase ≠ s.phase ∨ t.protoErr ≠ s.protoErr ∨ t.xportErr ≠ s.xportErr ∨ t.dcLevel ≠ s.dcLevel ∨
      t.rstLevel ≠ s.rstLevel ∨ t.cur ≠ s.cur → ∃ op, i = SeqOp.instr op) ∧
    (t.trace ≠ s.trace → i = .isBusy ∨ ∃ op, i = SeqOp.instr op) ∧
    t.reqPort = s.reqPort ∧ t.cfg = s.cfg

/-- R222, R220, R221: PHASE becomes IDLE only in a step that ends a request in progress which started in a legal phase
(curLegal remembers it, log entry 5) and whose end phase is IDLE, or that takes PC_INITIALIZE or PC_WAKE_UP from the
port. -/
def Obligations.IdleIsReachedOnlyByALegalRequest : Prop :=
  ∀ s t : State, Inv s → step s = .next t → s.phase ≠ .idle → t.phase = .idle →
    (∃ op, s.cur = some op ∧ s.curLegal = true ∧ endPhase op = .idle) ∨
    (s.cur = none ∧ ∃ (w : Req) (rest : List Req),
      s.reqPort = w :: rest ∧ (decode w = .ok .pcInitialize ∨ decode w = .ok .pcWakeUp))
end

