-- ==== Sys2Proof/Laws/Encoding.lean ====
section
/-! SUPPORT. The fields of a word made of fields, and that operand bytes and opcodes are read back as they were written. -/

namespace Sys2Proof

/-- Bit i of the word made of the six fields. -/
theorem reqOf_getLsbD (o a b c : Byte) (x y : BitVec 32) (i : Nat) :
    (reqOf o a b c x y).getLsbD i =
      if i < 8 then o.getLsbD i else if i < 16 then a.getLsbD (i - 8) else if i < 24 then b.getLsbD (i - 16)
      else if i < 32 then c.getLsbD (i - 24) else if i < 64 then x.getLsbD (i - 32) else y.getLsbD (i - 64) := by
  have h1 := BitVec.getLsbD_append (x := (y ++ x ++ c ++ b ++ a : BitVec (32 + 32 + 8 + 8 + 8))) (y := o) (i := i)
  have h2 := BitVec.getLsbD_append (x := (y ++ x ++ c ++ b : BitVec (32 + 32 + 8 + 8))) (y := a) (i := i - 8)
  have h3 := BitVec.getLsbD_append (x := (y ++ x ++ c : BitVec (32 + 32 + 8))) (y := b) (i := i - 8 - 8)
  have h4 := BitVec.getLsbD_append (x := (y ++ x : BitVec (32 + 32))) (y := c) (i := i - 8 - 8 - 8)
  have h5 := BitVec.getLsbD_append (x := y) (y := x) (i := i - 8 - 8 - 8 - 8)
  refine h1.trans ?_
  rw [h2, h3, h4, h5]
  simp only [Nat.sub_sub, Nat.reduceAdd]
  split_ifs <;> first | rfl | omega

section
variable (o a b c : Byte) (x y : BitVec 32)

@[simp] theorem fieldOpc_reqOf : fieldOpc (reqOf o a b c x y) = o := by
  refine BitVec.eq_of_getLsbD_eq fun i hi => ?_
  simp [fieldOpc, reqOf_getLsbD, hi]

@[simp] theorem fieldA_reqOf : fieldA (reqOf o a b c x y) = a := by
  refine BitVec.eq_of_getLsbD_eq fun i hi => ?_
  have h : 8 + i < 16 := by omega
  simp [fieldA, reqOf_getLsbD, hi, h]

@[simp] theorem fieldB_reqOf : fieldB (reqOf o a b c x y) = b := by
  refine BitVec.eq_of_getLsbD_eq fun i hi => ?_
  have h1 : ¬ 16 + i < 8 := by omega
  have h2 : ¬ 16 + i < 16 := by omega
  have h : 16 + i < 24 := by omega
  simp [fieldB, reqOf_getLsbD, hi, h, h1]

@[simp] theorem fieldC_reqOf : fieldC (reqOf o a b c x y) = c := by
  refine BitVec.eq_of_getLsbD_eq fun i hi => ?_
  have h1 : ¬ 24 + i < 8 := by omega
  have h2 : ¬ 24 + i < 16 := by omega
  have h : 24 + i < 32 := by omega
  simp [fieldC, reqOf_getLsbD, hi, h, h1, h2]

@[simp] theorem fieldX_reqOf : fieldX (reqOf o a b c x y) = x := by
  refine BitVec.eq_of_getLsbD_eq fun i hi => ?_
  have h1 : ¬ 32 + i < 8 := by omega
  have h2 : ¬ 32 + i < 16 := by omega
  have h3 : ¬ 32 + i < 24 := by omega
  have h : 32 + i < 64 := by omega
  simp [fieldX, reqOf_getLsbD, hi, h, h1, h2, h3]

@[simp] theorem fieldY_reqOf : fieldY (reqOf o a b c x y) = y := by
  refine BitVec.eq_of_getLsbD_eq fun i hi => ?_
  have h1 : ¬ 64 + i < 8 := by omega
  have h2 : ¬ 64 + i < 16 := by omega
  have h3 : ¬ 64 + i < 24 := by omega
  have h4 : ¬ 64 + i < 32 := by omega
  simp [fieldY, reqOf_getLsbD, hi, h1, h2, h3, h4]

end

/-- A request word is what its six fields make. -/
theorem reqOf_fields (w : Req) : reqOf (fieldOpc w) (fieldA w) (fieldB w) (fieldC w) (fieldX w) (fieldY w) = w := by
  refine BitVec.eq_of_getLsbD_eq fun i hi => ?_
  rw [reqOf_getLsbD]
  simp only [fieldOpc, fieldA, fieldB, fieldC, fieldX, fieldY, BitVec.getLsbD_extractLsb']
  split_ifs with h1 h2 h3 h4 h5
  · simp [h1]
  · rw [show 8 + (i - 8) = i by omega]; simp; omega
  · rw [show 16 + (i - 16) = i by omega]; simp; omega
  · rw [show 24 + (i - 24) = i by omega]; simp; omega
  · rw [show 32 + (i - 32) = i by omega]; simp; omega
  · rw [show 64 + (i - 64) = i by omega]; simp; omega

@[simp] theorem colorOperand_colorByte (c : Color) : colorOperand (colorByte c) = c := by cases c <;> rfl

@[simp] theorem rotationOperand_rotationByte (r : Rotation) : rotationOperand (rotationByte r) = r := by cases r <;> rfl

theorem colorByte_high (c : Color) : (colorByte c).extractLsb' 3 5 = 0 := by cases c <;> rfl

theorem rotationByte_high (r : Rotation) : (rotationByte r).extractLsb' 2 6 = 0 := by cases r <;> rfl

/-- Looking up an operation's own opcode finds it: no two rows of the opcode map share one. -/
theorem lookupOp_opcodeOf (op : Op) : lookupOp (opcodeOf op) = some op := by cases op <;> rfl

@[simp] theorem code_ofCode (k : BitVec 3) : (Color.ofCode k).code = k := by
  revert k; decide

@[simp] theorem ofCode_code (c : Color) : Color.ofCode c.code = c := by cases c <;> rfl

end Sys2Proof
end

