-- ==== Sys2Proof/Laws/State.lean ====
section
/-! SUPPORT. One lemma per field for each named update of State, so that no later proof unfolds a record update. -/

namespace Sys2Proof.Machine

/-! ### respondData -/

section
variable (st : Status) (v : BitVec 24) (d : List Byte) (s : State)

@[simp] theorem respondData_fb : (respondData st v d s).fb = s.fb := rfl
@[simp] theorem respondData_rot : (respondData st v d s).rot = s.rot := rfl
@[simp] theorem respondData_bg : (respondData st v d s).bg = s.bg := rfl
@[simp] theorem respondData_phase : (respondData st v d s).phase = s.phase := rfl
@[simp] theorem respondData_protoErr : (respondData st v d s).protoErr = s.protoErr := rfl
@[simp] theorem respondData_xportErr : (respondData st v d s).xportErr = s.xportErr := rfl
@[simp] theorem respondData_dcLevel : (respondData st v d s).dcLevel = s.dcLevel := rfl
@[simp] theorem respondData_rstLevel : (respondData st v d s).rstLevel = s.rstLevel := rfl
@[simp] theorem respondData_cur : (respondData st v d s).cur = s.cur := rfl
@[simp] theorem respondData_stepIx : (respondData st v d s).stepIx = s.stepIx := rfl
@[simp] theorem respondData_curLegal : (respondData st v d s).curLegal = s.curLegal := rfl
@[simp] theorem respondData_reqPort : (respondData st v d s).reqPort = s.reqPort := rfl
@[simp] theorem respondData_rsps : (respondData st v d s).rsps = s.rsps ++ [⟨respWord st v, d⟩] := rfl
@[simp] theorem respondData_trace : (respondData st v d s).trace = s.trace := rfl
@[simp] theorem respondData_refined : (respondData st v d s).refined = s.refined := rfl
@[simp] theorem respondData_xportIn : (respondData st v d s).xportIn = s.xportIn := rfl
@[simp] theorem respondData_xportDraws : (respondData st v d s).xportDraws = s.xportDraws := rfl
@[simp] theorem respondData_lineIn : (respondData st v d s).lineIn = s.lineIn := rfl
@[simp] theorem respondData_lineDraws : (respondData st v d s).lineDraws = s.lineDraws := rfl
@[simp] theorem respondData_cfg : (respondData st v d s).cfg = s.cfg := rfl

end

/-! ### respond -/

section
variable (st : Status) (v : BitVec 24) (s : State)

@[simp] theorem respond_fb : (respond st v s).fb = s.fb := rfl
@[simp] theorem respond_rot : (respond st v s).rot = s.rot := rfl
@[simp] theorem respond_bg : (respond st v s).bg = s.bg := rfl
@[simp] theorem respond_phase : (respond st v s).phase = s.phase := rfl
@[simp] theorem respond_protoErr : (respond st v s).protoErr = s.protoErr := rfl
@[simp] theorem respond_xportErr : (respond st v s).xportErr = s.xportErr := rfl
@[simp] theorem respond_dcLevel : (respond st v s).dcLevel = s.dcLevel := rfl
@[simp] theorem respond_rstLevel : (respond st v s).rstLevel = s.rstLevel := rfl
@[simp] theorem respond_cur : (respond st v s).cur = s.cur := rfl
@[simp] theorem respond_stepIx : (respond st v s).stepIx = s.stepIx := rfl
@[simp] theorem respond_curLegal : (respond st v s).curLegal = s.curLegal := rfl
@[simp] theorem respond_reqPort : (respond st v s).reqPort = s.reqPort := rfl
@[simp] theorem respond_rsps : (respond st v s).rsps = s.rsps ++ [⟨respWord st v, []⟩] := rfl
@[simp] theorem respond_trace : (respond st v s).trace = s.trace := rfl
@[simp] theorem respond_refined : (respond st v s).refined = s.refined := rfl
@[simp] theorem respond_xportIn : (respond st v s).xportIn = s.xportIn := rfl
@[simp] theorem respond_xportDraws : (respond st v s).xportDraws = s.xportDraws := rfl
@[simp] theorem respond_lineIn : (respond st v s).lineIn = s.lineIn := rfl
@[simp] theorem respond_lineDraws : (respond st v s).lineDraws = s.lineDraws := rfl
@[simp] theorem respond_cfg : (respond st v s).cfg = s.cfg := rfl

end

/-! ### endRequest -/

section
variable (s : State)

@[simp] theorem endRequest_fb : (endRequest s).fb = s.fb := rfl
@[simp] theorem endRequest_rot : (endRequest s).rot = s.rot := rfl
@[simp] theorem endRequest_bg : (endRequest s).bg = s.bg := rfl
@[simp] theorem endRequest_phase : (endRequest s).phase = s.phase := rfl
@[simp] theorem endRequest_protoErr : (endRequest s).protoErr = s.protoErr := rfl
@[simp] theorem endRequest_xportErr : (endRequest s).xportErr = s.xportErr := rfl
@[simp] theorem endRequest_dcLevel : (endRequest s).dcLevel = s.dcLevel := rfl
@[simp] theorem endRequest_rstLevel : (endRequest s).rstLevel = s.rstLevel := rfl
@[simp] theorem endRequest_cur : (endRequest s).cur = none := rfl
@[simp] theorem endRequest_stepIx : (endRequest s).stepIx = 0 := rfl
@[simp] theorem endRequest_curLegal : (endRequest s).curLegal = false := rfl
@[simp] theorem endRequest_reqPort : (endRequest s).reqPort = s.reqPort := rfl
@[simp] theorem endRequest_rsps : (endRequest s).rsps = s.rsps := rfl
@[simp] theorem endRequest_trace : (endRequest s).trace = s.trace := rfl
@[simp] theorem endRequest_refined : (endRequest s).refined = s.refined := rfl
@[simp] theorem endRequest_xportIn : (endRequest s).xportIn = s.xportIn := rfl
@[simp] theorem endRequest_xportDraws : (endRequest s).xportDraws = s.xportDraws := rfl
@[simp] theorem endRequest_lineIn : (endRequest s).lineIn = s.lineIn := rfl
@[simp] theorem endRequest_lineDraws : (endRequest s).lineDraws = s.lineDraws := rfl
@[simp] theorem endRequest_cfg : (endRequest s).cfg = s.cfg := rfl

end

/-! ### raiseOutOfRange -/

section
variable (n : BitVec 4) (s : State)

@[simp] theorem raiseOutOfRange_fb : (raiseOutOfRange n s).fb = s.fb := rfl
@[simp] theorem raiseOutOfRange_rot : (raiseOutOfRange n s).rot = s.rot := rfl
@[simp] theorem raiseOutOfRange_bg : (raiseOutOfRange n s).bg = s.bg := rfl
@[simp] theorem raiseOutOfRange_phase : (raiseOutOfRange n s).phase = s.phase := rfl
@[simp] theorem raiseOutOfRange_protoErr : (raiseOutOfRange n s).protoErr = s.protoErr := rfl
@[simp] theorem raiseOutOfRange_xportErr : (raiseOutOfRange n s).xportErr = s.xportErr := rfl
@[simp] theorem raiseOutOfRange_dcLevel : (raiseOutOfRange n s).dcLevel = s.dcLevel := rfl
@[simp] theorem raiseOutOfRange_rstLevel : (raiseOutOfRange n s).rstLevel = s.rstLevel := rfl
@[simp] theorem raiseOutOfRange_cur : (raiseOutOfRange n s).cur = s.cur := rfl
@[simp] theorem raiseOutOfRange_stepIx : (raiseOutOfRange n s).stepIx = s.stepIx := rfl
@[simp] theorem raiseOutOfRange_curLegal : (raiseOutOfRange n s).curLegal = s.curLegal := rfl
@[simp] theorem raiseOutOfRange_reqPort : (raiseOutOfRange n s).reqPort = s.reqPort := rfl
@[simp] theorem raiseOutOfRange_rsps : (raiseOutOfRange n s).rsps = s.rsps ++ [⟨respWord .outOfRange (n.zeroExtend 24), []⟩] := rfl
@[simp] theorem raiseOutOfRange_trace : (raiseOutOfRange n s).trace = s.trace := rfl
@[simp] theorem raiseOutOfRange_refined : (raiseOutOfRange n s).refined = s.refined := rfl
@[simp] theorem raiseOutOfRange_xportIn : (raiseOutOfRange n s).xportIn = s.xportIn := rfl
@[simp] theorem raiseOutOfRange_xportDraws : (raiseOutOfRange n s).xportDraws = s.xportDraws := rfl
@[simp] theorem raiseOutOfRange_lineIn : (raiseOutOfRange n s).lineIn = s.lineIn := rfl
@[simp] theorem raiseOutOfRange_lineDraws : (raiseOutOfRange n s).lineDraws = s.lineDraws := rfl
@[simp] theorem raiseOutOfRange_cfg : (raiseOutOfRange n s).cfg = s.cfg := rfl

end

/-! ### raiseTransportError -/

section
variable (s : State)

@[simp] theorem raiseTransportError_fb : (raiseTransportError s).fb = s.fb := rfl
@[simp] theorem raiseTransportError_rot : (raiseTransportError s).rot = s.rot := rfl
@[simp] theorem raiseTransportError_bg : (raiseTransportError s).bg = s.bg := rfl
@[simp] theorem raiseTransportError_phase : (raiseTransportError s).phase = .unknown := rfl
@[simp] theorem raiseTransportError_protoErr : (raiseTransportError s).protoErr = s.protoErr := rfl
@[simp] theorem raiseTransportError_xportErr : (raiseTransportError s).xportErr = true := rfl
@[simp] theorem raiseTransportError_dcLevel : (raiseTransportError s).dcLevel = s.dcLevel := rfl
@[simp] theorem raiseTransportError_rstLevel : (raiseTransportError s).rstLevel = s.rstLevel := rfl
@[simp] theorem raiseTransportError_cur : (raiseTransportError s).cur = none := rfl
@[simp] theorem raiseTransportError_stepIx : (raiseTransportError s).stepIx = 0 := rfl
@[simp] theorem raiseTransportError_curLegal : (raiseTransportError s).curLegal = false := rfl
@[simp] theorem raiseTransportError_reqPort : (raiseTransportError s).reqPort = s.reqPort := rfl
@[simp] theorem raiseTransportError_rsps : (raiseTransportError s).rsps = s.rsps ++ [⟨respWord .transportError 0, []⟩] := rfl
@[simp] theorem raiseTransportError_trace : (raiseTransportError s).trace = s.trace := rfl
@[simp] theorem raiseTransportError_refined : (raiseTransportError s).refined = s.refined := rfl
@[simp] theorem raiseTransportError_xportIn : (raiseTransportError s).xportIn = s.xportIn := rfl
@[simp] theorem raiseTransportError_xportDraws : (raiseTransportError s).xportDraws = s.xportDraws := rfl
@[simp] theorem raiseTransportError_lineIn : (raiseTransportError s).lineIn = s.lineIn := rfl
@[simp] theorem raiseTransportError_lineDraws : (raiseTransportError s).lineDraws = s.lineDraws := rfl
@[simp] theorem raiseTransportError_cfg : (raiseTransportError s).cfg = s.cfg := rfl

end

/-! ### raiseIllegal -/

section
variable (s : State)

@[simp] theorem raiseIllegal_fb : (raiseIllegal s).fb = s.fb := rfl
@[simp] theorem raiseIllegal_rot : (raiseIllegal s).rot = s.rot := rfl
@[simp] theorem raiseIllegal_bg : (raiseIllegal s).bg = s.bg := rfl
@[simp] theorem raiseIllegal_phase : (raiseIllegal s).phase = s.phase := rfl
@[simp] theorem raiseIllegal_protoErr : (raiseIllegal s).protoErr = s.protoErr := rfl
@[simp] theorem raiseIllegal_xportErr : (raiseIllegal s).xportErr = s.xportErr := rfl
@[simp] theorem raiseIllegal_dcLevel : (raiseIllegal s).dcLevel = s.dcLevel := rfl
@[simp] theorem raiseIllegal_rstLevel : (raiseIllegal s).rstLevel = s.rstLevel := rfl
@[simp] theorem raiseIllegal_cur : (raiseIllegal s).cur = s.cur := rfl
@[simp] theorem raiseIllegal_stepIx : (raiseIllegal s).stepIx = s.stepIx := rfl
@[simp] theorem raiseIllegal_curLegal : (raiseIllegal s).curLegal = s.curLegal := rfl
@[simp] theorem raiseIllegal_reqPort : (raiseIllegal s).reqPort = s.reqPort := rfl
@[simp] theorem raiseIllegal_rsps : (raiseIllegal s).rsps = s.rsps ++ [⟨respWord .illegal 0, []⟩] := rfl
@[simp] theorem raiseIllegal_trace : (raiseIllegal s).trace = s.trace := rfl
@[simp] theorem raiseIllegal_refined : (raiseIllegal s).refined = s.refined := rfl
@[simp] theorem raiseIllegal_xportIn : (raiseIllegal s).xportIn = s.xportIn := rfl
@[simp] theorem raiseIllegal_xportDraws : (raiseIllegal s).xportDraws = s.xportDraws := rfl
@[simp] theorem raiseIllegal_lineIn : (raiseIllegal s).lineIn = s.lineIn := rfl
@[simp] theorem raiseIllegal_lineDraws : (raiseIllegal s).lineDraws = s.lineDraws := rfl
@[simp] theorem raiseIllegal_cfg : (raiseIllegal s).cfg = s.cfg := rfl

end

/-! ### recordEvent -/

section
variable (e : Event) (s : State)

@[simp] theorem recordEvent_fb : (recordEvent e s).fb = s.fb := by cases e <;> rfl
@[simp] theorem recordEvent_rot : (recordEvent e s).rot = s.rot := by cases e <;> rfl
@[simp] theorem recordEvent_bg : (recordEvent e s).bg = s.bg := by cases e <;> rfl
@[simp] theorem recordEvent_phase : (recordEvent e s).phase = s.phase := by cases e <;> rfl
@[simp] theorem recordEvent_protoErr : (recordEvent e s).protoErr = s.protoErr := by cases e <;> rfl
@[simp] theorem recordEvent_xportErr : (recordEvent e s).xportErr = s.xportErr := by cases e <;> rfl
@[simp] theorem recordEvent_cur : (recordEvent e s).cur = s.cur := by cases e <;> rfl
@[simp] theorem recordEvent_stepIx : (recordEvent e s).stepIx = s.stepIx := by cases e <;> rfl
@[simp] theorem recordEvent_curLegal : (recordEvent e s).curLegal = s.curLegal := by cases e <;> rfl
@[simp] theorem recordEvent_reqPort : (recordEvent e s).reqPort = s.reqPort := by cases e <;> rfl
@[simp] theorem recordEvent_rsps : (recordEvent e s).rsps = s.rsps := by cases e <;> rfl
@[simp] theorem recordEvent_trace : (recordEvent e s).trace = s.trace ++ [e] := by cases e <;> rfl
@[simp] theorem recordEvent_refined : (recordEvent e s).refined = s.refined ++ e.fine := by cases e <;> rfl
@[simp] theorem recordEvent_xportIn : (recordEvent e s).xportIn = s.xportIn := by cases e <;> rfl
@[simp] theorem recordEvent_xportDraws : (recordEvent e s).xportDraws = s.xportDraws := by cases e <;> rfl
@[simp] theorem recordEvent_lineIn : (recordEvent e s).lineIn = s.lineIn := by cases e <;> rfl
@[simp] theorem recordEvent_lineDraws : (recordEvent e s).lineDraws = s.lineDraws := by cases e <;> rfl
@[simp] theorem recordEvent_cfg : (recordEvent e s).cfg = s.cfg := by cases e <;> rfl
@[simp] theorem recordEvent_dcLevel : (recordEvent e s).dcLevel = lastDc s.dcLevel [e] := by cases e <;> rfl
@[simp] theorem recordEvent_rstLevel : (recordEvent e s).rstLevel = lastRst s.rstLevel [e] := by cases e <;> rfl

end

/-! ### recordPins -/

section
variable (es : List PinEvent) (s : State)

@[simp] theorem recordPins_fb : (recordPins es s).fb = s.fb := rfl
@[simp] theorem recordPins_rot : (recordPins es s).rot = s.rot := rfl
@[simp] theorem recordPins_bg : (recordPins es s).bg = s.bg := rfl
@[simp] theorem recordPins_phase : (recordPins es s).phase = s.phase := rfl
@[simp] theorem recordPins_protoErr : (recordPins es s).protoErr = s.protoErr := rfl
@[simp] theorem recordPins_xportErr : (recordPins es s).xportErr = s.xportErr := rfl
@[simp] theorem recordPins_dcLevel : (recordPins es s).dcLevel = s.dcLevel := rfl
@[simp] theorem recordPins_rstLevel : (recordPins es s).rstLevel = s.rstLevel := rfl
@[simp] theorem recordPins_cur : (recordPins es s).cur = s.cur := rfl
@[simp] theorem recordPins_stepIx : (recordPins es s).stepIx = s.stepIx := rfl
@[simp] theorem recordPins_curLegal : (recordPins es s).curLegal = s.curLegal := rfl
@[simp] theorem recordPins_reqPort : (recordPins es s).reqPort = s.reqPort := rfl
@[simp] theorem recordPins_rsps : (recordPins es s).rsps = s.rsps := rfl
@[simp] theorem recordPins_trace : (recordPins es s).trace = s.trace := rfl
@[simp] theorem recordPins_refined : (recordPins es s).refined = s.refined ++ es.map .pin := rfl
@[simp] theorem recordPins_xportIn : (recordPins es s).xportIn = s.xportIn := rfl
@[simp] theorem recordPins_xportDraws : (recordPins es s).xportDraws = s.xportDraws := rfl
@[simp] theorem recordPins_lineIn : (recordPins es s).lineIn = s.lineIn := rfl
@[simp] theorem recordPins_lineDraws : (recordPins es s).lineDraws = s.lineDraws := rfl
@[simp] theorem recordPins_cfg : (recordPins es s).cfg = s.cfg := rfl

end

/-! ### writeFb -/

section
variable (i : Nat) (v : Byte) (s : State)

@[simp] theorem writeFb_rot : (s.writeFb i v).rot = s.rot := rfl
@[simp] theorem writeFb_bg : (s.writeFb i v).bg = s.bg := rfl
@[simp] theorem writeFb_phase : (s.writeFb i v).phase = s.phase := rfl
@[simp] theorem writeFb_protoErr : (s.writeFb i v).protoErr = s.protoErr := rfl
@[simp] theorem writeFb_xportErr : (s.writeFb i v).xportErr = s.xportErr := rfl
@[simp] theorem writeFb_dcLevel : (s.writeFb i v).dcLevel = s.dcLevel := rfl
@[simp] theorem writeFb_rstLevel : (s.writeFb i v).rstLevel = s.rstLevel := rfl
@[simp] theorem writeFb_cur : (s.writeFb i v).cur = s.cur := rfl
@[simp] theorem writeFb_stepIx : (s.writeFb i v).stepIx = s.stepIx := rfl
@[simp] theorem writeFb_curLegal : (s.writeFb i v).curLegal = s.curLegal := rfl
@[simp] theorem writeFb_reqPort : (s.writeFb i v).reqPort = s.reqPort := rfl
@[simp] theorem writeFb_rsps : (s.writeFb i v).rsps = s.rsps := rfl
@[simp] theorem writeFb_trace : (s.writeFb i v).trace = s.trace := rfl
@[simp] theorem writeFb_refined : (s.writeFb i v).refined = s.refined := rfl
@[simp] theorem writeFb_xportIn : (s.writeFb i v).xportIn = s.xportIn := rfl
@[simp] theorem writeFb_xportDraws : (s.writeFb i v).xportDraws = s.xportDraws := rfl
@[simp] theorem writeFb_lineIn : (s.writeFb i v).lineIn = s.lineIn := rfl
@[simp] theorem writeFb_lineDraws : (s.writeFb i v).lineDraws = s.lineDraws := rfl
@[simp] theorem writeFb_cfg : (s.writeFb i v).cfg = s.cfg := rfl
theorem writeFb_fb : (s.writeFb i v).fb =
    if v = s.cfg.fbUnlisted i then cellsErase s.fb i else cellsInsert s.fb i v := rfl

end

/-! ### fillFb -/

section
variable (v : Byte) (s : State)

@[simp] theorem fillFb_rot : (s.fillFb v).rot = s.rot := rfl
@[simp] theorem fillFb_bg : (s.fillFb v).bg = s.bg := rfl
@[simp] theorem fillFb_phase : (s.fillFb v).phase = s.phase := rfl
@[simp] theorem fillFb_protoErr : (s.fillFb v).protoErr = s.protoErr := rfl
@[simp] theorem fillFb_xportErr : (s.fillFb v).xportErr = s.xportErr := rfl
@[simp] theorem fillFb_dcLevel : (s.fillFb v).dcLevel = s.dcLevel := rfl
@[simp] theorem fillFb_rstLevel : (s.fillFb v).rstLevel = s.rstLevel := rfl
@[simp] theorem fillFb_cur : (s.fillFb v).cur = s.cur := rfl
@[simp] theorem fillFb_stepIx : (s.fillFb v).stepIx = s.stepIx := rfl
@[simp] theorem fillFb_curLegal : (s.fillFb v).curLegal = s.curLegal := rfl
@[simp] theorem fillFb_reqPort : (s.fillFb v).reqPort = s.reqPort := rfl
@[simp] theorem fillFb_rsps : (s.fillFb v).rsps = s.rsps := rfl
@[simp] theorem fillFb_trace : (s.fillFb v).trace = s.trace := rfl
@[simp] theorem fillFb_refined : (s.fillFb v).refined = s.refined := rfl
@[simp] theorem fillFb_xportIn : (s.fillFb v).xportIn = s.xportIn := rfl
@[simp] theorem fillFb_xportDraws : (s.fillFb v).xportDraws = s.xportDraws := rfl
@[simp] theorem fillFb_lineIn : (s.fillFb v).lineIn = s.lineIn := rfl
@[simp] theorem fillFb_lineDraws : (s.fillFb v).lineDraws = s.lineDraws := rfl
@[simp] theorem fillFb_cfg : (s.fillFb v).cfg = s.cfg := rfl
theorem fillFb_fb : (s.fillFb v).fb =
    (List.range s.cfg.fbLen).filterMap (fun i => if v = s.cfg.fbUnlisted i then none else some (i, v)) := rfl

end

/-! ### acceptSeq -/

section
variable (op : SeqOp) (s : State)

@[simp] theorem acceptSeq_fb : (acceptSeq op s).fb = s.fb := rfl
@[simp] theorem acceptSeq_rot : (acceptSeq op s).rot = s.rot := rfl
@[simp] theorem acceptSeq_bg : (acceptSeq op s).bg = s.bg := rfl
@[simp] theorem acceptSeq_phase : (acceptSeq op s).phase = s.phase := rfl
@[simp] theorem acceptSeq_protoErr : (acceptSeq op s).protoErr = (s.protoErr || !legalFrom op s.phase) := rfl
@[simp] theorem acceptSeq_xportErr : (acceptSeq op s).xportErr = s.xportErr := rfl
@[simp] theorem acceptSeq_dcLevel : (acceptSeq op s).dcLevel = s.dcLevel := rfl
@[simp] theorem acceptSeq_rstLevel : (acceptSeq op s).rstLevel = s.rstLevel := rfl
@[simp] theorem acceptSeq_cur : (acceptSeq op s).cur = some op := rfl
@[simp] theorem acceptSeq_stepIx : (acceptSeq op s).stepIx = 0 := rfl
@[simp] theorem acceptSeq_curLegal : (acceptSeq op s).curLegal = legalFrom op s.phase := rfl
@[simp] theorem acceptSeq_reqPort : (acceptSeq op s).reqPort = s.reqPort := rfl
@[simp] theorem acceptSeq_rsps : (acceptSeq op s).rsps = s.rsps := rfl
@[simp] theorem acceptSeq_trace : (acceptSeq op s).trace = s.trace := rfl
@[simp] theorem acceptSeq_refined : (acceptSeq op s).refined = s.refined := rfl
@[simp] theorem acceptSeq_xportIn : (acceptSeq op s).xportIn = s.xportIn := rfl
@[simp] theorem acceptSeq_xportDraws : (acceptSeq op s).xportDraws = s.xportDraws := rfl
@[simp] theorem acceptSeq_lineIn : (acceptSeq op s).lineIn = s.lineIn := rfl
@[simp] theorem acceptSeq_lineDraws : (acceptSeq op s).lineDraws = s.lineDraws := rfl
@[simp] theorem acceptSeq_cfg : (acceptSeq op s).cfg = s.cfg := rfl

end

/-! ### finishSeq -/

section
variable (op : SeqOp) (s : State)

@[simp] theorem finishSeq_fb : (finishSeq op s).fb = s.fb := rfl
@[simp] theorem finishSeq_rot : (finishSeq op s).rot = s.rot := rfl
@[simp] theorem finishSeq_bg : (finishSeq op s).bg = s.bg := rfl
@[simp] theorem finishSeq_phase : (finishSeq op s).phase = finalPhase op s.curLegal := rfl
@[simp] theorem finishSeq_protoErr : (finishSeq op s).protoErr = s.protoErr := rfl
@[simp] theorem finishSeq_xportErr : (finishSeq op s).xportErr = s.xportErr := rfl
@[simp] theorem finishSeq_dcLevel : (finishSeq op s).dcLevel = s.dcLevel := rfl
@[simp] theorem finishSeq_rstLevel : (finishSeq op s).rstLevel = s.rstLevel := rfl
@[simp] theorem finishSeq_cur : (finishSeq op s).cur = none := rfl
@[simp] theorem finishSeq_stepIx : (finishSeq op s).stepIx = 0 := rfl
@[simp] theorem finishSeq_curLegal : (finishSeq op s).curLegal = false := rfl
@[simp] theorem finishSeq_reqPort : (finishSeq op s).reqPort = s.reqPort := rfl
@[simp] theorem finishSeq_rsps : (finishSeq op s).rsps = s.rsps ++ [⟨respWord .ok 0, []⟩] := rfl
@[simp] theorem finishSeq_trace : (finishSeq op s).trace = s.trace := rfl
@[simp] theorem finishSeq_refined : (finishSeq op s).refined = s.refined := rfl
@[simp] theorem finishSeq_xportIn : (finishSeq op s).xportIn = s.xportIn := rfl
@[simp] theorem finishSeq_xportDraws : (finishSeq op s).xportDraws = s.xportDraws := rfl
@[simp] theorem finishSeq_lineIn : (finishSeq op s).lineIn = s.lineIn := rfl
@[simp] theorem finishSeq_lineDraws : (finishSeq op s).lineDraws = s.lineDraws := rfl
@[simp] theorem finishSeq_cfg : (finishSeq op s).cfg = s.cfg := rfl

end

/-! ### putRequest -/

section
variable (w : Req) (s : State)

@[simp] theorem putRequest_fb : (putRequest w s).fb = s.fb := rfl
@[simp] theorem putRequest_rot : (putRequest w s).rot = s.rot := rfl
@[simp] theorem putRequest_bg : (putRequest w s).bg = s.bg := rfl
@[simp] theorem putRequest_phase : (putRequest w s).phase = s.phase := rfl
@[simp] theorem putRequest_protoErr : (putRequest w s).protoErr = s.protoErr := rfl
@[simp] theorem putRequest_xportErr : (putRequest w s).xportErr = s.xportErr := rfl
@[simp] theorem putRequest_dcLevel : (putRequest w s).dcLevel = s.dcLevel := rfl
@[simp] theorem putRequest_rstLevel : (putRequest w s).rstLevel = s.rstLevel := rfl
@[simp] theorem putRequest_cur : (putRequest w s).cur = none := rfl
@[simp] theorem putRequest_stepIx : (putRequest w s).stepIx = 0 := rfl
@[simp] theorem putRequest_curLegal : (putRequest w s).curLegal = false := rfl
@[simp] theorem putRequest_reqPort : (putRequest w s).reqPort = w :: s.reqPort := rfl
@[simp] theorem putRequest_rsps : (putRequest w s).rsps = s.rsps := rfl
@[simp] theorem putRequest_trace : (putRequest w s).trace = s.trace := rfl
@[simp] theorem putRequest_refined : (putRequest w s).refined = s.refined := rfl
@[simp] theorem putRequest_xportIn : (putRequest w s).xportIn = s.xportIn := rfl
@[simp] theorem putRequest_xportDraws : (putRequest w s).xportDraws = s.xportDraws := rfl
@[simp] theorem putRequest_lineIn : (putRequest w s).lineIn = s.lineIn := rfl
@[simp] theorem putRequest_lineDraws : (putRequest w s).lineDraws = s.lineDraws := rfl
@[simp] theorem putRequest_cfg : (putRequest w s).cfg = s.cfg := rfl

end

/-! ### afterEvents -/

section
variable (s : State) (evs : List Event)

@[simp] theorem afterEvents_fb : (afterEvents s evs).fb = s.fb := rfl
@[simp] theorem afterEvents_rot : (afterEvents s evs).rot = s.rot := rfl
@[simp] theorem afterEvents_bg : (afterEvents s evs).bg = s.bg := rfl
@[simp] theorem afterEvents_phase : (afterEvents s evs).phase = s.phase := rfl
@[simp] theorem afterEvents_protoErr : (afterEvents s evs).protoErr = s.protoErr := rfl
@[simp] theorem afterEvents_xportErr : (afterEvents s evs).xportErr = s.xportErr := rfl
@[simp] theorem afterEvents_dcLevel : (afterEvents s evs).dcLevel = lastDc s.dcLevel evs := rfl
@[simp] theorem afterEvents_rstLevel : (afterEvents s evs).rstLevel = lastRst s.rstLevel evs := rfl
@[simp] theorem afterEvents_cur : (afterEvents s evs).cur = s.cur := rfl
@[simp] theorem afterEvents_stepIx : (afterEvents s evs).stepIx = s.stepIx := rfl
@[simp] theorem afterEvents_curLegal : (afterEvents s evs).curLegal = s.curLegal := rfl
@[simp] theorem afterEvents_reqPort : (afterEvents s evs).reqPort = s.reqPort := rfl
@[simp] theorem afterEvents_rsps : (afterEvents s evs).rsps = s.rsps := rfl
@[simp] theorem afterEvents_trace : (afterEvents s evs).trace = s.trace ++ evs := rfl
@[simp] theorem afterEvents_refined : (afterEvents s evs).refined = s.refined ++ refineEvents s.pollPins 0 evs := rfl
@[simp] theorem afterEvents_xportIn : (afterEvents s evs).xportIn = s.xportIn.drop (failables evs) := rfl
@[simp] theorem afterEvents_xportDraws : (afterEvents s evs).xportDraws = s.xportDraws + failables evs := rfl
@[simp] theorem afterEvents_lineIn : (afterEvents s evs).lineIn = s.lineIn.drop (polls evs * samplesPerPoll s.cfg) := rfl
@[simp] theorem afterEvents_lineDraws : (afterEvents s evs).lineDraws = s.lineDraws + polls evs * samplesPerPoll s.cfg := rfl
@[simp] theorem afterEvents_cfg : (afterEvents s evs).cfg = s.cfg := rfl

end

/-! ### plusResponse -/

section
variable (s : State) (v st : Nat)

@[simp] theorem plusResponse_fb : (plusResponse s v st).fb = s.fb := rfl
@[simp] theorem plusResponse_rot : (plusResponse s v st).rot = s.rot := rfl
@[simp] theorem plusResponse_bg : (plusResponse s v st).bg = s.bg := rfl
@[simp] theorem plusResponse_phase : (plusResponse s v st).phase = s.phase := rfl
@[simp] theorem plusResponse_protoErr : (plusResponse s v st).protoErr = s.protoErr := rfl
@[simp] theorem plusResponse_xportErr : (plusResponse s v st).xportErr = s.xportErr := rfl
@[simp] theorem plusResponse_dcLevel : (plusResponse s v st).dcLevel = s.dcLevel := rfl
@[simp] theorem plusResponse_rstLevel : (plusResponse s v st).rstLevel = s.rstLevel := rfl
@[simp] theorem plusResponse_cur : (plusResponse s v st).cur = s.cur := rfl
@[simp] theorem plusResponse_stepIx : (plusResponse s v st).stepIx = s.stepIx := rfl
@[simp] theorem plusResponse_curLegal : (plusResponse s v st).curLegal = s.curLegal := rfl
@[simp] theorem plusResponse_reqPort : (plusResponse s v st).reqPort = s.reqPort := rfl
@[simp] theorem plusResponse_rsps : (plusResponse s v st).rsps = s.rsps ++ [⟨rspOf v st, []⟩] := rfl
@[simp] theorem plusResponse_trace : (plusResponse s v st).trace = s.trace := rfl
@[simp] theorem plusResponse_refined : (plusResponse s v st).refined = s.refined := rfl
@[simp] theorem plusResponse_xportIn : (plusResponse s v st).xportIn = s.xportIn := rfl
@[simp] theorem plusResponse_xportDraws : (plusResponse s v st).xportDraws = s.xportDraws := rfl
@[simp] theorem plusResponse_lineIn : (plusResponse s v st).lineIn = s.lineIn := rfl
@[simp] theorem plusResponse_lineDraws : (plusResponse s v st).lineDraws = s.lineDraws := rfl
@[simp] theorem plusResponse_cfg : (plusResponse s v st).cfg = s.cfg := rfl

end

/-! ### answered -/

section
variable (st : Nat) (s : State)

@[simp] theorem answered_fb : (answered st s).fb = s.fb := rfl
@[simp] theorem answered_rot : (answered st s).rot = s.rot := rfl
@[simp] theorem answered_bg : (answered st s).bg = s.bg := rfl
@[simp] theorem answered_phase : (answered st s).phase = s.phase := rfl
@[simp] theorem answered_protoErr : (answered st s).protoErr = s.protoErr := rfl
@[simp] theorem answered_xportErr : (answered st s).xportErr = s.xportErr := rfl
@[simp] theorem answered_dcLevel : (answered st s).dcLevel = s.dcLevel := rfl
@[simp] theorem answered_rstLevel : (answered st s).rstLevel = s.rstLevel := rfl
@[simp] theorem answered_cur : (answered st s).cur = none := rfl
@[simp] theorem answered_stepIx : (answered st s).stepIx = 0 := rfl
@[simp] theorem answered_curLegal : (answered st s).curLegal = false := rfl
@[simp] theorem answered_reqPort : (answered st s).reqPort = s.reqPort := rfl
@[simp] theorem answered_rsps : (answered st s).rsps = s.rsps ++ [⟨rspOf 0 st, []⟩] := rfl
@[simp] theorem answered_trace : (answered st s).trace = s.trace := rfl
@[simp] theorem answered_refined : (answered st s).refined = s.refined := rfl
@[simp] theorem answered_xportIn : (answered st s).xportIn = s.xportIn := rfl
@[simp] theorem answered_xportDraws : (answered st s).xportDraws = s.xportDraws := rfl
@[simp] theorem answered_lineIn : (answered st s).lineIn = s.lineIn := rfl
@[simp] theorem answered_lineDraws : (answered st s).lineDraws = s.lineDraws := rfl
@[simp] theorem answered_cfg : (answered st s).cfg = s.cfg := rfl

end

end Sys2Proof.Machine
end

