-- ==== Sys2Proof/Laws/Memory.lean ====
section
/-! SUPPORT. The laws of the framebuffer: read after write, writes elsewhere, fills, and that every operation keeps the canonical form Memory.wf. -/

namespace Sys2Proof.Machine

theorem cellsFind_erase_same (m : List Host.Cell) (a : Nat) : cellsFind (cellsErase m a) a = none := by
  induction m with
  | nil => rfl
  | cons p m ih =>
    obtain ⟨k, v⟩ := p
    by_cases h : k = a
    · simpa [cellsErase, h] using ih
    · simpa [cellsErase, h, cellsFind] using ih

theorem cellsFind_erase_other (m : List Host.Cell) {a b : Nat} (hab : b ≠ a) :
    cellsFind (cellsErase m a) b = cellsFind m b := by
  induction m with
  | nil => rfl
  | cons p m ih =>
    obtain ⟨k, v⟩ := p
    simp only [cellsErase] at ih
    by_cases h : k = a
    · simp [cellsErase, cellsFind, h, ih, Ne.symm hab]
    · simp [cellsErase, cellsFind, h, ih]

theorem cellsFind_insert_same (m : List Host.Cell) (a : Nat) (v : Byte) : cellsFind (cellsInsert m a v) a = some v := by
  induction m with
  | nil => simp [cellsInsert, cellsFind]
  | cons p m ih =>
    obtain ⟨k, w⟩ := p
    unfold cellsInsert
    split_ifs with h1 h2
    · simp [cellsFind]
    · simp [cellsFind]
    · simp [cellsFind, Ne.symm h2, ih]

theorem cellsFind_insert_other (m : List Host.Cell) {a b : Nat} (v : Byte) (hab : b ≠ a) :
    cellsFind (cellsInsert m a v) b = cellsFind m b := by
  induction m with
  | nil => simp [cellsInsert, cellsFind, Ne.symm hab]
  | cons p m ih =>
    obtain ⟨k, w⟩ := p
    unfold cellsInsert
    split_ifs with h1 h2
    · simp [cellsFind, Ne.symm hab]
    · subst h2
      simp [cellsFind, Ne.symm hab]
    · simp [cellsFind, ih]

theorem mem_cellsInsert {m : List Host.Cell} {a : Nat} {v : Byte} {p : Host.Cell} (h : p ∈ cellsInsert m a v) :
    p = (a, v) ∨ p ∈ m := by
  induction m with
  | nil => exact .inl (by simpa [cellsInsert] using h)
  | cons q m ih =>
    obtain ⟨k, w⟩ := q
    unfold cellsInsert at h
    split_ifs at h with h1 h2
    · simpa using h
    · rcases List.mem_cons.1 h with h | h
      · exact .inl h
      · exact .inr (List.mem_cons_of_mem _ h)
    · rcases List.mem_cons.1 h with h | h
      · exact .inr (by simp [h])
      · exact (ih h).imp id (List.mem_cons_of_mem _)

theorem cellsInsert_rising {m : List Host.Cell} (a : Nat) (v : Byte) (h : m.Pairwise (fun p q => p.1 < q.1)) :
    (cellsInsert m a v).Pairwise (fun p q => p.1 < q.1) := by
  induction m with
  | nil => simp [cellsInsert]
  | cons q m ih =>
    obtain ⟨k, w⟩ := q
    obtain ⟨hk, hm⟩ := List.pairwise_cons.1 h
    unfold cellsInsert
    split_ifs with h1 h2
    · exact List.pairwise_cons.2 ⟨fun p hp => by
        rcases List.mem_cons.1 hp with rfl | hp
        · exact h1
        · exact lt_trans h1 (hk p hp), h⟩
    · subst h2
      exact List.pairwise_cons.2 ⟨hk, hm⟩
    · refine List.pairwise_cons.2 ⟨fun p hp => ?_, ih hm⟩
      rcases mem_cellsInsert hp with rfl | hp
      · show k < a
        omega
      · exact hk p hp

/-- The byte a write stores is the byte read there. -/
theorem fbByte_writeFb_same (s : State) (i : Nat) (v : Byte) : (s.writeFb i v).fbByte i = v := by
  unfold State.fbByte
  rw [writeFb_fb, writeFb_cfg]
  split_ifs with h
  · simp [cellsFind_erase_same, h]
  · simp [cellsFind_insert_same]

/-- A write leaves every other byte alone. -/
theorem fbByte_writeFb_other (s : State) {i j : Nat} (v : Byte) (h : j ≠ i) : (s.writeFb i v).fbByte j = s.fbByte j := by
  unfold State.fbByte
  rw [writeFb_fb, writeFb_cfg]
  split_ifs
  · rw [cellsFind_erase_other _ h]
  · rw [cellsFind_insert_other _ _ h]

theorem cellsFind_filterMap (f : Nat → Option Byte) (n i : Nat) :
    cellsFind ((List.range n).filterMap (fun j => (f j).map (fun v => (j, v)))) i = if i < n then f i else none := by
  induction n with
  | zero => simp [cellsFind]
  | succ n ih =>
    have happ : ∀ (l m : List Host.Cell), cellsFind (l ++ m) i = (cellsFind l i).or (cellsFind m i) := by
      intro l m
      induction l with
      | nil => simp [cellsFind]
      | cons p l ih =>
        obtain ⟨k, v⟩ := p
        by_cases h : k = i <;> simp [cellsFind, h, ih]
    rw [List.range_succ, List.filterMap_append, happ, ih]
    by_cases h : i < n
    · cases hf : f n <;> cases hi : f i <;> simp [cellsFind, h, hf, Nat.lt_succ_of_lt h, Nat.ne_of_gt h]
    · by_cases h2 : i = n
      · subst h2
        cases hf : f i <;> simp [cellsFind, hf]
      · have : ¬ i < n + 1 := by omega
        cases hf : f n <;> simp [cellsFind, h, this, hf, Ne.symm h2]

/-- After a fill every byte of the FB space is the byte filled in. -/
theorem fbByte_fillFb (s : State) (v : Byte) {i : Nat} (h : i < s.cfg.fbLen) : (s.fillFb v).fbByte i = v := by
  unfold State.fbByte
  rw [fillFb_fb, fillFb_cfg]
  have := cellsFind_filterMap (fun j => if v = s.cfg.fbUnlisted j then none else some v) s.cfg.fbLen i
  have heq : (fun j => Option.map (fun v => (j, v)) (if v = s.cfg.fbUnlisted j then none else some v)) =
      (fun j => if v = s.cfg.fbUnlisted j then none else some (j, v)) := by
    funext j; split_ifs <;> rfl
  rw [heq] at this
  rw [this, if_pos h]
  split_ifs with h2
  · simp [h2]
  · rfl

theorem fbBytes_length (s : State) : s.fbBytes.length = s.cfg.fbLen := by simp [State.fbBytes]

/-- After a fill the buffer is the byte filled in, FB_LEN times. -/
theorem fbBytes_fillFb (s : State) (v : Byte) : (s.fillFb v).fbBytes = List.replicate s.cfg.fbLen v := by
  refine List.eq_replicate_iff.2 ⟨by simp [fbBytes_length], fun b hb => ?_⟩
  obtain ⟨i, hi, rfl⟩ := List.mem_map.1 hb
  exact fbByte_fillFb s v (by simpa using hi)

/-! ### Every memory operation keeps the canonical form -/

theorem writeFb_wf {s : State} {i : Nat} (v : Byte) (hi : i < s.cfg.fbLen) (h : Memory.wf s.cfg s.fb) :
    Memory.wf s.cfg (s.writeFb i v).fb := by
  rw [writeFb_fb]
  split_ifs with hv
  · exact ⟨h.1.filter _, fun p hp => h.2 p (List.mem_of_mem_filter hp)⟩
  · refine ⟨cellsInsert_rising i v h.1, fun p hp => ?_⟩
    rcases mem_cellsInsert hp with rfl | hp
    · exact ⟨hi, hv⟩
    · exact h.2 p hp

theorem fillFb_wf (s : State) (v : Byte) : Memory.wf s.cfg (s.fillFb v).fb := by
  rw [fillFb_fb]
  refine ⟨?_, fun p hp => ?_⟩
  · refine List.Pairwise.filterMap (R := (· < ·)) _ ?_ List.pairwise_lt_range
    intro i j hij p hp q hq
    split_ifs at hp hq
    simp only [Option.some.injEq] at hp hq
    subst hp hq
    exact hij
  · obtain ⟨i, hi, hp⟩ := List.mem_filterMap.1 hp
    split_ifs at hp with h
    simp only [Option.some.injEq] at hp
    subst hp
    exact ⟨by simpa using hi, h⟩

theorem resetWith_memory_wf (c : Config) : Memory.wf c (State.resetWith c).fb :=
  ⟨List.Pairwise.nil, fun _ h => by cases h⟩

end Sys2Proof.Machine
end

