-- ==== Sys2Proof/Laws/Ops.lean ====
section
/-! SUPPORT. What each free draw, Emit and Poll do, said once in terms of the answers to come and of afterEvents. -/

namespace Sys2Proof.Machine

/-! ### Free draws -/

/-- Drawing a transport answer answers the next one and takes it. -/
theorem drawXport_eq (s : State) :
    drawXport s = (s.xportAnswer 0, { s with xportIn := s.xportIn.drop 1, xportDraws := s.xportDraws + 1 }) := by
  unfold drawXport State.xportAnswer
  cases h : s.xportIn <;> simp

/-- Sampling the busy line answers the next level and takes it. -/
theorem sampleLine_eq (s : State) :
    sampleLine s = (s.lineAnswer 0, { s with lineIn := s.lineIn.drop 1, lineDraws := s.lineDraws + 1 }) := by
  unfold sampleLine State.lineAnswer
  cases h : s.lineIn <;> simp

theorem lineAnswer_drop (s : State) (n k : Nat) (p : List FineEvent) :
    ({ s with lineIn := s.lineIn.drop n, lineDraws := s.lineDraws + n, refined := p } : State).lineAnswer k =
      s.lineAnswer (n + k) := by
  simp [State.lineAnswer, List.getElem?_drop, Nat.add_assoc]

/-- What clocking out n bits reads. -/
def shiftBits (s : State) (n : Nat) (acc : Byte) : Byte :=
  (List.range n).foldl (fun a j => (a <<< 1) ||| (if s.lineAnswer j then 1 else 0)) acc

/-- Clocking out n bits: the byte read, n samples taken, and the pin events of n samples. -/
theorem shiftRead_eq (n : Nat) (acc : Byte) (s : State) :
    shiftRead n acc s =
      (shiftBits s n acc,
       { s with
         lineIn := s.lineIn.drop n
         lineDraws := s.lineDraws + n
         refined := s.refined ++ (List.range n).flatMap (fun j =>
          [.pin (.sample (s.lineAnswer j)), .pin (.clk true), .pin (.clk false)]) }) := by
  induction n generalizing acc s with
  | zero => simp [shiftRead, shiftBits]
  | succ n ih =>
    simp only [shiftRead, sampleLine_eq, recordPins]
    rw [ih]
    simp only [shiftBits, List.range_succ_eq_map, List.foldl_cons, List.foldl_map, List.flatMap_cons, List.flatMap_map,
      lineAnswer_drop, List.drop_drop, List.append_assoc, Nat.succ_eq_add_one, Nat.add_comm 1]
    simp [Nat.add_comm, Nat.add_left_comm]

theorem bitByte_getElem (b : Bool) (i : Nat) (h : i < 8) :
    (if b = true then 1#8 else 0#8)[i] = (decide (i = 0) && b) := by
  cases b <;> simp [BitVec.getElem_one]

/-- Bit b of the byte eight samples make is the sample taken 7 - b samples in: most significant bit first. -/
theorem shiftBits_bit (s : State) (b : Fin 8) : (shiftBits s 8 0).getLsbD b = s.lineAnswer (7 - b) := by
  simp only [shiftBits, List.range_succ_eq_map, List.range_zero, List.map_nil, List.map_cons, List.foldl_cons,
    List.foldl_nil]
  fin_cases b <;> simp [bitByte_getElem]

/-- A poll answers the next busy answer, and sends one BUSY event and nothing else. -/
theorem poll_eq (s : State) : poll s = (s.pollAnswer 0, afterEvents s [.busy (s.pollAnswer 0)]) := by
  unfold poll isBusyLine State.pollAnswer afterEvents samplesPerPoll
  cases h : s.cfg.busySource
  · simp [isBusyPin, sampleLine_eq, recordEvent, lastDc, lastRst, failables, polls, Event.failable, Event.fine,
      refineEvents, State.pollPins, h]
  · simp [isBusyShiftReg, shiftRead_eq, recordPins, recordEvent, lastDc, lastRst, failables, polls, Event.failable,
      Event.fine, refineEvents, State.pollPins, shiftRegPins, h, List.map_flatMap, List.flatMap_map]
    refine ⟨?_, rfl⟩
    rw [← BitVec.getLsbD_eq_getElem]
    exact shiftBits_bit _ _

/-- Emit sends its event, answers what the transport answers, and draws an answer only where the event can fail. -/
theorem emit_eq (e : Event) (s : State) (he : ∀ v, e ≠ .busy v) :
    emit e s = (!e.failable || s.xportAnswer 0, afterEvents s [e]) := by
  cases e <;> simp [emit, drawXport_eq, recordEvent, afterEvents, lastDc, lastRst, failables, polls, Event.failable,
    State.xportAnswer, Event.fine, refineEvents] at *


/-! ### Events in sequence -/

theorem lastDc_append (l : LineLevel) (a b : List Event) : lastDc l (a ++ b) = lastDc (lastDc l a) b := by
  simp [lastDc]

theorem lastRst_append (l : LineLevel) (a b : List Event) : lastRst l (a ++ b) = lastRst (lastRst l a) b := by
  simp [lastRst]

theorem failables_append (a b : List Event) : failables (a ++ b) = failables a + failables b := by
  simp [failables]

theorem polls_append (a b : List Event) : polls (a ++ b) = polls a + polls b := by
  simp [polls]

@[simp] theorem afterEvents_xportAnswer (s : State) (evs : List Event) (k : Nat) :
    (afterEvents s evs).xportAnswer k = s.xportAnswer (failables evs + k) := by
  simp [State.xportAnswer, List.getElem?_drop, Nat.add_assoc]

@[simp] theorem afterEvents_lineAnswer (s : State) (evs : List Event) (k : Nat) :
    (afterEvents s evs).lineAnswer k = s.lineAnswer (polls evs * samplesPerPoll s.cfg + k) := by
  simp [State.lineAnswer, List.getElem?_drop, Nat.add_assoc]

@[simp] theorem afterEvents_pollAnswer (s : State) (evs : List Event) (k : Nat) :
    (afterEvents s evs).pollAnswer k = s.pollAnswer (polls evs + k) := by
  unfold State.pollAnswer
  rw [afterEvents_cfg]
  cases h : s.cfg.busySource <;> simp [samplesPerPoll, h]
  congr 1; omega

@[simp] theorem afterEvents_pollPins (s : State) (evs : List Event) (k : Nat) :
    (afterEvents s evs).pollPins k = s.pollPins (polls evs + k) := by
  unfold State.pollPins
  rw [afterEvents_cfg]
  cases h : s.cfg.busySource <;> simp [samplesPerPoll, h]
  have : ∀ j, polls evs * 8 + (8 * k + j) = 8 * (polls evs + k) + j := by intro j; omega
  simp [this]

/-- The refined trace of a concatenation: the polls of the second part follow those of the first. -/
theorem refineEvents_append (pins : Nat → List PinEvent) (k : Nat) (a b : List Event) :
    refineEvents pins k (a ++ b) = refineEvents pins k a ++ refineEvents pins (k + polls a) b := by
  induction a generalizing k with
  | nil => simp [refineEvents, polls]
  | cons e a ih =>
    have h := polls_append [e] a
    rw [List.singleton_append] at h
    cases e with
    | busy v =>
      have h1 : polls [Event.busy v] = 1 := rfl
      simp only [List.cons_append, refineEvents, ih, List.append_assoc]
      rw [h, h1, Nat.add_assoc]
    | _ => simp only [List.cons_append, refineEvents, ih]; rw [h]; simp [polls]

/-- What the polls to come add to the refined trace after some events. -/
theorem afterEvents_refineEvents (s : State) (evs : List Event) (k : Nat) (l : List Event) :
    refineEvents (afterEvents s evs).pollPins k l = refineEvents s.pollPins (polls evs + k) l := by
  induction l generalizing k with
  | nil => rfl
  | cons e l ih => cases e <;> simp [refineEvents, ih, Nat.add_assoc]

/-- Sending two lists of events one after the other is sending their concatenation. -/
theorem afterEvents_append (s : State) (a b : List Event) :
    afterEvents (afterEvents s a) b = afterEvents s (a ++ b) := by
  have hr : refineEvents (afterEvents s a).pollPins 0 b = refineEvents s.pollPins (0 + polls a) b := by
    rw [afterEvents_refineEvents, Nat.add_comm]
  unfold afterEvents at *
  simp only [hr, refineEvents_append]
  simp [lastDc_append, lastRst_append, failables_append, polls_append, Nat.add_mul, Nat.add_assoc]

@[simp] theorem afterEvents_nil (s : State) : afterEvents s [] = s := by
  simp [afterEvents, lastDc, lastRst, failables, polls, refineEvents]

end Sys2Proof.Machine
end

