-- ==== Sys2Proof/Laws/Seq.lean ====
section
/-! SUPPORT. What one element of a script does, what running the elements that remain keeps, and that every element of a script is one these lemmas describe. -/

namespace Sys2Proof.Machine

/-! ### One element -/

theorem perform_setPhase (p : Phase) (s : State) : perform (.setPhase p) s = .advance { s with phase := p } := rfl

theorem perform_fillFb (v : Byte) (s : State) : perform (.fillFb v) s = .advance (s.fillFb v) := rfl

theorem perform_emit (e : Event) (s : State) (he : ∀ v, e ≠ .busy v) :
    perform (.emit e) s =
      if !e.failable || s.xportAnswer 0 then .advance (afterEvents s [e]) else .failed (afterEvents s [e]) := by
  simp [perform, emit_eq e s he]

/-- One round of a busy-wait polls once; where the poll answers busy, the optional delay follows and STEP is held. -/
theorem perform_waitBusy (s : State) :
    perform .waitBusy s =
      if s.pollAnswer 0 then .hold (afterEvents s (.busy true :: pollDelayEvents s.cfg))
      else .advance (afterEvents s [.busy false]) := by
  simp only [perform, waitBusyRound, poll_eq]
  cases h : s.pollAnswer 0
  · simp
  · have hr : ∀ d, recordEvent (.dly d) (afterEvents s [.busy true]) = afterEvents s [.busy true, .dly d] := by
      intro d
      rw [← List.singleton_append, ← afterEvents_append]
      simp [recordEvent, afterEvents, lastDc, lastRst, failables, polls, Event.failable, Event.fine, refineEvents]
    cases hd : s.cfg.pollDelayMs <;> simp [pollDelayEvents, hd, hr]

/-- An element that is not the emission of a BUSY event; scripts hold only these. -/
def Elem.plain : Elem → Bool
  | .emit (.busy _) => false
  | _ => true

/-- Everything one element of a script can do. -/
theorem perform_cases {e : Elem} {s : State} (he : e.plain = true) :
    (∃ p, e = .setPhase p ∧ perform e s = .advance { s with phase := p }) ∨
    (∃ v, e = .fillFb v ∧ perform e s = .advance (s.fillFb v)) ∨
    (∃ ev, e = .emit ev ∧ (∀ v, ev ≠ .busy v) ∧ (ev.failable = true → s.xportAnswer 0 = true) ∧
      perform e s = .advance (afterEvents s [ev])) ∨
    (∃ ev, e = .emit ev ∧ (∀ v, ev ≠ .busy v) ∧ ev.failable = true ∧ s.xportAnswer 0 = false ∧
      perform e s = .failed (afterEvents s [ev])) ∨
    (e = .waitBusy ∧ s.pollAnswer 0 = false ∧ perform e s = .advance (afterEvents s [.busy false])) ∨
    (e = .waitBusy ∧ s.pollAnswer 0 = true ∧
      perform e s = .hold (afterEvents s (.busy true :: pollDelayEvents s.cfg))) := by
  cases e with
  | setPhase p => exact .inl ⟨p, rfl, rfl⟩
  | fillFb v => exact .inr (.inl ⟨v, rfl, rfl⟩)
  | emit ev =>
    have hb : ∀ v, ev ≠ .busy v := by rintro v rfl; simp [Elem.plain] at he
    have := perform_emit ev s hb
    cases hf : ev.failable <;> cases ha : s.xportAnswer 0 <;> simp [hf, ha] at this
    · exact .inr (.inr (.inl ⟨ev, rfl, hb, by simp [hf], this⟩))
    · exact .inr (.inr (.inl ⟨ev, rfl, hb, by simp [hf], this⟩))
    · exact .inr (.inr (.inr (.inl ⟨ev, rfl, hb, hf, rfl, this⟩)))
    · exact .inr (.inr (.inl ⟨ev, rfl, hb, by simp, this⟩))
  | waitBusy =>
    have := perform_waitBusy s
    cases ha : s.pollAnswer 0 <;> simp [ha] at this
    · exact .inr (.inr (.inr (.inr (.inl ⟨rfl, rfl, this⟩))))
    · exact .inr (.inr (.inr (.inr (.inr ⟨rfl, rfl, this⟩))))

/-! ### Performing what remains of a script -/

/-- What a property must survive to hold after the elements that remain: each element that performs, a held busy-wait,
a transport error, and the end of the request. -/
theorem runElems_keeps (P : State → Prop) (op : SeqOp) (es : List Elem) (s : State)
    (hadvance : ∀ e ∈ es, ∀ s t, P s → perform e s = .advance t → P { t with stepIx := t.stepIx + 1 })
    (hhold : ∀ e ∈ es, ∀ s t, P s → perform e s = .hold t → P t)
    (hfail : ∀ e ∈ es, ∀ s t, P s → perform e s = .failed t → P (raiseTransportError t))
    (hfinish : ∀ s, P s → P (finishSeq op s)) (h : P s) : P (runElems op es s) := by
  induction es generalizing s with
  | nil => exact hfinish s h
  | cons e es ih =>
    unfold runElems
    cases hp : perform e s with
    | advance t =>
      exact ih _ (fun e he => hadvance e (List.mem_cons_of_mem _ he)) (fun e he => hhold e (List.mem_cons_of_mem _ he))
        (fun e he => hfail e (List.mem_cons_of_mem _ he)) (hadvance e List.mem_cons_self s t h hp)
    | hold t => exact hhold e List.mem_cons_self s t h hp
    | failed t => exact hfail e List.mem_cons_self s t h hp

theorem cmdElems_plain (c : Config) (n : CmdName) (p : List Byte) : ∀ e ∈ cmdElems c n p, e.plain = true := by
  intro e he
  cases p with
  | nil => simp [cmdElems] at he; rcases he with rfl | rfl <;> rfl
  | cons b p =>
    simp [cmdElems] at he
    rcases he with rfl | rfl | rfl | rfl | ⟨_, _, rfl⟩ <;> rfl

/-- Every element of a script is one that perform_cases describes. -/
theorem script_plain (op : SeqOp) (s : State) : ∀ e ∈ script op s, e.plain = true := by
  have hc := cmdElems_plain s.cfg
  have hinit : ∀ e ∈ initializeScript s.cfg s.bg, e.plain = true := by
    intro e he
    simp only [initializeScript, resetPulse, initCmds, List.mem_append, List.mem_cons, List.not_mem_nil, or_false] at he
    rcases he with ((rfl | rfl | rfl | rfl | rfl | rfl) | rfl) |
      ((((((((((he | he) | he) | he) | he) | he) | he) | he) | he) | he) | he) <;> first | rfl | exact hc _ _ e he
  have hupd : ∀ f, ∀ e ∈ updateScript s.cfg s.bg f, e.plain = true := by
    intro f e he
    simp only [updateScript, loadElems, List.mem_append, List.mem_cons, List.not_mem_nil, or_false] at he
    rcases he with (rfl | rfl) | (((he | he) | he) | he) <;> first | rfl | exact hc _ _ e he
  have hdis : ∀ e ∈ displayScript s.cfg, e.plain = true := by
    intro e he
    simp only [displayScript, refreshElems, List.mem_append, List.mem_cons, List.not_mem_nil, or_false] at he
    rcases he with rfl | ((((((rfl | he) | rfl) | he) | rfl) | he) | rfl) <;> first | rfl | exact hc _ _ e he
  intro e he
  cases op with
  | reset =>
    simp only [script, resetPulse, List.mem_cons, List.not_mem_nil, or_false] at he
    rcases he with rfl | rfl | rfl | rfl | rfl | rfl <;> rfl
  | initPanel => exact hinit e he
  | wakeUp => exact hinit e he
  | updateFrame => exact hupd _ e he
  | displayFrame => exact hdis e he
  | updateAndDisplayFrame => exact (List.mem_append.1 he).elim (hupd _ e) (hdis e)
  | clearFrame =>
    simp only [script, List.mem_append] at he
    rcases he with (he | he) | he
    · split_ifs at he
      · simp only [List.mem_cons, List.not_mem_nil, or_false] at he
        subst he; rfl
      · cases he
    · exact hupd _ e he
    · exact hdis e he
  | powerOff => exact hc _ _ e he
  | sleep => exact hc _ _ e he

/-- No element changes the rotation, the background, the request port or the configuration. -/
theorem perform_frame {e : Elem} {s t : State} (he : e.plain = true)
    (h : perform e s = .advance t ∨ perform e s = .hold t ∨ perform e s = .failed t) :
    t.rot = s.rot ∧ t.bg = s.bg ∧ t.reqPort = s.reqPort ∧ t.cfg = s.cfg ∧ t.rsps = s.rsps ∧ t.cur = s.cur ∧
      t.curLegal = s.curLegal ∧ t.protoErr = s.protoErr ∧ t.xportErr = s.xportErr ∧ t.stepIx = s.stepIx := by
  rcases perform_cases (s := s) he with ⟨p, rfl, hp⟩ | ⟨v, rfl, hp⟩ | ⟨ev, rfl, -, -, hp⟩ | ⟨ev, rfl, -, -, -, hp⟩ |
    ⟨rfl, -, hp⟩ | ⟨rfl, -, hp⟩ <;> rw [hp] at h <;> simp at h <;> subst h <;> simp

/-- Running the elements that remain changes neither rotation, background, request port nor configuration. -/
theorem runElems_frame (op : SeqOp) (es : List Elem) (s : State) (hes : ∀ e ∈ es, e.plain = true) :
    (runElems op es s).rot = s.rot ∧ (runElems op es s).bg = s.bg ∧ (runElems op es s).reqPort = s.reqPort ∧
      (runElems op es s).cfg = s.cfg := by
  refine runElems_keeps (fun t => t.rot = s.rot ∧ t.bg = s.bg ∧ t.reqPort = s.reqPort ∧ t.cfg = s.cfg) op es s
    ?_ ?_ ?_ ?_ ⟨rfl, rfl, rfl, rfl⟩
  · intro e he a t ha ht
    obtain ⟨h1, h2, h3, h4, -⟩ := perform_frame (hes e he) (.inl ht)
    simpa [h1, h2, h3, h4] using ha
  · intro e he a t ha ht
    obtain ⟨h1, h2, h3, h4, -⟩ := perform_frame (hes e he) (.inr (.inl ht))
    simpa [h1, h2, h3, h4] using ha
  · intro e he a t ha ht
    obtain ⟨h1, h2, h3, h4, -⟩ := perform_frame (hes e he) (.inr (.inr ht))
    simpa [h1, h2, h3, h4] using ha
  · intro a ha
    simpa using ha

/-- A request that runs to its end, to a transport error or to a busy poll: it has answered exactly one response and
CUR is NONE, or it has answered none and CUR and the legality are as they were. -/
theorem runElems_responds (op : SeqOp) (es : List Elem) (s : State) (hes : ∀ e ∈ es, e.plain = true) :
    ((runElems op es s).cur = none ∧ (runElems op es s).stepIx = 0 ∧ (runElems op es s).curLegal = false ∧
      ∃ st, (runElems op es s).rsps = s.rsps ++ [⟨respWord st 0, []⟩]) ∨
    ((runElems op es s).cur = s.cur ∧ (runElems op es s).curLegal = s.curLegal ∧ (runElems op es s).rsps = s.rsps ∧
      (runElems op es s).protoErr = s.protoErr) := by
  induction es generalizing s with
  | nil => exact .inl ⟨by simp [runElems], by simp [runElems], by simp [runElems], .ok, by simp [runElems]⟩
  | cons e es ih =>
    unfold runElems
    cases hp : perform e s with
    | advance t =>
      obtain ⟨-, -, -, -, h5, h6, h7, h8, -⟩ := perform_frame (hes e List.mem_cons_self) (.inl hp)
      have := ih { t with stepIx := t.stepIx + 1 } (fun e he => hes e (List.mem_cons_of_mem _ he))
      simpa [h5, h6, h7, h8] using this
    | hold t =>
      obtain ⟨-, -, -, -, h5, h6, h7, h8, -⟩ := perform_frame (hes e List.mem_cons_self) (.inr (.inl hp))
      exact .inr ⟨h6, h7, h5, h8⟩
    | failed t =>
      obtain ⟨-, -, -, -, h5, h6, h7, -⟩ := perform_frame (hes e List.mem_cons_self) (.inr (.inr hp))
      exact .inl ⟨by simp, by simp, by simp, .transportError, by simp [h5]⟩

end Sys2Proof.Machine
end

