-- ==== Sys2Proof/Laws/Events.lean ====
section
/-! SUPPORT. What the events of wire commands are made of: how many polls and delays they hold, and which bytes they send under which level of the command/data line. -/

namespace Sys2Proof.Machine

theorem delays_append (a b : List Event) : delays (a ++ b) = delays a + delays b := by simp [delays]

/-- A wire command polls nothing. -/
theorem polls_cmdEvents (c : Config) (n : CmdName) (p : List Byte) : polls (cmdEvents c n p) = 0 := by
  cases p <;> simp [polls, cmdEvents]

/-- A wire command delays nothing. -/
theorem delays_cmdEvents (c : Config) (n : CmdName) (p : List Byte) : delays (cmdEvents c n p) = 0 := by
  cases p <;> simp [delays, cmdEvents]

theorem polls_updateEvents (c : Config) (bg : Color) (f : List Byte) : polls (updateEvents c bg f) = 1 := by
  show polls ([.busy false] ++ (cmdEvents c .cdi [vcom bg] ++ (cmdEvents c .tres (resBytes c) ++
    (cmdEvents c .dtm f ++ cmdEvents c .dsp [])))) = 1
  simp only [polls_append, polls_cmdEvents]
  rfl

theorem polls_initEvents (c : Config) (bg : Color) : polls (resetEvents c ++ initEvents c bg) = 1 := by
  simp only [initEvents, polls_append, polls_cmdEvents]
  rfl

/-- The round of a busy-wait that polled busy polls once and draws no transport answer. -/
theorem busyRound_counts (c : Config) :
    polls (.busy true :: pollDelayEvents c) = 1 ∧ failables (.busy true :: pollDelayEvents c) = 0 := by
  unfold pollDelayEvents
  cases c.pollDelayMs <;> exact ⟨rfl, rfl⟩

theorem taggedBytes_append (l : LineLevel) (a b : List Event) :
    taggedBytes l (a ++ b) = taggedBytes l a ++ taggedBytes (lastDc l a) b := by
  induction a generalizing l with
  | nil => rfl
  | cons e a ih => cases e <;> simp [taggedBytes, ih, lastDc]

theorem taggedBytes_payload (l : LineLevel) (p : List Byte) : taggedBytes l (p.map .tx) = p.map (Prod.mk l) := by
  induction p with
  | nil => rfl
  | cons b p ih => simp [taggedBytes, ih]

/-- A wire command sends its command byte with the line low and its payload with the line high, whatever the level
before it. -/
theorem taggedBytes_cmdEvents (l : LineLevel) (c : Config) (n : CmdName) (p : List Byte) :
    taggedBytes l (cmdEvents c n p) = (.low, c.cmd.byte n) :: p.map (Prod.mk .high) := by
  cases p with
  | nil => rfl
  | cons b p => simp [cmdEvents, taggedBytes, taggedBytes_payload, LineLevel.ofBool]

theorem panelView_append (l : LineLevel) (a b : List Event) :
    panelView l (a ++ b) = panelView l a ++ panelView (lastDc l a) b := by
  induction a generalizing l with
  | nil => rfl
  | cons e a ih =>
    cases e <;> simp only [List.cons_append, panelView, ih] <;> try rfl
    split_ifs with h
    · subst h; rfl
    · rfl

end Sys2Proof.Machine
end

