-- ==== Sys2Proof/Laws/Run.lean ====
section
/-! SUPPORT. Running the elements that remain of a script: which events they send, where they lead when nothing fails and nothing is busy, where a transport error leads, and what no run changes. -/

namespace Sys2Proof.Machine

/-! ### The events of elements -/

/-- An element that does not write the framebuffer. -/
def Elem.keepsFb : Elem → Bool
  | .fillFb _ => false
  | _ => true

theorem elemEvents_nil : elemEvents [] = [] := rfl

theorem elemEvents_cons (e : Elem) (es : List Elem) : elemEvents (e :: es) = e.events ++ elemEvents es := by
  simp [elemEvents]

theorem elemEvents_append (a b : List Elem) : elemEvents (a ++ b) = elemEvents a ++ elemEvents b := by
  simp [elemEvents]

theorem elemEvents_cmdElems (c : Config) (n : CmdName) (p : List Byte) :
    elemEvents (cmdElems c n p) = cmdEvents c n p := by
  cases p with
  | nil => rfl
  | cons b p =>
    simp only [cmdElems, cmdEvents, List.isEmpty_cons, elemEvents_append, elemEvents_cons, elemEvents_nil, Elem.events,
      List.map_cons]
    have : elemEvents (List.map (fun b => Elem.emit (Event.tx b)) p) = p.map Event.tx := by
      induction p with
      | nil => rfl
      | cons b p ih => simp [elemEvents_cons, ih, Elem.events]
    simp [this, elemEvents_cons, Elem.events]

/-- The events of a request's script are the events opEvents gives. -/
theorem elemEvents_script (op : SeqOp) (s : State) : elemEvents (script op s) = opEvents op s := by
  cases op <;>
    simp only [script, opEvents, initializeScript, updateScript, displayScript, resetPulse, initCmds, loadElems,
      refreshElems, elemEvents_append, elemEvents_cons, elemEvents_nil, elemEvents_cmdElems, Elem.events, resetEvents,
      initEvents, updateEvents, refreshEvents, List.append_assoc, List.nil_append, List.cons_append, List.append_nil]
  any_goals rfl
  split_ifs <;> simp [elemEvents_cons, elemEvents_nil, Elem.events, cmdEvents, CmdBytes.byte]

theorem cmdElems_keepsFb (c : Config) (n : CmdName) (p : List Byte) : ∀ e ∈ cmdElems c n p, e.keepsFb = true := by
  intro e he
  cases p with
  | nil => simp [cmdElems] at he; rcases he with rfl | rfl <;> rfl
  | cons b p =>
    simp [cmdElems] at he
    rcases he with rfl | rfl | rfl | rfl | ⟨_, _, rfl⟩ <;> rfl

theorem updateDisplay_keepsFb (c : Config) (bg : Color) (f : List Byte) :
    ∀ e ∈ updateScript c bg f ++ displayScript c, e.keepsFb = true := by
  have hc := cmdElems_keepsFb c
  intro e he
  simp only [updateScript, loadElems, displayScript, refreshElems, List.mem_append, List.mem_cons, List.not_mem_nil,
    or_false] at he
  rcases he with ((rfl | rfl) | (((he | he) | he) | he)) | rfl | ((((((rfl | he) | rfl) | he) | rfl) | he) | rfl) <;>
    first | rfl | exact hc _ _ e he

/-- No script but PC_CLEAR_FRAME's writes the framebuffer. -/
theorem script_keepsFb (op : SeqOp) (s : State) (h : op ≠ .clearFrame) : ∀ e ∈ script op s, e.keepsFb = true := by
  have hc := cmdElems_keepsFb s.cfg
  have hinit : ∀ e ∈ initializeScript s.cfg s.bg, e.keepsFb = true := by
    intro e he
    simp only [initializeScript, resetPulse, initCmds, List.mem_append, List.mem_cons, List.not_mem_nil, or_false] at he
    rcases he with ((rfl | rfl | rfl | rfl | rfl | rfl) | rfl) |
      ((((((((((he | he) | he) | he) | he) | he) | he) | he) | he) | he) | he) <;> first | rfl | exact hc _ _ e he
  intro e he
  cases op with
  | reset =>
    simp only [script, resetPulse, List.mem_cons, List.not_mem_nil, or_false] at he
    rcases he with rfl | rfl | rfl | rfl | rfl | rfl <;> rfl
  | initPanel => exact hinit e he
  | wakeUp => exact hinit e he
  | updateFrame => exact updateDisplay_keepsFb s.cfg s.bg s.fbBytes e (List.mem_append_left _ he)
  | displayFrame => exact updateDisplay_keepsFb s.cfg s.bg s.fbBytes e (List.mem_append_right _ he)
  | updateAndDisplayFrame => exact updateDisplay_keepsFb _ _ _ e he
  | clearFrame => exact absurd rfl h
  | powerOff => exact hc _ _ e he
  | sleep => exact hc _ _ e he

/-! ### Running when nothing fails and nothing is busy -/

/-- Elements that meet no failure and no busy answer send their events, leave their last phase, and hand over to the
elements behind them. -/
theorem runElems_prefix (op : SeqOp) (rest : List Elem) (es : List Elem) (s : State) (hp : ∀ e ∈ es, e.plain = true)
    (hn : ∀ e ∈ es, e.keepsFb = true) (ht : TransportOk s (failables (elemEvents es)))
    (hb : NotBusy s (polls (elemEvents es))) :
    runElems op (es ++ rest) s =
      runElems op rest
        { afterEvents s (elemEvents es) with phase := phaseAfter s.phase es, stepIx := s.stepIx + es.length } := by
  induction es generalizing s with
  | nil => simp [elemEvents, phaseAfter]
  | cons e es ih =>
    have hp' := fun e he => hp e (List.mem_cons_of_mem _ he)
    have hn' := fun e he => hn e (List.mem_cons_of_mem _ he)
    rw [elemEvents_cons] at ht hb ⊢
    rw [failables_append] at ht; rw [polls_append] at hb
    have hlen : s.stepIx + 1 + es.length = s.stepIx + (es.length + 1) := by omega
    have step1 : (perform e s = .advance (afterEvents s e.events) ∧ phaseAfter s.phase [e] = s.phase) ∨
        ∃ p, e = .setPhase p := by
      cases e with
      | setPhase p => exact .inr ⟨p, rfl⟩
      | fillFb v => have := hn _ List.mem_cons_self; simp [Elem.keepsFb] at this
      | waitBusy =>
        left; rw [perform_waitBusy, hb 0 (by simp [Elem.events, polls])]; exact ⟨rfl, rfl⟩
      | emit e =>
        left
        have hpl := hp _ List.mem_cons_self
        rw [perform_emit _ _ (by rintro v rfl; simp [Elem.plain] at hpl)]
        refine ⟨?_, rfl⟩
        cases hf : e.failable
        · simp [Elem.events]
        · rw [ht 0 (by simp [Elem.events, failables, hf])]; simp [Elem.events]
    rcases step1 with ⟨h1, h2⟩ | ⟨p, rfl⟩
    · rw [List.cons_append]; conv => lhs; unfold runElems
      rw [h1]; dsimp only
      rw [ih _ hp' hn']
      · simp only [List.length_cons]
        have h3 : phaseAfter s.phase (e :: es) = phaseAfter s.phase es := by
          show List.foldl _ (phaseAfter s.phase [e]) es = _
          rw [h2]; rfl
        rw [h3, ← afterEvents_append, ← hlen]
        rfl
      · intro k hk
        have := ht (failables e.events + k) (by omega)
        rw [← afterEvents_xportAnswer] at this; exact this
      · intro k hk
        have := hb (polls e.events + k) (by omega)
        rw [← afterEvents_pollAnswer] at this; exact this
    · rw [List.cons_append]; conv => lhs; unfold runElems
      rw [perform_setPhase]; dsimp only
      rw [ih _ hp' hn' ?_ ?_]
      · show _ = runElems op rest
          { afterEvents s (elemEvents es) with phase := phaseAfter p es, stepIx := s.stepIx + (es.length + 1) }
        rw [← hlen]; rfl
      · intro k hk; exact ht k (by simpa [Elem.events, failables] using hk)
      · intro k hk; exact hb k (by simpa [Elem.events, polls] using hk)

/-- Elements that meet no failure and no busy answer, to the end of the request. -/
theorem runElems_quiet (op : SeqOp) (es : List Elem) (s : State) (hp : ∀ e ∈ es, e.plain = true)
    (hn : ∀ e ∈ es, e.keepsFb = true) (ht : TransportOk s (failables (elemEvents es)))
    (hb : NotBusy s (polls (elemEvents es))) : runElems op es s = finishSeq op (afterEvents s (elemEvents es)) := by
  have h := runElems_prefix op [] es s hp hn ht hb
  rw [List.append_nil] at h
  rw [h]
  rfl

/-- Every sequencer request runs elements that do not write the framebuffer, from the state PC_CLEAR_FRAME's fill has
left, and they send its events. -/
theorem runSeq_split (op : SeqOp) (s : State) : ∃ es n, (∀ e ∈ es, e.plain = true) ∧ (∀ e ∈ es, e.keepsFb = true) ∧
    elemEvents es = opEvents op s ∧ runSeq op s = runElems op es { acceptSeq op (afterFill op s) with stepIx := n } := by
  by_cases h : op = .clearFrame ∧ s.cfg.clearFrameWritesFb = true
  · obtain ⟨rfl, hw⟩ := h
    refine ⟨updateScript s.cfg s.bg (List.replicate s.cfg.fbLen (packByte s.bg s.bg)) ++ displayScript s.cfg, 1, ?_,
      updateDisplay_keepsFb _ _ _, ?_, ?_⟩
    · intro e he
      apply script_plain .clearFrame s
      simp only [script, List.append_assoc]
      exact List.mem_append_right _ he
    · rw [← elemEvents_script]
      simp [script, hw, elemEvents_append, elemEvents_cons, Elem.events]
    · simp only [runSeq, script, hw, if_true, afterFill, and_self]
      rfl
  · refine ⟨script op s, 0, script_plain op s, ?_, elemEvents_script op s, ?_⟩
    · by_cases h2 : op = .clearFrame
      · subst h2
        have hw : s.cfg.clearFrameWritesFb = false := by simpa using h
        intro e he
        apply updateDisplay_keepsFb s.cfg s.bg (List.replicate s.cfg.fbLen (packByte s.bg s.bg)) e
        simpa [script, hw] using he
      · exact script_keepsFb op s h2
    · simp only [afterFill, h, if_false]; rfl

/-- The fill takes no draw. -/
theorem afterFill_answers (op : SeqOp) (s : State) (k : Nat) :
    (afterFill op s).xportAnswer k = s.xportAnswer k ∧ (afterFill op s).pollAnswer k = s.pollAnswer k := by
  unfold afterFill; split_ifs <;> exact ⟨rfl, rfl⟩

theorem afterFill_phase (op : SeqOp) (s : State) : (afterFill op s).phase = s.phase := by
  unfold afterFill; split_ifs <;> rfl

theorem afterFill_id {op : SeqOp} (s : State) (h : op ≠ .clearFrame) : afterFill op s = s := by simp [afterFill, h]

/-- run_seq(op) where nothing fails and nothing is busy. -/
theorem runSeq_completes (op : SeqOp) (s : State) (ht : TransportOk s (failables (opEvents op s)))
    (hb : NotBusy s (polls (opEvents op s))) :
    runSeq op s = completed (afterFill op s) (opEvents op s) (legalFrom op s.phase) (endPhase op) := by
  obtain ⟨es, n, h1, h2, h3, h4⟩ := runSeq_split op s
  rw [h4, runElems_quiet op es _ h1 h2, h3]
  · simp only [finishSeq, completed, answered, respond, respondData, endRequest, acceptSeq, afterEvents, finalPhase,
      afterFill_phase op s]
    rfl
  · rw [h3]; intro k hk; rw [← ht k hk]; exact (afterFill_answers op s k).1
  · rw [h3]; intro k hk; rw [← hb k hk]; exact (afterFill_answers op s k).2

/-! ### A transport error -/

/-- Elements that meet no busy answer and whose k-th failable event fails: the events up to it, and the error. -/
theorem runElems_fails (op : SeqOp) (es : List Elem) (s : State) (k : Nat) (hp : ∀ e ∈ es, e.plain = true)
    (hn : ∀ e ∈ es, e.keepsFb = true) (hk : k < failables (elemEvents es)) (ht : TransportOk s k)
    (hf : s.xportAnswer k = false) (hb : NotBusy s (polls (upToFailable k (elemEvents es)))) :
    ∃ p n, runElems op es s =
      raiseTransportError { afterEvents s (upToFailable k (elemEvents es)) with phase := p, stepIx := n } := by
  induction es generalizing s k with
  | nil => exact absurd hk (Nat.not_lt_zero _)
  | cons e es ih =>
    have hp' := fun e he => hp e (List.mem_cons_of_mem _ he)
    have hn' := fun e he => hn e (List.mem_cons_of_mem _ he)
    rw [elemEvents_cons] at hk hb ⊢
    rw [failables_append] at hk
    cases e with
    | fillFb v => have := hn _ List.mem_cons_self; simp [Elem.keepsFb] at this
    | setPhase p =>
      simp only [Elem.events, List.nil_append] at hk hb ⊢
      obtain ⟨q, n, h⟩ := ih { s with phase := p, stepIx := s.stepIx + 1 } k hp' hn' (by simpa [failables] using hk) ht
        hf hb
      exact ⟨q, n, by unfold runElems; rw [perform_setPhase]; exact h⟩
    | waitBusy =>
      have hu : upToFailable k (.busy false :: elemEvents es) = .busy false :: upToFailable k (elemEvents es) := by
        simp [upToFailable, Event.failable]
      simp only [Elem.events, List.singleton_append] at hk hb ⊢
      rw [hu] at hb ⊢
      have hpo : ∀ l, polls (.busy false :: l) = polls l + 1 := fun l => by simp [polls]
      have hz : failables [Event.busy false] = 0 := rfl
      rw [hpo] at hb
      rw [hz] at hk
      have hx : ∀ j, (afterEvents s [.busy false]).xportAnswer j = s.xportAnswer j := fun j => by
        rw [afterEvents_xportAnswer, hz, Nat.zero_add]
      obtain ⟨q, n, h⟩ := ih { afterEvents s [.busy false] with stepIx := s.stepIx + 1 } k hp' hn' (by omega)
        (fun j hj => (hx j).trans (ht j hj)) ((hx k).trans hf)
        (fun j hj => (afterEvents_pollAnswer s [.busy false] j).trans (hb _ (by simp [polls]; simp [polls] at hj; omega)))
      refine ⟨q, n, ?_⟩
      unfold runElems; rw [perform_waitBusy, hb 0 (by omega)]
      refine h.trans ?_
      show raiseTransportError { afterEvents (afterEvents s [.busy false]) _ with phase := q, stepIx := n } = _
      rw [afterEvents_append]; rfl
    | emit e =>
      have hpl := hp _ List.mem_cons_self
      have hnb : ∀ v, e ≠ .busy v := by rintro v rfl; simp [Elem.plain] at hpl
      have hpe : polls [e] = 0 := by cases e <;> first | rfl | exact absurd rfl (hnb _)
      have hpc : ∀ l, polls (e :: l) = polls l := fun l => by
        have := polls_append [e] l; rw [hpe, Nat.zero_add] at this; exact this
      simp only [Elem.events, List.singleton_append, upToFailable] at hk hb ⊢
      have hpf := perform_emit e s hnb
      have hpa : ∀ j, (afterEvents s [e]).pollAnswer j = s.pollAnswer j := fun j => by
        rw [afterEvents_pollAnswer, hpe, Nat.zero_add]
      cases hfl : e.failable
      · rw [hfl] at hpf
        rw [hfl, if_neg (by simp), hpc] at hb
        rw [if_neg (by simp)]
        have hz : failables [e] = 0 := by simp [failables, hfl]
        have hx : ∀ j, (afterEvents s [e]).xportAnswer j = s.xportAnswer j := fun j => by
          rw [afterEvents_xportAnswer, hz, Nat.zero_add]
        obtain ⟨q, n, h⟩ := ih { afterEvents s [e] with stepIx := s.stepIx + 1 } k hp' hn' (by rw [hz] at hk; omega)
          (fun j hj => (hx j).trans (ht j hj)) ((hx k).trans hf) (fun j hj => (hpa j).trans (hb j hj))
        refine ⟨q, n, ?_⟩
        unfold runElems; rw [hpf]
        refine h.trans ?_
        show raiseTransportError { afterEvents (afterEvents s [e]) _ with phase := q, stepIx := n } = _
        rw [afterEvents_append]; rfl
      · rw [hfl] at hpf
        have hz : failables [e] = 1 := by simp [failables, hfl]
        rw [hfl, if_pos rfl] at hb
        rw [if_pos rfl]
        cases k with
        | zero =>
          rw [hf] at hpf
          refine ⟨s.phase, s.stepIx, ?_⟩
          unfold runElems; rw [hpf]; rfl
        | succ j =>
          rw [ht 0 (by omega)] at hpf
          dsimp only at hb ⊢
          rw [hpc] at hb
          have hx : ∀ i, (afterEvents s [e]).xportAnswer i = s.xportAnswer (i + 1) := fun i => by
            rw [afterEvents_xportAnswer, hz, Nat.add_comm]
          obtain ⟨q, n, h⟩ := ih { afterEvents s [e] with stepIx := s.stepIx + 1 } j hp' hn' (by rw [hz] at hk; omega)
            (fun i hi => (hx i).trans (ht _ (by omega))) ((hx j).trans hf) (fun i hi => (hpa i).trans (hb i hi))
          refine ⟨q, n, ?_⟩
          unfold runElems; rw [hpf]
          refine h.trans ?_
          show raiseTransportError { afterEvents (afterEvents s [e]) _ with phase := q, stepIx := n } = _
          rw [afterEvents_append]; rfl

/-! ### What no run changes, and what it only adds to -/

theorem runElems_protoErr (op : SeqOp) (es : List Elem) (s : State) (hes : ∀ e ∈ es, e.plain = true) :
    (runElems op es s).protoErr = s.protoErr := by
  refine runElems_keeps (fun t => t.protoErr = s.protoErr) op es s ?_ ?_ ?_ (fun _ ha => ha) rfl
  · intro e he a t ha ht; obtain ⟨-, -, -, -, -, -, -, h, -⟩ := perform_frame (hes e he) (.inl ht); exact h.trans ha
  · intro e he a t ha ht; obtain ⟨-, -, -, -, -, -, -, h, -⟩ := perform_frame (hes e he) (.inr (.inl ht)); exact h.trans ha
  · intro e he a t ha ht; obtain ⟨-, -, -, -, -, -, -, h, -⟩ := perform_frame (hes e he) (.inr (.inr ht)); exact h.trans ha

/-- A run of elements that sets XPORT_ERR has ended its request in a TransportError. -/
theorem runElems_xportErr (op : SeqOp) (es : List Elem) (s : State) (hes : ∀ e ∈ es, e.plain = true)
    (h : s.xportErr = false) (h2 : (runElems op es s).xportErr = true) :
    (runElems op es s).cur = none ∧ (runElems op es s).phase = .unknown ∧
    (runElems op es s).rsps = s.rsps ++ [⟨0x00000002, []⟩] := by
  induction es generalizing s with
  | nil => exact absurd (show s.xportErr = true from h2) (by simp [h])
  | cons e es ih =>
    have hes' := fun e he => hes e (List.mem_cons_of_mem _ he)
    revert h2
    rcases perform_cases (s := s) (hes e List.mem_cons_self) with ⟨p, rfl, hpf⟩ | ⟨v, rfl, hpf⟩ |
      ⟨ev, rfl, -, -, hpf⟩ | ⟨ev, rfl, -, -, -, hpf⟩ | ⟨rfl, -, hpf⟩ | ⟨rfl, -, hpf⟩ <;>
      unfold runElems <;> rw [hpf] <;> dsimp only
    · exact ih _ hes' h
    · exact ih _ hes' h
    · exact ih _ hes' h
    · exact fun _ => ⟨rfl, rfl, rfl⟩
    · exact ih _ hes' h
    · exact fun h2 => absurd (show s.xportErr = true from h2) (by simp [h])

/-- A request in progress that ends leaves UNKNOWN or its final phase. -/
theorem runElems_endPhase (op : SeqOp) (es : List Elem) (s : State) (hes : ∀ e ∈ es, e.plain = true)
    (h1 : (runElems op es s).cur = none) (h2 : s.cur ≠ none) :
    (runElems op es s).phase = .unknown ∨ (runElems op es s).phase = finalPhase op s.curLegal := by
  induction es generalizing s with
  | nil => right; rfl
  | cons e es ih =>
    unfold runElems at h1 ⊢
    cases hp : perform e s with
    | advance t =>
      rw [hp] at h1
      obtain ⟨-, -, -, -, -, h6, h7, -⟩ := perform_frame (hes e List.mem_cons_self) (.inl hp)
      have := ih { t with stepIx := t.stepIx + 1 } (fun e he => hes e (List.mem_cons_of_mem _ he)) h1
        (by show t.cur ≠ none; rw [h6]; exact h2)
      simpa [h7] using this
    | hold t =>
      rw [hp] at h1
      obtain ⟨-, -, -, -, -, h6, -⟩ := perform_frame (hes e List.mem_cons_self) (.inr (.inl hp))
      exact absurd (h6 ▸ h1) h2
    | failed t => left; rfl

/-- One element only adds to the trace and to the refined trace, and only a fill writes the framebuffer. -/
theorem perform_history {e : Elem} {s t : State} (he : e.plain = true)
    (h : perform e s = .advance t ∨ perform e s = .hold t ∨ perform e s = .failed t) :
    s.trace <+: t.trace ∧ s.refined <+: t.refined ∧ (e.keepsFb = true → t.fb = s.fb) := by
  rcases perform_cases (s := s) he with ⟨p, rfl, hp⟩ | ⟨v, rfl, hp⟩ | ⟨ev, rfl, -, -, hp⟩ | ⟨ev, rfl, -, -, -, hp⟩ |
    ⟨rfl, -, hp⟩ | ⟨rfl, -, hp⟩ <;> rw [hp] at h <;> simp at h <;> subst h
  · exact ⟨List.prefix_rfl, List.prefix_rfl, fun _ => rfl⟩
  · exact ⟨List.prefix_rfl, List.prefix_rfl, fun h => by simp [Elem.keepsFb] at h⟩
  all_goals exact ⟨List.prefix_append _ _, List.prefix_append _ _, fun _ => rfl⟩

/-- A run only adds to the trace and to the refined trace, and does not clear XPORT_ERR. -/
theorem runElems_history (op : SeqOp) (es : List Elem) (s : State) (hes : ∀ e ∈ es, e.plain = true) :
    s.trace <+: (runElems op es s).trace ∧ s.refined <+: (runElems op es s).refined ∧
      (s.xportErr = true → (runElems op es s).xportErr = true) := by
  refine runElems_keeps (fun t => s.trace <+: t.trace ∧ s.refined <+: t.refined ∧ (s.xportErr = true → t.xportErr = true))
    op es s ?_ ?_ ?_ (fun _ ha => ha) ⟨List.prefix_rfl, List.prefix_rfl, id⟩
  · intro e he a t ⟨h1, h2, h3⟩ ht
    obtain ⟨g1, g2, -⟩ := perform_history (hes e he) (.inl ht)
    obtain ⟨-, -, -, -, -, -, -, -, h, -⟩ := perform_frame (hes e he) (.inl ht)
    exact ⟨h1.trans g1, h2.trans g2, fun hx => h.trans (h3 hx)⟩
  · intro e he a t ⟨h1, h2, h3⟩ ht
    obtain ⟨g1, g2, -⟩ := perform_history (hes e he) (.inr (.inl ht))
    obtain ⟨-, -, -, -, -, -, -, -, h, -⟩ := perform_frame (hes e he) (.inr (.inl ht))
    exact ⟨h1.trans g1, h2.trans g2, fun hx => h.trans (h3 hx)⟩
  · intro e he a t ⟨h1, h2, _⟩ ht
    obtain ⟨g1, g2, -⟩ := perform_history (hes e he) (.inr (.inr ht))
    exact ⟨h1.trans g1, h2.trans g2, fun _ => rfl⟩

theorem runElems_fb (op : SeqOp) (es : List Elem) (s : State) (hes : ∀ e ∈ es, e.plain = true)
    (hn : ∀ e ∈ es, e.keepsFb = true) : (runElems op es s).fb = s.fb := by
  refine runElems_keeps (fun t => t.fb = s.fb) op es s ?_ ?_ ?_ (fun _ ha => ha) rfl
  · intro e he a t h ht; exact ((perform_history (hes e he) (.inl ht)).2.2 (hn e he)).trans h
  · intro e he a t h ht; exact ((perform_history (hes e he) (.inr (.inl ht))).2.2 (hn e he)).trans h
  · intro e he a t h ht; exact ((perform_history (hes e he) (.inr (.inr ht))).2.2 (hn e he)).trans h

/-- A sequencer request writes the framebuffer only by PC_CLEAR_FRAME's fill. -/
theorem runSeq_fb (op : SeqOp) (s : State) : (runSeq op s).fb = (afterFill op s).fb := by
  obtain ⟨es, n, h1, h2, -, h4⟩ := runSeq_split op s
  rw [h4, runElems_fb op es _ h1 h2]; rfl

theorem runElems_memory (op : SeqOp) (es : List Elem) (s : State) (hes : ∀ e ∈ es, e.plain = true)
    (h : Memory.wf s.cfg s.fb) : Memory.wf (runElems op es s).cfg (runElems op es s).fb := by
  have key : ∀ e ∈ es, ∀ a t : State, Memory.wf a.cfg a.fb →
      (perform e a = .advance t ∨ perform e a = .hold t ∨ perform e a = .failed t) → Memory.wf t.cfg t.fb := by
    intro e he a t ha ht
    rcases perform_cases (s := a) (hes e he) with ⟨p, rfl, hp⟩ | ⟨v, rfl, hp⟩ | ⟨ev, rfl, -, -, hp⟩ |
      ⟨ev, rfl, -, -, -, hp⟩ | ⟨rfl, -, hp⟩ | ⟨rfl, -, hp⟩ <;> rw [hp] at ht <;> simp at ht <;> subst ht <;>
      first | exact ha | exact fillFb_wf a v
  exact runElems_keeps (fun t => Memory.wf t.cfg t.fb) op es s
    (fun e he a t ha ht => key e he a t ha (.inl ht)) (fun e he a t ha ht => key e he a t ha (.inr (.inl ht)))
    (fun e he a t ha ht => key e he a t ha (.inr (.inr ht))) (fun _ ha => ha) h

end Sys2Proof.Machine
end

