-- ==== Sys2Proof/Laws/Step.lean ====
section
/-! SUPPORT. What one step can do, said once: which case holds, and what it answers. -/

namespace Sys2Proof

/-- The configuration check holds exactly where the constraints do. -/
theorem Config.wf_iff (c : Config) : c.wf = true ↔ c.Ok := by simp only [Config.wf, decide_eq_true_eq]

end Sys2Proof

namespace Sys2Proof.Machine

theorem step_bad {s : State} (hc : s.cfg.wf = false) : step s = .refused .badConfiguration := by simp [step, hc]

theorem step_inProgress {s : State} {op : SeqOp} (hc : s.cfg.wf = true) (h : s.cur = some op) :
    step s = .next (resumeSeq op s) := by simp [step, hc, h]

theorem step_waiting {s : State} (hc : s.cfg.wf = true) (h : s.cur = none) (hp : s.reqPort = []) : step s = .next s := by
  simp [step, hc, h, takeRequest, hp]

theorem step_request {s : State} {w : Req} {rest : List Req} {i : Instr} (hc : s.cfg.wf = true) (h : s.cur = none)
    (hp : s.reqPort = w :: rest) (hd : decode w = .ok i) : step s = exec i { s with reqPort := rest } := by
  simp [step, hc, h, takeRequest, hp, hd]

theorem step_illegal {s : State} {w : Req} {rest : List Req} {e : DecodeError} (hc : s.cfg.wf = true)
    (h : s.cur = none) (hp : s.reqPort = w :: rest) (hd : decode w = .error e) :
    step s = .next (raiseIllegal { s with reqPort := rest }) := by
  simp [step, hc, h, takeRequest, hp, hd]

/-- Everything a step that answers a next state can have done. -/
theorem step_cases {s t : State} (h : step s = .next t) :
    s.cfg.wf = true ∧
    ((∃ op, s.cur = some op ∧ t = resumeSeq op s) ∨
     (s.cur = none ∧ s.reqPort = [] ∧ t = s) ∨
     (∃ w rest i, s.cur = none ∧ s.reqPort = w :: rest ∧ decode w = .ok i ∧
       exec i { s with reqPort := rest } = .next t) ∨
     (∃ w rest e, s.cur = none ∧ s.reqPort = w :: rest ∧ decode w = .error e ∧
       t = raiseIllegal { s with reqPort := rest })) := by
  cases hc : s.cfg.wf with
  | false => rw [step_bad hc] at h; cases h
  | true =>
    refine ⟨rfl, ?_⟩
    cases hcur : s.cur with
    | some op =>
      rw [step_inProgress hc hcur] at h
      exact .inl ⟨op, rfl, by cases h; rfl⟩
    | none =>
      cases hp : s.reqPort with
      | nil =>
        rw [step_waiting hc hcur hp] at h
        exact .inr (.inl ⟨rfl, rfl, by cases h; rfl⟩)
      | cons w rest =>
        cases hd : decode w with
        | ok i =>
          rw [step_request hc hcur hp hd] at h
          exact .inr (.inr (.inl ⟨w, rest, i, rfl, rfl, hd, by simpa [hcur] using h⟩))
        | error e =>
          rw [step_illegal hc hcur hp hd] at h
          exact .inr (.inr (.inr ⟨w, rest, e, rfl, rfl, hd, by simpa [hcur] using h.symm⟩))

/-- The meaning of a sequencer instruction runs its script. -/
theorem exec_seq (op : SeqOp) (s : State) : exec op.instr s = .next (runSeq op s) := by cases op <;> rfl

end Sys2Proof.Machine
end

