-- ==== Sys2Proof/Laws/Exec.lean ====
section
/-! SUPPORT. What a request does as a whole: the layout of every response word, everything a request outside the sequencer can do, what a sequencer request keeps and answers, and how a run goes on. -/

namespace Sys2Proof.Machine

theorem next_inj {a b : State} (h : (Host.Outcome.next a : Host.Outcome State Fault Refusal) = .next b) : a = b := by
  cases h; rfl

/-- A run of n + 1 steps is a step and a run of n. -/
theorem run_next {s t : State} (n : Nat) (h : step s = .next t) :
    Host.Core.run Sys2Proof.core (n + 1) s = Host.Core.run Sys2Proof.core n t := by
  have hh : Sys2Proof.core.step s = .next t := h
  simp [Host.Core.run, hh]

/-- Every response word has zero in bits [7:4] and one of the four status codes. -/
theorem respWord_layout (st : Status) (v : BitVec 24) :
    (respWord st v).extractLsb' 4 4 = 0 ∧ ((respWord st v).extractLsb' 0 4).toNat ≤ 3 := by
  have h1 : (respWord st v).extractLsb' 0 4 = st.code := by
    apply BitVec.eq_of_getLsbD_eq; intro i hi
    rw [BitVec.getLsbD_extractLsb']
    show (decide (i < 4) && ((v ++ 0#4 : BitVec 28) ++ st.code).getLsbD (0 + i)) = _
    rw [BitVec.getLsbD_append]; simp [hi]
  have h2 : (respWord st v).extractLsb' 4 4 = 0 := by
    apply BitVec.eq_of_getLsbD_eq; intro i hi
    rw [BitVec.getLsbD_extractLsb']
    show (decide (i < 4) && ((v ++ 0#4 : BitVec 28) ++ st.code).getLsbD (4 + i)) = _
    rw [BitVec.getLsbD_append, BitVec.getLsbD_append]; simp [hi]
  exact ⟨h2, by rw [h1]; cases st <;> decide⟩

theorem seq_or_not (i : Instr) : (∃ op, i = SeqOp.instr op) ∨ (∀ op, i ≠ SeqOp.instr op) := by
  by_cases h : ∃ op, i = SeqOp.instr op
  · exact .inl h
  · exact .inr (by simpa using h)

/-- What a request outside the sequencer can have done: one response, no change of the control state, at most one BUSY
event, and a write of the framebuffer, ROT or BG only by the requests that write them. -/
structure NotSeqEffect (i : Instr) (s t : State) : Prop where
  rsps : ∃ st v d, t.rsps = s.rsps ++ [⟨respWord st v, d⟩]
  cur : t.cur = s.cur
  phase : t.phase = s.phase
  protoErr : t.protoErr = s.protoErr
  xportErr : t.xportErr = s.xportErr
  dcLevel : t.dcLevel = s.dcLevel
  rstLevel : t.rstLevel = s.rstLevel
  cfg : t.cfg = s.cfg
  reqPort : t.reqPort = s.reqPort
  stepIx : t.stepIx = s.stepIx
  curLegal : t.curLegal = s.curLegal
  trace : t.trace = s.trace ∨ (i = .isBusy ∧ ∃ v, t.trace = s.trace ++ [.busy v])
  refined : s.refined <+: t.refined
  refinedKept : i ≠ .isBusy → t.refined = s.refined
  fb : t.fb ≠ s.fb → (∃ c, i = .fbClear c) ∨ (∃ x y c, i = .fbSetPixel x y c)
  rot : t.rot ≠ s.rot → ∃ r, i = .fbSetRotation r
  bg : t.bg ≠ s.bg → ∃ c, i = .pcSetBackground c
  memory : Memory.wf s.cfg s.fb → Memory.wf s.cfg t.fb

/-- A request that only responds. -/
theorem NotSeqEffect.responds (i : Instr) (s : State) (st : Status) (v : BitVec 24) (d : List Byte) :
    NotSeqEffect i s (respondData st v d s) :=
  ⟨⟨st, v, d, rfl⟩, rfl, rfl, rfl, rfl, rfl, rfl, rfl, rfl, rfl, rfl, .inl rfl, List.prefix_rfl, fun _ => rfl,
    fun h => absurd rfl h, fun h => absurd rfl h, fun h => absurd rfl h, id⟩

/-- Everything a request outside the sequencer can do. -/
theorem exec_notSeq {i : Instr} {s t : State} (hi : ∀ op, i ≠ SeqOp.instr op) (h : exec i s = .next t) :
    NotSeqEffect i s t := by
  cases i with
  | pcReset => exact absurd rfl (hi .reset)
  | pcInitialize => exact absurd rfl (hi .initPanel)
  | pcWakeUp => exact absurd rfl (hi .wakeUp)
  | pcUpdateFrame => exact absurd rfl (hi .updateFrame)
  | pcDisplayFrame => exact absurd rfl (hi .displayFrame)
  | pcUpdateAndDisplayFrame => exact absurd rfl (hi .updateAndDisplayFrame)
  | pcClearFrame => exact absurd rfl (hi .clearFrame)
  | pcPowerOff => exact absurd rfl (hi .powerOff)
  | pcSleep => exact absurd rfl (hi .sleep)
  | fbClear c =>
    cases next_inj h
    exact { NotSeqEffect.responds _ s .ok 0 [] with fb := fun _ => .inl ⟨c, rfl⟩, memory := fun _ => fillFb_wf s _ }
  | fbSetRotation r =>
    cases next_inj h
    exact { NotSeqEffect.responds _ s .ok 0 [] with rot := fun _ => ⟨r, rfl⟩ }
  | pcSetBackground c =>
    cases next_inj h
    exact { NotSeqEffect.responds _ s .ok 0 [] with bg := fun _ => ⟨c, rfl⟩ }
  | isBusy =>
    change execIsBusy s = _ at h
    unfold execIsBusy at h; rw [poll_eq] at h
    cases next_inj h
    exact ⟨⟨_, _, _, rfl⟩, rfl, rfl, rfl, rfl, rfl, rfl, rfl, rfl, rfl, rfl, .inr ⟨rfl, _, rfl⟩,
      List.prefix_append _ _, fun h => absurd rfl h, fun h => absurd rfl h, fun h => absurd rfl h, fun h => absurd rfl h, id⟩
  | fbSetPixel x y c =>
    change execFbSetPixel x y c s = _ at h
    unfold execFbSetPixel at h
    split_ifs at h with hb
    · unfold State.readFb at h
      split_ifs at h with hlt
      · cases next_inj h
        exact { NotSeqEffect.responds _ s .ok 0 [] with
          fb := fun _ => .inr ⟨x, y, c, rfl⟩, memory := writeFb_wf _ hlt }
      · cases next_inj h; exact NotSeqEffect.responds _ s _ _ _
    · cases next_inj h; exact NotSeqEffect.responds _ s _ _ _
  | fromCode a =>
    change execFromCode a s = _ at h
    unfold execFromCode at h
    split at h <;> cases next_inj h <;> exact NotSeqEffect.responds _ s _ _ _
  | unpack a =>
    change execUnpack a s = _ at h
    unfold execUnpack at h
    split at h <;> (try split at h) <;> cases next_inj h <;> exact NotSeqEffect.responds _ s _ _ _
  | toCode c => cases next_inj h; exact NotSeqEffect.responds _ s _ _ _
  | pack hi lo => cases next_inj h; exact NotSeqEffect.responds _ s _ _ _
  | nearest r g b => cases next_inj h; exact NotSeqEffect.responds _ s _ _ _
  | fbAsBytes => cases next_inj h; exact NotSeqEffect.responds _ s _ _ _
  | readStatus => cases next_inj h; exact NotSeqEffect.responds _ s _ _ _

/-! ### Sequencer requests -/

theorem resume_plain (op : SeqOp) (s : State) : ∀ e ∈ (script op s).drop s.stepIx, e.plain = true :=
  fun e he => script_plain op s e (List.mem_of_mem_drop he)

/-- A sequencer request, taken from the port, has answered exactly once and is over, or waits in CUR. -/
theorem runSeq_responds (op : SeqOp) (s : State) :
    ((runSeq op s).cur = none ∧ ∃ st, (runSeq op s).rsps = s.rsps ++ [⟨respWord st 0, []⟩]) ∨
    ((runSeq op s).cur = some op ∧ (runSeq op s).curLegal = legalFrom op s.phase ∧ (runSeq op s).rsps = s.rsps) := by
  rcases runElems_responds op (script op s) (acceptSeq op s) (script_plain op s) with h | h
  · exact .inl ⟨h.1, h.2.2.2⟩
  · exact .inr ⟨h.1, h.2.1, h.2.2.1⟩

theorem runSeq_frame (op : SeqOp) (s : State) : (runSeq op s).rot = s.rot ∧ (runSeq op s).bg = s.bg ∧
    (runSeq op s).reqPort = s.reqPort ∧ (runSeq op s).cfg = s.cfg :=
  runElems_frame op (script op s) (acceptSeq op s) (script_plain op s)

/-- A run goes on with its responses kept. -/
theorem runElems_rsps (op : SeqOp) (es : List Elem) (s : State) (hes : ∀ e ∈ es, e.plain = true) :
    s.rsps <+: (runElems op es s).rsps := by
  rcases runElems_responds op es s hes with ⟨-, -, -, st, h⟩ | ⟨-, -, h, -⟩ <;> rw [h]
  · exact List.prefix_append _ _

/-- A request that stands at a busy-wait and polls busy sends the poll and its delay, and stands there still. -/
theorem resumeSeq_busy {op : SeqOp} {s : State} (h : (script op s)[s.stepIx]? = some .waitBusy)
    (hb : s.pollAnswer 0 = true) : resumeSeq op s = afterEvents s (.busy true :: pollDelayEvents s.cfg) := by
  unfold resumeSeq
  obtain ⟨hl, he⟩ := List.getElem?_eq_some_iff.1 h
  rw [List.drop_eq_getElem_cons hl, he]
  unfold runElems; rw [perform_waitBusy, hb]; rfl

/-- Sending events before completing is completing with the events before. -/
theorem completed_afterEvents (s : State) (a b : List Event) (l : Bool) (p : Phase) :
    completed (afterEvents s a) b l p = completed s (a ++ b) l p := by
  unfold completed; rw [afterEvents_append]; rfl

end Sys2Proof.Machine
end

