-- ==== Sys2Proof/Laws/Hold.lean ====
section
/-! SUPPORT. A request that stands at a busy-wait: what it does while its polls answer busy, and where it goes on to. -/

namespace Sys2Proof.Machine

theorem polls_busyRounds (c : Config) (n : Nat) : polls (busyRounds c n) = n := by
  induction n with
  | zero => rfl
  | succ n ih =>
    show polls ((.busy true :: pollDelayEvents c) ++ busyRounds c n) = _
    rw [polls_append, (busyRound_counts c).1, ih, Nat.add_comm]

theorem failables_busyRounds (c : Config) (n : Nat) : failables (busyRounds c n) = 0 := by
  induction n with
  | zero => rfl
  | succ n ih =>
    show failables ((.busy true :: pollDelayEvents c) ++ busyRounds c n) = _
    rw [failables_append, (busyRound_counts c).2, ih]

/-- A request that stands at a busy-wait has no fill left to perform. -/
theorem heldAt_keepsFb {op : SeqOp} {s : State} (h : (script op s)[s.stepIx]? = some .waitBusy) :
    ∀ e ∈ (script op s).drop s.stepIx, e.keepsFb = true := by
  by_cases hw : op = .clearFrame ∧ s.cfg.clearFrameWritesFb = true
  · obtain ⟨rfl, hw⟩ := hw
    have hs : script .clearFrame s = .fillFb (packByte s.bg s.bg) ::
        (updateScript s.cfg s.bg (List.replicate s.cfg.fbLen (packByte s.bg s.bg)) ++ displayScript s.cfg) := by
      simp [script, hw]
    rw [hs] at h ⊢
    cases hk : s.stepIx with
    | zero => rw [hk] at h; simp at h
    | succ k => exact fun e he => updateDisplay_keepsFb _ _ _ e (List.mem_of_mem_drop he)
  · intro e he
    have he := List.mem_of_mem_drop he
    by_cases h2 : op = .clearFrame
    · subst h2
      have hw : s.cfg.clearFrameWritesFb = false := by simpa using hw
      apply updateDisplay_keepsFb s.cfg s.bg (List.replicate s.cfg.fbLen (packByte s.bg s.bg)) e
      simpa [script, hw] using he
    · exact script_keepsFb op s h2 e he

/-- A request that stands at a busy-wait and polls busy sends the poll and its delay, and stands there still. -/
theorem heldAt_busy {op : SeqOp} {s : State} (h : HeldAt op s) (hb : s.pollAnswer 0 = true) :
    step s = .next (afterEvents s (.busy true :: pollDelayEvents s.cfg)) ∧
    HeldAt op (afterEvents s (.busy true :: pollDelayEvents s.cfg)) :=
  ⟨(step_inProgress h.1 h.2.1).trans (congrArg _ (resumeSeq_busy h.2.2 hb)), h⟩

/-- A request in progress that meets no failure and no busy answer sends the events that remain, and is over. -/
theorem resumeSeq_completes {op : SeqOp} {s : State} (h : (script op s)[s.stepIx]? = some .waitBusy)
    (ht : TransportOk s (failables (remainingEvents op s))) (hb : NotBusy s (polls (remainingEvents op s))) :
    resumeSeq op s = finishSeq op (afterEvents s (remainingEvents op s)) :=
  runElems_quiet op _ s (resume_plain op s) (heldAt_keepsFb h) ht hb

/-- A request in progress whose k-th failable event from STEP on fails sends the events up to it, and is over. -/
theorem resumeSeq_fails {op : SeqOp} {s : State} {k : Nat} (h : (script op s)[s.stepIx]? = some .waitBusy)
    (hk : k < failables (remainingEvents op s)) (ht : TransportOk s k) (hf : s.xportAnswer k = false)
    (hb : NotBusy s (polls (upToFailable k (remainingEvents op s)))) :
    ∃ p n, resumeSeq op s =
      raiseTransportError { afterEvents s (upToFailable k (remainingEvents op s)) with phase := p, stepIx := n } :=
  runElems_fails op _ s k (resume_plain op s) (heldAt_keepsFb h) hk ht hf hb

/-- Elements that meet no failure and no busy answer before a busy-wait that polls busy: the request stands there. -/
theorem runElems_waits (op : SeqOp) (rest es : List Elem) (s : State) (hp : ∀ e ∈ es, e.plain = true)
    (hn : ∀ e ∈ es, e.keepsFb = true) (ht : TransportOk s (failables (elemEvents es)))
    (hb : NotBusy s (polls (elemEvents es))) (hw : s.pollAnswer (polls (elemEvents es)) = true) :
    runElems op (es ++ .waitBusy :: rest) s =
      { afterEvents s (elemEvents es ++ .busy true :: pollDelayEvents s.cfg) with
        phase := phaseAfter s.phase es, stepIx := s.stepIx + es.length } := by
  rw [runElems_prefix op _ es s hp hn ht hb, ← afterEvents_append]
  unfold runElems
  rw [perform_waitBusy, if_pos (by exact (afterEvents_pollAnswer s (elemEvents es) 0).trans hw)]
  rfl

end Sys2Proof.Machine
end

