-- ==== Sys2Proof/Laws/Invariant.lean ====
section
/-! SUPPORT. What running the elements that remain of a script keeps of the invariant: the agreement of CUR, STEP and PHASE, the recorded line levels, and the wire discipline. -/

namespace Sys2Proof.Machine

/-! ### The control state -/

/-- The phases a script sets are the phases its request holds. -/
theorem script_phases (op : SeqOp) (s : State) : ∀ p, Elem.setPhase p ∈ script op s → p ∈ heldPhases op := by
  intro p hp
  have hcmd : ∀ c n q, Elem.setPhase p ∉ cmdElems c n q := by
    intro c n q; cases q <;> simp [cmdElems]
  have hinit : Elem.setPhase p ∉ initCmds s.cfg s.bg := by simp [initCmds, hcmd]
  have hload : ∀ f, Elem.setPhase p ∉ loadElems s.cfg s.bg f := by intro f; simp [loadElems, hcmd]
  have href : Elem.setPhase p ∉ refreshElems s.cfg := by simp [refreshElems, hcmd]
  cases op <;>
    simp [script, initializeScript, updateScript, displayScript, resetPulse, hinit, hload, href, hcmd] at hp <;>
    simp [heldPhases, hp]

/-- The first SetPhase of a list stands before its first busy-wait. -/
def setsPhaseFirst : List Elem → Bool
  | [] => true
  | .setPhase _ :: _ => true
  | .waitBusy :: _ => false
  | .emit _ :: es => setsPhaseFirst es
  | .fillFb _ :: es => setsPhaseFirst es

theorem script_setsPhaseFirst (op : SeqOp) (s : State) : setsPhaseFirst (script op s) = true := by
  cases op <;> try rfl
  simp only [script]; split_ifs <;> rfl

/-- A request that runs ends, or stands at a busy-wait of its script in a phase it holds. -/
theorem runElems_control (op : SeqOp) (full : List Elem) (hph : ∀ p, Elem.setPhase p ∈ full → p ∈ heldPhases op)
    (es : List Elem) (s : State) (hes : ∀ e ∈ es, e.plain = true) (hd : full.drop s.stepIx = es)
    (hp : s.phase ∈ heldPhases op ∨ setsPhaseFirst es = true) :
    (runElems op es s).cur = none ∨
      (full[(runElems op es s).stepIx]? = some .waitBusy ∧ (runElems op es s).phase ∈ heldPhases op) := by
  induction es generalizing s with
  | nil => left; rfl
  | cons e es ih =>
    have hes' := fun e he => hes e (List.mem_cons_of_mem _ he)
    have hd' : full.drop (s.stepIx + 1) = es := by rw [← List.tail_drop, hd]; rfl
    have hget : full[s.stepIx]? = some e := by rw [← List.head?_drop, hd]; rfl
    rcases perform_cases (s := s) (hes e List.mem_cons_self) with ⟨p, rfl, hpf⟩ | ⟨v, rfl, hpf⟩ | ⟨ev, rfl, -, -, hpf⟩ |
      ⟨ev, rfl, -, -, -, hpf⟩ | ⟨rfl, -, hpf⟩ | ⟨rfl, -, hpf⟩ <;> unfold runElems <;> rw [hpf] <;> dsimp only
    · exact ih _ hes' hd' (.inl (hph p (List.mem_of_getElem? hget)))
    · exact ih _ hes' hd' (hp.imp id (fun h => h))
    · exact ih _ hes' hd' (hp.imp id (fun h => h))
    · left; rfl
    · exact ih _ hes' hd' (hp.imp id (fun h => by simp [setsPhaseFirst] at h))
    · exact .inr ⟨hget, hp.resolve_right (by simp [setsPhaseFirst])⟩

/-- Running a request's elements does not change what its script is. -/
theorem script_runElems (op : SeqOp) (es : List Elem) (s : State) (hes : ∀ e ∈ es, e.plain = true)
    (hn : op = .clearFrame ∨ ∀ e ∈ es, e.keepsFb = true) : script op (runElems op es s) = script op s := by
  obtain ⟨-, h2, -, h4⟩ := runElems_frame op es s hes
  have hb : op = .clearFrame ∨ (runElems op es s).fbBytes = s.fbBytes :=
    hn.imp id (fun hn => by unfold State.fbBytes State.fbByte; rw [runElems_fb _ es s hes hn, h4])
  cases op <;> simp only [script, h2, h4]
  all_goals
    rcases hb with hb | hb
    · cases hb
    · rw [hb]

/-! ### The wire -/

/-- The bytes a list of elements sends from a line level are sent with the line driven, and a byte sent with it low is
a wire command. -/
def SendsFrom (c : Config) : LineLevel → List Elem → Prop
  | _, [] => True
  | _, .emit (.dc b) :: es => SendsFrom c (.ofBool b) es
  | l, .emit (.tx b) :: es => l ≠ .undriven ∧ (l = .low → ∃ n : CmdName, b = c.cmd.byte n) ∧ SendsFrom c l es
  | l, _ :: es => SendsFrom c l es

/-- Behind every busy-wait of the list, whatever level the line has there. -/
def SendsAfterWait (c : Config) : List Elem → Prop
  | [] => True
  | .waitBusy :: es => (∀ l, SendsFrom c l es) ∧ SendsAfterWait c es
  | _ :: es => SendsAfterWait c es

theorem sendsFrom_payload (c : Config) (p : List Byte) (es : List Elem) :
    SendsFrom c .high (p.map (fun b => Elem.emit (.tx b)) ++ es) ↔ SendsFrom c .high es := by
  induction p with
  | nil => rfl
  | cons b p ih => simp [SendsFrom, ih]

theorem sendsFrom_cmd {c : Config} {es : List Elem} (n : CmdName) (p : List Byte) (l : LineLevel)
    (h : ∀ l, SendsFrom c l es) : SendsFrom c l (cmdElems c n p ++ es) := by
  cases p with
  | nil => simp [cmdElems, SendsFrom, LineLevel.ofBool, h]
  | cons b p => simp [cmdElems, SendsFrom, LineLevel.ofBool, sendsFrom_payload, h]

theorem sendsAfterWait_cmd (c : Config) (n : CmdName) (p : List Byte) (es : List Elem) :
    SendsAfterWait c (cmdElems c n p ++ es) ↔ SendsAfterWait c es := by
  cases p with
  | nil => simp [cmdElems, SendsAfterWait]
  | cons b p =>
    simp [cmdElems, SendsAfterWait]
    induction p with
    | nil => rfl
    | cons b p ih => simp [SendsAfterWait, ih]

theorem sendsAfterWait_cmdElems (c : Config) (n : CmdName) (p : List Byte) : SendsAfterWait c (cmdElems c n p) := by
  have := sendsAfterWait_cmd c n p []
  simp [SendsAfterWait] at this
  exact this

/-- Every script sends its bytes so, from any level. -/
theorem sendsFrom_script (op : SeqOp) (s : State) (l : LineLevel) : SendsFrom s.cfg l (script op s) := by
  have hdis : ∀ l, SendsFrom s.cfg l (displayScript s.cfg) := by
    intro l
    simp [displayScript, refreshElems, cmdElems, SendsFrom, LineLevel.ofBool, CmdBytes.byte]
    exact ⟨⟨.pon, rfl⟩, ⟨.drf, rfl⟩, ⟨.pof, rfl⟩⟩
  have hnil : ∀ l, SendsFrom s.cfg l [] := fun _ => trivial
  have hload : ∀ f es, (∀ l, SendsFrom s.cfg l es) → ∀ l, SendsFrom s.cfg l (loadElems s.cfg s.bg f ++ es) := by
    intro f es h l
    simp only [loadElems, List.append_assoc]
    exact sendsFrom_cmd _ _ _ fun _ => sendsFrom_cmd _ _ _ fun _ => sendsFrom_cmd _ _ _ fun _ => sendsFrom_cmd _ _ _ h
  have hinit : ∀ l, SendsFrom s.cfg l (initCmds s.cfg s.bg) := by
    intro l
    rw [← List.append_nil (initCmds s.cfg s.bg)]
    simp only [initCmds, List.append_assoc]
    iterate 11 (refine sendsFrom_cmd _ _ _ fun _ => ?_)
    trivial
  cases op with
  | reset => simp [script, resetPulse, SendsFrom]
  | initPanel => simpa [script, initializeScript, resetPulse, SendsFrom] using hinit l
  | wakeUp => simpa [script, initializeScript, resetPulse, SendsFrom] using hinit l
  | updateFrame => have := hload s.fbBytes [] hnil l; simpa [script, updateScript, SendsFrom] using this
  | displayFrame => exact hdis l
  | updateAndDisplayFrame => have := hload s.fbBytes _ hdis l; simpa [script, updateScript, SendsFrom] using this
  | clearFrame =>
    have := hload (List.replicate s.cfg.fbLen (packByte s.bg s.bg)) _ hdis l
    simp only [script]; split_ifs <;> simpa [updateScript, SendsFrom] using this
  | powerOff => have := sendsFrom_cmd .pof [] l hnil; simpa [script] using this
  | sleep => have := sendsFrom_cmd .dslp [0xA5] l hnil; simpa [script] using this

theorem sendsAfterWait_script (op : SeqOp) (s : State) : SendsAfterWait s.cfg (script op s) := by
  have hd : ∀ l, SendsFrom s.cfg l (displayScript s.cfg) := sendsFrom_script .displayFrame s
  have hda : SendsAfterWait s.cfg (displayScript s.cfg) := by
    simp [displayScript, refreshElems, cmdElems, SendsFrom, LineLevel.ofBool, CmdBytes.byte, SendsAfterWait]
    exact ⟨fun _ => ⟨⟨.pon, rfl⟩, ⟨.drf, rfl⟩, ⟨.pof, rfl⟩⟩, fun _ => ⟨⟨.drf, rfl⟩, ⟨.pof, rfl⟩⟩, fun _ => ⟨.pof, rfl⟩⟩
  have hinit : SendsAfterWait s.cfg (initializeScript s.cfg s.bg) := by
    have h1 : SendsAfterWait s.cfg (initCmds s.cfg s.bg) := by
      simp [initCmds, sendsAfterWait_cmd, sendsAfterWait_cmdElems]
    have h2 := fun l => sendsFrom_script .initPanel s l
    simp only [script, initializeScript, resetPulse, SendsFrom, List.cons_append, List.nil_append] at h2
    simp only [initializeScript, resetPulse, SendsAfterWait, List.cons_append, List.nil_append, h1, and_true]
    intro l; exact h2 l
  have hupd : ∀ f es, SendsAfterWait s.cfg es → (∀ l, SendsFrom s.cfg l (loadElems s.cfg s.bg f ++ es)) →
      SendsAfterWait s.cfg (updateScript s.cfg s.bg f ++ es) := by
    intro f es h h2
    simp only [updateScript, SendsAfterWait, List.cons_append, List.nil_append]
    exact ⟨h2, by simp [loadElems, sendsAfterWait_cmd, h]⟩
  cases op with
  | reset => simp [script, resetPulse, SendsFrom, SendsAfterWait]
  | initPanel => exact hinit
  | wakeUp => exact hinit
  | updateFrame =>
    have h2 := fun l => sendsFrom_script .updateFrame s l
    have := hupd s.fbBytes [] trivial (fun l => by simpa [script, updateScript, SendsFrom] using h2 l)
    simpa [script] using this
  | displayFrame => exact hda
  | updateAndDisplayFrame =>
    have h2 := fun l => sendsFrom_script .updateAndDisplayFrame s l
    exact hupd s.fbBytes _ hda (fun l => by simpa [script, updateScript, SendsFrom] using h2 l)
  | clearFrame =>
    have h2 := fun l => sendsFrom_script .clearFrame s l
    have := hupd (List.replicate s.cfg.fbLen (packByte s.bg s.bg)) _ hda (fun l => by
      have := h2 l; simp only [script] at this; split_ifs at this <;> simpa [updateScript, SendsFrom] using this)
    simp only [script]; split_ifs <;> simpa [SendsAfterWait] using this
  | powerOff => exact sendsAfterWait_cmdElems _ _ _
  | sleep => exact sendsAfterWait_cmdElems _ _ _

/-- What remains of a script from a busy-wait on sends its bytes so, from any level. -/
theorem sendsFrom_drop {c : Config} (full : List Elem) (k : Nat) (h : SendsAfterWait c full)
    (hk : full[k]? = some .waitBusy) (l : LineLevel) : SendsFrom c l (full.drop k) := by
  induction full generalizing k with
  | nil => simp at hk
  | cons e es ih =>
    cases k with
    | zero => simp at hk; subst hk; exact h.1 l
    | succ k =>
      cases e with
      | waitBusy => exact ih k h.2 hk
      | _ => exact ih k h hk

theorem afterEvents_lines {s : State} (evs : List Event) (h : LinesMatchTrace s) :
    LinesMatchTrace (afterEvents s evs) := by
  refine ⟨?_, ?_⟩
  · show lastDc s.dcLevel evs = lastDc .undriven (s.trace ++ evs); rw [lastDc_append, ← h.1]
  · show lastRst s.rstLevel evs = lastRst .undriven (s.trace ++ evs); rw [lastRst_append, ← h.2]

theorem afterEvents_wire {s : State} {evs : List Event} (hl : LinesMatchTrace s) (hw : WireOk s)
    (he : ∀ p ∈ taggedBytes s.dcLevel evs, p.1 ≠ .undriven ∧ (p.1 = .low → ∃ n : CmdName, p.2 = s.cfg.cmd.byte n)) :
    WireOk (afterEvents s evs) := by
  intro p hp
  change p ∈ taggedBytes .undriven (s.trace ++ evs) at hp
  rw [taggedBytes_append, ← hl.1] at hp
  rcases List.mem_append.1 hp with hp | hp
  · exact hw p hp
  · exact he p hp

/-- A run whose elements send their bytes so keeps the recorded levels and the wire discipline. -/
theorem runElems_wire (op : SeqOp) (es : List Elem) (s : State) (hes : ∀ e ∈ es, e.plain = true)
    (hs : SendsFrom s.cfg s.dcLevel es) (hl : LinesMatchTrace s) (hw : WireOk s) :
    LinesMatchTrace (runElems op es s) ∧ WireOk (runElems op es s) := by
  induction es generalizing s with
  | nil => exact ⟨hl, hw⟩
  | cons e es ih =>
    have hes' := fun e he => hes e (List.mem_cons_of_mem _ he)
    have hev : ∀ ev, e = .emit ev →
        (∀ p ∈ taggedBytes s.dcLevel [ev], p.1 ≠ .undriven ∧ (p.1 = .low → ∃ n : CmdName, p.2 = s.cfg.cmd.byte n)) ∧
          SendsFrom s.cfg (lastDc s.dcLevel [ev]) es := by
      rintro ev rfl
      cases ev with
      | tx b => refine ⟨fun p hp => ?_, hs.2.2⟩; simp [taggedBytes] at hp; subst hp; exact ⟨hs.1, hs.2.1⟩
      | dc b => exact ⟨fun p hp => by simp [taggedBytes] at hp, hs⟩
      | _ => exact ⟨fun p hp => by simp [taggedBytes] at hp, hs⟩
    rcases perform_cases (s := s) (hes e List.mem_cons_self) with ⟨p, rfl, hpf⟩ | ⟨v, rfl, hpf⟩ | ⟨ev, rfl, -, -, hpf⟩ |
      ⟨ev, rfl, -, -, -, hpf⟩ | ⟨rfl, -, hpf⟩ | ⟨rfl, -, hpf⟩ <;> unfold runElems <;> rw [hpf] <;> dsimp only
    · exact ih { s with phase := p, stepIx := s.stepIx + 1 } hes' hs hl hw
    · exact ih { s.fillFb v with stepIx := s.stepIx + 1 } hes' hs hl hw
    · obtain ⟨h1, h2⟩ := hev ev rfl
      exact ih { afterEvents s [ev] with stepIx := s.stepIx + 1 } hes' h2 (afterEvents_lines [ev] hl)
        (afterEvents_wire hl hw h1)
    · exact ⟨afterEvents_lines [ev] hl, afterEvents_wire hl hw (hev ev rfl).1⟩
    · exact ih { afterEvents s [.busy false] with stepIx := s.stepIx + 1 } hes' hs (afterEvents_lines _ hl)
        (afterEvents_wire (evs := [.busy false]) hl hw (fun p hp => by simp [taggedBytes] at hp))
    · refine ⟨afterEvents_lines _ hl, afterEvents_wire hl hw (fun p hp => ?_)⟩
      unfold pollDelayEvents at hp
      split at hp <;> simp [taggedBytes] at hp

end Sys2Proof.Machine
end

