-- ==== Sys2Proof/Laws/PerInstr.lean ====
section
/-! SUPPORT. The per-instruction family EncodeFields: one lemma per constructor of Instr. -/

namespace Sys2Proof.Laws.EncodeFields

/-- The family: an instruction's word carries its operation's opcode (30_encoding.md R93), and every zero field of the
operation's format is zero in it (R92). -/
def Statement (i : Instr) : Prop :=
  fieldOpc (encode i) = opcodeOf (opOf i) ∧ zeroFieldsOk (formatOf (opOf i)) (encode i) = true

theorem toCode (c : Color) : Statement (.toCode c) := by
  simp [Statement, encode, opOf, formatOf, zeroFieldsOk, colorByte_high]
theorem fromCode (a : Byte) : Statement (.fromCode a) := by
  simp [Statement, encode, opOf, formatOf, zeroFieldsOk]
theorem pack (hi lo : Color) : Statement (.pack hi lo) := by
  simp [Statement, encode, opOf, formatOf, zeroFieldsOk, colorByte_high]
theorem unpack (a : Byte) : Statement (.unpack a) := by
  simp [Statement, encode, opOf, formatOf, zeroFieldsOk]
theorem nearest (r g b : Byte) : Statement (.nearest r g b) := by
  simp [Statement, encode, opOf, formatOf, zeroFieldsOk]
theorem fbClear (c : Color) : Statement (.fbClear c) := by
  simp [Statement, encode, opOf, formatOf, zeroFieldsOk, colorByte_high]
theorem fbSetRotation (r : Rotation) : Statement (.fbSetRotation r) := by
  simp [Statement, encode, opOf, formatOf, zeroFieldsOk, rotationByte_high]
theorem fbSetPixel (x y : Int) (c : Color) : Statement (.fbSetPixel x y c) := by
  simp [Statement, encode, opOf, formatOf, zeroFieldsOk, colorByte_high]
theorem fbAsBytes : Statement .fbAsBytes := by simp [Statement, encode, opOf, formatOf, zeroFieldsOk]
theorem pcReset : Statement .pcReset := by simp [Statement, encode, opOf, formatOf, zeroFieldsOk]
theorem pcInitialize : Statement .pcInitialize := by simp [Statement, encode, opOf, formatOf, zeroFieldsOk]
theorem pcWakeUp : Statement .pcWakeUp := by simp [Statement, encode, opOf, formatOf, zeroFieldsOk]
theorem pcUpdateFrame : Statement .pcUpdateFrame := by simp [Statement, encode, opOf, formatOf, zeroFieldsOk]
theorem pcDisplayFrame : Statement .pcDisplayFrame := by simp [Statement, encode, opOf, formatOf, zeroFieldsOk]
theorem pcUpdateAndDisplayFrame : Statement .pcUpdateAndDisplayFrame := by
  simp [Statement, encode, opOf, formatOf, zeroFieldsOk]
theorem pcClearFrame : Statement .pcClearFrame := by simp [Statement, encode, opOf, formatOf, zeroFieldsOk]
theorem pcPowerOff : Statement .pcPowerOff := by simp [Statement, encode, opOf, formatOf, zeroFieldsOk]
theorem pcSleep : Statement .pcSleep := by simp [Statement, encode, opOf, formatOf, zeroFieldsOk]
theorem pcSetBackground (c : Color) : Statement (.pcSetBackground c) := by
  simp [Statement, encode, opOf, formatOf, zeroFieldsOk, colorByte_high]
theorem isBusy : Statement .isBusy := by simp [Statement, encode, opOf, formatOf, zeroFieldsOk]
theorem readStatus : Statement .readStatus := by simp [Statement, encode, opOf, formatOf, zeroFieldsOk]

end Sys2Proof.Laws.EncodeFields
end

