-- ==== Sys2Proof/Laws/Refine.lean ====
section
/-! SUPPORT. The refined trace (43_busy_status.md R256): what a poll puts in the place of its BUSY event, that a run keeps the refinement, and that nothing but the draws and the refined trace depends on which adapter gives the busy answers. -/

namespace Sys2Proof.Machine

theorem traceRefines_append {c : Config} {a b : List Event} {fa fb : List FineEvent} (ha : TraceRefines c a fa)
    (hb : TraceRefines c b fb) : TraceRefines c (a ++ b) (fa ++ fb) := by
  induction a generalizing fa with
  | nil => cases ha; exact hb
  | cons e a ih =>
    cases e with
    | busy v =>
      obtain ⟨ps, rest, h1, rfl, h2⟩ := ha
      exact ⟨ps, rest ++ fb, h1, List.append_assoc .., ih h2⟩
    | _ =>
      obtain ⟨rest, rfl, h2⟩ := ha
      exact ⟨rest ++ fb, rfl, ih h2⟩

/-- The pin events of a poll are those of the answer it gives. -/
theorem pollPins_refines (s : State) (k : Nat) : PollRefines s.cfg (s.pollAnswer k) (s.pollPins k) := by
  unfold PollRefines State.pollAnswer State.pollPins
  cases s.cfg.busySource with
  | pin => rfl
  | shiftReg =>
    refine ⟨_, by simp, rfl, ?_⟩
    have h : (7 - s.cfg.srBusyBit : Nat) < 8 := by omega
    simp only [List.getElem?_map, List.getElem?_range h]
    simp

/-- Events whose polls have the answers that are to come refine to what the state's polls add. -/
theorem refineEvents_refines (s : State) (k : Nat) (evs : List Event)
    (h : ∀ v ∈ evs.filterMap (fun e => match e with | .busy v => some v | _ => none), v = s.pollAnswer k)
    (hp : polls evs ≤ 1) : TraceRefines s.cfg evs (refineEvents s.pollPins k evs) := by
  induction evs with
  | nil => rfl
  | cons e evs ih =>
    cases e with
    | busy v =>
      obtain rfl := h v (by simp)
      have hz : polls evs = 0 := by
        have := polls_append [.busy (s.pollAnswer k)] evs
        rw [List.singleton_append] at this
        rw [this] at hp
        have : polls [Event.busy (s.pollAnswer k)] = 1 := rfl
        omega
      refine ⟨_, _, pollPins_refines s k, rfl, ?_⟩
      have hn : ∀ j, refineEvents s.pollPins j evs = refineEvents s.pollPins k evs := by
        clear ih h hp
        intro j
        induction evs with
        | nil => rfl
        | cons e evs ih2 => cases e <;> simp_all [refineEvents, polls]
      rw [hn]
      exact ih (fun v hv => h v (List.mem_cons_of_mem _ hv)) (by omega)
    | _ =>
      refine ⟨_, rfl, ih (fun v hv => h v hv) ?_⟩
      simpa [polls] using hp

/-- Events with at most one poll, whose answer is the next one, keep the refinement. -/
theorem afterEvents_refines {s : State} (evs : List Event) (hs : TraceRefines s.cfg s.trace s.refined)
    (h : ∀ v ∈ evs.filterMap (fun e => match e with | .busy v => some v | _ => none), v = s.pollAnswer 0)
    (hp : polls evs ≤ 1) :
    TraceRefines (afterEvents s evs).cfg (afterEvents s evs).trace (afterEvents s evs).refined :=
  traceRefines_append hs (refineEvents_refines s 0 evs h hp)

/-- Running the elements that remain keeps the refinement. -/
theorem runElems_refines (op : SeqOp) (es : List Elem) (s : State) (hes : ∀ e ∈ es, e.plain = true)
    (hs : TraceRefines s.cfg s.trace s.refined) :
    TraceRefines (runElems op es s).cfg (runElems op es s).trace (runElems op es s).refined := by
  refine runElems_keeps (fun t => TraceRefines t.cfg t.trace t.refined) op es s ?_ ?_ ?_ (fun _ h => h) hs
  all_goals
    intro e he a t ha ht
    have hnb : ∀ ev : Event, (∀ v, ev ≠ .busy v) →
        TraceRefines (afterEvents a [ev]).cfg (afterEvents a [ev]).trace (afterEvents a [ev]).refined := fun ev hev =>
      afterEvents_refines [ev] ha (fun v hv => by cases ev <;> simp at hv; exact absurd rfl (hev _)) (by
        cases ev <;> simp [polls])
    rcases perform_cases (s := a) (hes e he) with ⟨p, rfl, hpf⟩ | ⟨v, rfl, hpf⟩ | ⟨ev, rfl, hb, -, hpf⟩ |
      ⟨ev, rfl, hb, -, -, hpf⟩ | ⟨rfl, hb, hpf⟩ | ⟨rfl, hb, hpf⟩ <;> rw [hpf] at ht <;> simp at ht <;> subst ht
    all_goals first
      | exact ha
      | exact hnb ev hb
      | exact afterEvents_refines _ ha (fun v hv => by simp at hv; rw [hv, hb]) (by simp [polls])
      | exact afterEvents_refines _ ha
          (fun v hv => by unfold pollDelayEvents at hv; split at hv <;> simp at hv <;> rw [hv, hb])
          (by rw [(busyRound_counts _).1])

/-! ### The adapter behind the busy answers -/

/-- With another adapter that gives the same answers to the polls the elements make, a run does the same to everything
else. -/
theorem runElems_withAdapter (op : SeqOp) (es : List Elem) (s : State) (src : BusySource) (lvl : Bool)
    (levels : List Bool) (draws : Nat) (fs : List FineEvent) (hes : ∀ e ∈ es, e.plain = true)
    (h : ∀ k < polls (elemEvents es), (withAdapter s src lvl levels draws fs).pollAnswer k = s.pollAnswer k) :
    ∃ levels' draws' fs', runElems op es (withAdapter s src lvl levels draws fs) =
      withAdapter (runElems op es s) src lvl levels' draws' fs' := by
  induction es generalizing s levels draws fs with
  | nil => exact ⟨levels, draws, fs, rfl⟩
  | cons e es ih =>
    have hes' := fun e he => hes e (List.mem_cons_of_mem _ he)
    rw [elemEvents_cons, polls_append] at h
    have go : ∀ evs, polls evs = polls e.events → ∃ levels' draws' fs', runElems op es
        { afterEvents (withAdapter s src lvl levels draws fs) evs with stepIx := s.stepIx + 1 } =
          withAdapter (runElems op es { afterEvents s evs with stepIx := s.stepIx + 1 }) src lvl levels' draws' fs' :=
      fun evs hpe => ih { afterEvents s evs with stepIx := s.stepIx + 1 } _ _ _ hes' (fun k hk => by
        have h1 : (afterEvents (withAdapter s src lvl levels draws fs) evs).pollAnswer k =
            (afterEvents s evs).pollAnswer k := by
          rw [afterEvents_pollAnswer, afterEvents_pollAnswer]; exact h _ (by omega)
        exact h1)
    cases e with
    | setPhase p =>
      exact ih { s with phase := p, stepIx := s.stepIx + 1 } levels draws fs hes' (fun k hk => h k (by omega))
    | fillFb v => exact ih { s.fillFb v with stepIx := s.stepIx + 1 } levels draws fs hes' (fun k hk => h k (by omega))
    | emit ev =>
      have hpl := hes _ List.mem_cons_self
      have hnb : ∀ v, ev ≠ .busy v := by rintro v rfl; simp [Elem.plain] at hpl
      unfold runElems
      rw [perform_emit ev _ hnb, perform_emit ev _ hnb]
      rw [show (withAdapter s src lvl levels draws fs).xportAnswer 0 = s.xportAnswer 0 from rfl]
      cases (!ev.failable || s.xportAnswer 0)
      · exact ⟨_, _, _, rfl⟩
      · exact go [ev] rfl
    | waitBusy =>
      unfold runElems
      rw [perform_waitBusy, perform_waitBusy, h 0 (by simp [Elem.events, polls])]
      cases s.pollAnswer 0
      · exact go [.busy false] rfl
      · exact ⟨_, _, _, rfl⟩

/-- No request makes more than five polls that answer not-busy. -/
theorem polls_script (op : SeqOp) (s : State) : polls (elemEvents (script op s)) ≤ 5 := by
  have hr : polls (refreshEvents s.cfg) = 4 := rfl
  have hz : polls (resetEvents s.cfg) = 1 := rfl
  rw [elemEvents_script]
  cases op <;> simp [opEvents, polls_updateEvents, polls_initEvents, polls_cmdEvents, polls_append (updateEvents ..), hr, hz]

theorem polls_drop (es : List Elem) (k : Nat) : polls (elemEvents (es.drop k)) ≤ polls (elemEvents es) := by
  conv => rhs; rw [← List.take_append_drop k es, elemEvents_append, polls_append]
  omega

end Sys2Proof.Machine
end

