-- ==== Sys2Proof/Tests/Slice0.lean ====
section
/-! SUPPORT. The model's own tests: ill-formed terms that the checks refuse, words of spec/95_test_vectors.md and what they decode to, one small request at a time with the results the vectors give, and for every statement with hypotheses a state and operands that meet them. -/

namespace Sys2Proof.Tests

open Sys2Proof Sys2Proof.Machine

/-! ### Helpers -/

/-- The state an outcome answers. -/
def nextOf (o : Host.Outcome State Fault Refusal) : Option State :=
  match o with
  | .next t => some t
  | .fault _ => none
  | .refused _ => none

/-- The last response word. -/
def lastWord (o : Host.Outcome State Fault Refusal) : Option Rsp :=
  (nextOf o).bind (fun t => t.rsps.getLast?.map (·.word))

/-- The last response's data stream. -/
def lastData (o : Host.Outcome State Fault Refusal) : Option (List Byte) :=
  (nextOf o).bind (fun t => t.rsps.getLast?.map (·.data))

def fbOf (o : Host.Outcome State Fault Refusal) : Option (List Byte) := (nextOf o).map State.fbBytes

/-- The vectors' configuration with a framebuffer content at construction. -/
def cfgFb (fb : List Byte) : Config := { Config.default with fbInit := fb }

/-- The state after block reset with a framebuffer content. -/
def withFb (fb : List Byte) : State := .resetWith (cfgFb fb)

/-- A state in a phase, with transport answers that all succeed and with the given busy answers, then not-busy. -/
def ready (fb : List Byte) (p : Phase) (busy : List Bool) : State :=
  { withFb fb with
    phase := p
    xportIn := List.replicate 100 true
    lineIn := busy ++ List.replicate 20 false }

/-- The same with the transport failing at its k-th failable event. -/
def failing (p : Phase) (k : Nat) : State :=
  { ready [0, 0, 0, 0] p [] with xportIn := List.replicate k true ++ [false] }

/-- The step from a state with one word on the port. -/
def stepWord (w : Req) (s : State) : Host.Outcome State Fault Refusal := step { s with reqPort := [w] }

/-! ### WellFormed: every check refuses an ill-formed term -/

theorem test_wf_x_above : (Instr.fbSetPixel 2147483648 0 .red).wf = false := by decide
theorem test_wf_x_below : (Instr.fbSetPixel (-2147483649) 0 .red).wf = false := by decide
theorem test_wf_y_above : (Instr.fbSetPixel 0 2147483648 .red).wf = false := by decide
theorem test_wf_y_below : (Instr.fbSetPixel 0 (-2147483649) .red).wf = false := by decide

/-! ### Decoding: words of 95_test_vectors.md, one for every row of the opcode table -/

theorem test_decode_toCode : decode 0x00000000_00000000_00000601 = .ok (.toCode .orange) := by decide
theorem test_decode_fromCode : decode 0x00000000_00000000_00001A02 = .ok (.fromCode 0x1A) := by decide
theorem test_decode_pack : decode 0x00000000_00000000_00060703 = .ok (.pack .hiZ .orange) := by decide
theorem test_decode_unpack : decode 0x00000000_00000000_00008F04 = .ok (.unpack 0x8F) := by decide
theorem test_decode_nearest : decode 0x00000000_00000000_C8966405 = .ok (.nearest 100 150 200) := by decide
theorem test_decode_fbClear : decode 0x00000000_00000000_00000110 = .ok (.fbClear .white) := by decide
theorem test_decode_fbSetRotation : decode 0x00000000_00000000_00000111 = .ok (.fbSetRotation .deg90) := by decide
theorem test_decode_fbSetPixel : decode 0x00000003_00000001_00000312 = .ok (.fbSetPixel 1 3 .blue) := by decide
theorem test_decode_fbSetPixel_extremes :
    decode 0x80000000_7FFFFFFF_00000012 = .ok (.fbSetPixel 2147483647 (-2147483648) .black) := by decide
theorem test_decode_fbAsBytes : decode 0x00000000_00000000_00000013 = .ok .fbAsBytes := by decide
theorem test_decode_pcReset : decode 0x00000000_00000000_00000020 = .ok .pcReset := by decide
theorem test_decode_pcInitialize : decode 0x00000000_00000000_00000021 = .ok .pcInitialize := by decide
theorem test_decode_pcWakeUp : decode 0x00000000_00000000_00000022 = .ok .pcWakeUp := by decide
theorem test_decode_pcUpdateFrame : decode 0x00000000_00000000_00000023 = .ok .pcUpdateFrame := by decide
theorem test_decode_pcDisplayFrame : decode 0x00000000_00000000_00000024 = .ok .pcDisplayFrame := by decide
theorem test_decode_pcUpdateAndDisplayFrame :
    decode 0x00000000_00000000_00000025 = .ok .pcUpdateAndDisplayFrame := by decide
theorem test_decode_pcClearFrame : decode 0x00000000_00000000_00000026 = .ok .pcClearFrame := by decide
theorem test_decode_pcPowerOff : decode 0x00000000_00000000_00000027 = .ok .pcPowerOff := by decide
theorem test_decode_pcSleep : decode 0x00000000_00000000_00000028 = .ok .pcSleep := by decide
theorem test_decode_pcSetBackground :
    decode 0x00000000_00000000_00000629 = .ok (.pcSetBackground .orange) := by decide
theorem test_decode_isBusy : decode 0x00000000_00000000_00000030 = .ok .isBusy := by decide
theorem test_decode_readStatus : decode 0x00000000_00000000_00000031 = .ok .readStatus := by decide

/-- L2-DEC: the illegal words. -/
theorem test_decode_illegal :
    [0x00000000_00000000_00000000, 0x00000000_00000000_00000006, 0x00000000_00000000_0000002A,
      0x00000000_00000000_000000FF].map (fun w : Req => decode w) =
        List.replicate 4 (.error .unassignedOpcode) ∧
    [0x00000000_00000000_00000801, 0x00000000_00000000_00080103, 0x00000000_00000000_00000411,
      0x00000000_00000001_00000020, 0x00000001_00000000_00000005, 0x00000000_00000000_00010012,
      0x00000000_00000000_00010104].map (fun w : Req => decode w) =
        List.replicate 7 (.error .nonzeroField) := by decide

/-- L2-DEC: an illegal word is answered and nothing else happens. -/
theorem test_step_illegal :
    nextOf (stepWord 0x00000000_00000001_00000020 State.reset) =
      some { State.reset with rsps := [⟨0x00000003, []⟩] } := by decide

/-- 30_encoding.md R99: the examples that name their operands in decimal or by name. -/
theorem test_assemblerText :
    [Instr.pcDisplayFrame, .fbClear .white, .pack .black .green, .nearest 255 128 0, .fbSetRotation .deg90,
      .fbSetPixel 1 0 .green].map assemblerText =
    ["PC_DISPLAY_FRAME", "FB_CLEAR White", "PACK Black, Green", "NEAREST 255, 128, 0", "FB_SET_ROTATION 90",
      "FB_SET_PIXEL 1, 0, Green"] := by decide

/-- The host's form of a table row. -/
theorem test_decodeTableWord : decodeTableWord 96 0x12 = some (.fbSetPixel 0 0 .black) ∧
    decodeTableWord 8 0x31 = some .readStatus ∧ decodeTableWord 96 0x06 = none := by decide

/-- The word put on the port is the next one run. -/
theorem test_withFetchWord :
    lastWord (step (State.reset.withFetchWord 96 0x611)) = some 0x00000003 ∧
    lastWord (step (State.reset.withFetchWord 96 0x31)) = some 0x00002000 := by decide

/-! ### The colour model -/

/-- L1-1. -/
theorem test_toCode : lastWord (exec (.toCode .orange) State.reset) = some 0x00000600 := by decide
/-- L2-QNT-1. -/
theorem test_fromCode_masks : lastWord (exec (.fromCode 0x17) State.reset) = some 0x00000700 := by decide
/-- L2-QNT-1. -/
theorem test_fromCode_error : lastWord (exec (.fromCode 0x1A) State.reset) = some 0x00000A01 := by decide
/-- L1-3. -/
theorem test_pack : lastWord (exec (.pack .hiZ .orange) State.reset) = some 0x00007600 := by decide
/-- L1-3. -/
theorem test_unpack : lastWord (exec (.unpack 0x45) State.reset) = some 0x00050400 := by decide
/-- L2-QNT-2. -/
theorem test_unpack_high_first : lastWord (exec (.unpack 0x9F) State.reset) = some 0x00000901 := by decide
/-- L2-QNT-3: a tie goes to the lower code. -/
theorem test_nearest_tie : lastWord (exec (.nearest 255 64 0) State.reset) = some 0x00000400 := by decide
/-- L2-QNT-3. -/
theorem test_nearest_channels : lastWord (exec (.nearest 100 150 200) State.reset) = some 0x00000700 ∧
    lastWord (exec (.nearest 0 0 128) State.reset) = some 0x00000300 := by decide

/-! ### The framebuffer -/

/-- L2-FBA-3. -/
theorem test_fbClear : fbOf (exec (.fbClear .hiZ) (withFb [0xFF, 0xFF, 0xFF, 0xFF])) =
    some [0x77, 0x77, 0x77, 0x77] := by decide
/-- L2-FBA-3. -/
theorem test_fbSetRotation : (nextOf (exec (.fbSetRotation .deg270) (withFb [0x12, 0x34, 0x56, 0x70]))).map
    (fun t => (t.rot, t.fbBytes)) = some (.deg270, [0x12, 0x34, 0x56, 0x70]) := by decide
/-- L2-FBA-3: the sibling nibble 8 is kept. -/
theorem test_fbSetPixel : fbOf (exec (.fbSetPixel 1 0 .red) (withFb [0x88, 0x88, 0x88, 0x88])) =
    some [0x84, 0x88, 0x88, 0x88] := by decide
/-- L2-FBA-1, one row of each other rotation. -/
theorem test_fbSetPixel_rotations :
    fbOf (exec (.fbSetPixel 1 2 .black) { withFb [0x11, 0x11, 0x11, 0x11] with rot := .deg90 }) =
      some [0x11, 0x11, 0x10, 0x11] ∧
    fbOf (exec (.fbSetPixel 1 0 .black) { withFb [0x11, 0x11, 0x11, 0x11] with rot := .deg180 }) =
      some [0x11, 0x11, 0x11, 0x01] ∧
    fbOf (exec (.fbSetPixel 1 3 .black) { withFb [0x11, 0x11, 0x11, 0x11] with rot := .deg270 }) =
      some [0x11, 0x10, 0x11, 0x11] := by decide
/-- L2-FBA-3. -/
theorem test_fbAsBytes : lastData (exec .fbAsBytes (withFb [0x12, 0x34, 0x56, 0x70])) =
    some [0x12, 0x34, 0x56, 0x70] := by decide

/-- Writing what an unlisted byte reads as removes its cell. -/
theorem test_canonical : (((withFb [0x11, 0x11, 0x11, 0x11]).writeFb 2 0x01).fb, (((withFb [0x11, 0x11, 0x11, 0x11]).writeFb
    2 0x01).writeFb 2 0x11).fb) = ([(2, 0x01)], []) := by decide

/-! ### The sequencer -/

/-- V-SEQ-1 as a list. -/
def initTrace : List Event :=
  ([[.rst false, .dly 10, .rst true, .dly 2, .busy false],
    [.dc false, .tx 0x00, .dc true, .tx 0xEF, .tx 0x08],
    [.dc false, .tx 0x01, .dc true, .tx 0x37, .tx 0x00, .tx 0x23, .tx 0x23],
    [.dc false, .tx 0x03, .dc true, .tx 0x00],
    [.dc false, .tx 0x06, .dc true, .tx 0xC7, .tx 0xC7, .tx 0x1D],
    [.dc false, .tx 0x30, .dc true, .tx 0x3C],
    [.dc false, .tx 0x41, .dc true, .tx 0x00],
    [.dc false, .tx 0x50, .dc true, .tx 0x37],
    [.dc false, .tx 0x60, .dc true, .tx 0x22],
    [.dc false, .tx 0x61, .dc true, .tx 0x00, .tx 0x04, .tx 0x00, .tx 0x02],
    [.dc false, .tx 0xE3, .dc true, .tx 0xAA],
    [.dc false, .tx 0x50, .dc true, .tx 0x37]] : List (List Event)).flatten

/-- V-SEQ-2: the first busy answer holds PC_RESET at its busy-wait. -/
theorem test_pcReset_busy :
    (nextOf (exec .pcReset { ready [0, 0, 0, 0] .unknown [true] with
      cfg := { Config.default with pollDelayMs := some 5 } })).map (fun t => (t.trace, t.cur, t.stepIx, t.rsps)) =
      some ([.rst false, .dly 10, .rst true, .dly 2, .busy true, .dly 5], some .reset, 5, []) := by decide
/-- V-SEQ-9. -/
theorem test_pcReset_fails :
    (nextOf (exec .pcReset (failing .idle 0))).map (fun t => (t.trace, t.phase, t.xportErr, t.rstLevel, t.rsps)) =
      some ([.rst false], .unknown, true, .low, [⟨0x00000002, []⟩]) := by decide
/-- V-SEQ-1. -/
theorem test_pcInitialize :
    (nextOf (exec .pcInitialize (ready [0, 0, 0, 0] .unknown []))).map
      (fun t => (t.trace, t.phase, t.dcLevel, t.rstLevel, t.rsps)) =
      some (initTrace, .idle, .high, .high, [⟨0x00000000, []⟩]) := by decide
/-- V-SEQ-8. -/
theorem test_pcInitialize_fails :
    (nextOf (exec .pcInitialize (failing .idle 5))).map (fun t => (t.trace, t.phase, t.xportErr, t.dcLevel, t.rsps)) =
      some ([.rst false, .dly 10, .rst true, .dly 2, .busy false, .dc false, .tx 0x00, .dc true, .tx 0xEF], .unknown,
        true, .high, [⟨0x00000002, []⟩]) := by decide
/-- V-SEQ-1, V-SEQ-11. -/
theorem test_pcWakeUp :
    (nextOf (exec .pcWakeUp (ready [0, 0, 0, 0] .asleep []))).map (fun t => (t.trace, t.phase, t.protoErr)) =
      some (initTrace, .idle, false) := by decide

/-- V-SEQ-3 as a list. -/
def updateTrace : List Event :=
  ([[.busy false, .dc false, .tx 0x50, .dc true, .tx 0x37, .dc false, .tx 0x61, .dc true],
    [.tx 0x00, .tx 0x04, .tx 0x00, .tx 0x02, .dc false, .tx 0x10, .dc true],
    [.tx 0x02, .tx 0x11, .tx 0x11, .tx 0x11, .dc false, .tx 0x11]] : List (List Event)).flatten

/-- The refresh of V-SEQ-5 with no busy answer. -/
def refreshTrace : List Event :=
  [.busy false, .dc false, .tx 0x04, .busy false, .dc false, .tx 0x12, .busy false, .dc false, .tx 0x02, .busy false]

/-- V-SEQ-3. -/
theorem test_pcUpdateFrame :
    (nextOf (exec .pcUpdateFrame (ready [0x02, 0x11, 0x11, 0x11] .idle []))).map
      (fun t => (t.trace, t.phase, t.dcLevel, t.protoErr)) = some (updateTrace, .idle, .low, false) := by decide
/-- V-SEQ-10. -/
theorem test_pcUpdateFrame_violation :
    (nextOf (exec .pcUpdateFrame (ready [0, 0, 0, 0] .unknown []))).map (fun t => (t.phase, t.protoErr, t.rsps)) =
      some (.unknown, true, [⟨0x00000000, []⟩]) := by decide
/-- V-SEQ-4, the events up to the busy answer. -/
theorem test_pcDisplayFrame_busy :
    (nextOf (exec .pcDisplayFrame (ready [0, 0, 0, 0] .idle [false, true]))).map
      (fun t => (t.trace, t.cur, t.phase, t.rsps)) =
      some ([.busy false, .dc false, .tx 0x04, .busy true], some .displayFrame, .displaying, []) := by decide
/-- V-SEQ-4, going on from the busy answer. -/
theorem test_pcDisplayFrame_resumes :
    (nextOf (step { ready [0, 0, 0, 0] .displaying [] with cur := some .displayFrame, stepIx := 4, curLegal := true })).map
      (fun t => (t.trace, t.cur, t.phase)) =
      some ([.busy false, .dc false, .tx 0x12, .busy false, .dc false, .tx 0x02, .busy false], none, .idle) := by decide
/-- V-SEQ-5. -/
theorem test_pcUpdateAndDisplayFrame :
    (nextOf (exec .pcUpdateAndDisplayFrame (ready [0x02, 0x11, 0x11, 0x11] .idle []))).map (fun t => (t.trace, t.phase)) =
      some (updateTrace ++ refreshTrace, .idle) := by decide
/-- V-SEQ-6: the command bytes and payload bytes with a red background. -/
theorem test_pcClearFrame :
    (nextOf (exec .pcClearFrame { ready [0x02, 0x11, 0x11, 0x11] .idle [] with bg := .red })).map
      (fun t => (commandBytes t.trace, payloadBytes t.trace, t.fbBytes, t.phase)) =
      some ([0x50, 0x61, 0x10, 0x11, 0x04, 0x12, 0x02],
        [0x97, 0x00, 0x04, 0x00, 0x02, 0x44, 0x44, 0x44, 0x44], [0x02, 0x11, 0x11, 0x11], .idle) := by decide
/-- V-SEQ-6 with CLEAR_FRAME_WRITES_FB. -/
theorem test_pcClearFrame_writes :
    fbOf (exec .pcClearFrame { ready [0x02, 0x11, 0x11, 0x11] .idle [] with
      bg := .red, cfg := { cfgFb [0x02, 0x11, 0x11, 0x11] with clearFrameWritesFb := true } }) =
      some [0x44, 0x44, 0x44, 0x44] := by decide
/-- V-SEQ-7. -/
theorem test_pcPowerOff :
    (nextOf (exec .pcPowerOff (ready [0, 0, 0, 0] .idle []))).map (fun t => (t.trace, t.phase)) =
      some ([.dc false, .tx 0x02], .powerOff) := by decide
/-- L1-10. -/
theorem test_pcSleep :
    (nextOf (exec .pcSleep (ready [0, 0, 0, 0] .idle []))).map (fun t => (t.trace, t.phase)) =
      some ([.dc false, .tx 0x07, .dc true, .tx 0xA5], .asleep) := by decide
/-- V-SEQ-13. -/
theorem test_pcSetBackground :
    (nextOf (exec (.pcSetBackground .orange) (ready [0, 0, 0, 0] .idle []))).map (fun t => (t.bg.code, t.trace)) =
      some (6, []) := by decide

/-! ### Observation -/

/-- V-BSA-1 with the PIN adapter: a high pin is busy. -/
theorem test_isBusy_pin :
    (nextOf (exec .isBusy (ready [0, 0, 0, 0] .idle [true]))).map (fun t => (t.trace, t.rsps)) =
      some ([.busy true], [⟨0x00000100, []⟩]) := by decide
/-- The SHIFT_REG adapter: 0x7F is busy and 0x80 is not. -/
theorem test_isBusy_shiftReg :
    lastWord (exec .isBusy { ready [0, 0, 0, 0] .idle [false, true, true, true, true, true, true, true] with
      cfg := { Config.default with busySource := .shiftReg } }) = some 0x00000100 ∧
    lastWord (exec .isBusy { ready [0, 0, 0, 0] .idle [true, false, false, false, false, false, false, false] with
      cfg := { Config.default with busySource := .shiftReg } }) = some 0x00000000 := by decide
/-- 43_busy_status.md R256: in the refined trace the pin events stand in the place of BUSY(v), and nothing for PIN. -/
theorem test_refined :
    (nextOf (exec .pcReset { ready [0, 0, 0, 0] .idle [true, false, false, false, false, false, false, true] with
      cfg := { Config.default with busySource := .shiftReg } })).map (·.refined) =
      some ([.rst false, .dly 10, .rst true, .dly 2] ++
        (shiftRegPins [true, false, false, false, false, false, false, true]).map .pin) ∧
    (nextOf (exec .pcReset (ready [0, 0, 0, 0] .idle []))).map (·.refined) =
      some [.rst false, .dly 10, .rst true, .dly 2] := by decide
/-- V-BSA-3. -/
theorem test_readStatus_reset : lastWord (exec .readStatus State.reset) = some 0x00002000 := by decide
/-- V-BSA-7, and the sticky bits of program P3 step 8. -/
theorem test_readStatus :
    lastWord (exec .readStatus { State.reset with rot := .deg180, bg := .hiZ, phase := .asleep }) = some 0x0000F700 ∧
    lastWord (exec .readStatus { State.reset with bg := .yellow, phase := .powerOff, protoErr := true, xportErr := true }) =
      some 0x0003A600 := by decide

/-! ### Configurations -/

theorem test_config_default : Config.default.wf = true := by decide
theorem test_config_refused : nextOf (step { State.reset with cfg := { Config.default with width := 3 } }) = none := by
  decide

/-! ### Witnesses: for every statement with hypotheses, a state and operands that meet them together -/

/-- 95_test_vectors.md's start state with a word on the port. -/
def portState (w : Req) : State := { State.reset with reqPort := [w] }

/-- A state in IDLE whose transport answers and levels are given and make every request complete. -/
def idleState : State := ready [0x02, 0x11, 0x11, 0x11] .idle []

/-- PC_DISPLAY_FRAME standing at its first busy-wait, busy three times more. -/
def heldState : State :=
  { ready [0, 0, 0, 0] .displaying [true, true, true] with cur := some .displayFrame, stepIx := 1, curLegal := true }

/-- A request standing at the element of its script with the given index, busy three times more. -/
def heldAs (op : SeqOp) (p : Phase) (k : Nat) : State :=
  { ready [0, 0, 0, 0] p [true, true, true] with cur := some op, stepIx := k, curLegal := true }

/-- PC_DISPLAY_FRAME standing at its first busy-wait, whose next polls answer not-busy and busy. -/
def goesOnState : State :=
  { ready [0, 0, 0, 0] .displaying [false, true] with cur := some .displayFrame, stepIx := 1, curLegal := true }

/-- PC_CLEAR_FRAME with the fill, from a state with both sticky bits set, its second poll busy. -/
def fillState : State :=
  { ready [0x02, 0x11, 0x11, 0x11] .idle [false, true] with
    cfg := { cfgFb [0x02, 0x11, 0x11, 0x11] with clearFrameWritesFb := true }
    protoErr := true
    xportErr := true }

theorem witness_DecodeOfEncodeGivesInstructionBack :
    (Instr.fbSetPixel (-2147483648) 2147483647 .hiZ).wf = true := by decide

theorem witness_EncodeOfDecodeGivesWordBack :
    decode 0x80000000_7FFFFFFF_00000712 = .ok (.fbSetPixel 2147483647 (-2147483648) .hiZ) := by decide

theorem witness_DecodeAgreesWithMasksOfOpcodeTable :
    ((.fbSetRotation, 0x000000000000000000000011, 0xFFFFFFFFFFFFFFFFFFFFFCFF) : Op × Req × Req) ∈ opcodeTable := by
  decide

/-- A word of each clause, at the ends of the unassigned ranges. -/
theorem witness_IllegalEncodingsAreRefusedByName :
    (fieldOpc 0x00).toNat = 0 ∧ (6 ≤ (fieldOpc 0x0F).toNat ∧ (fieldOpc 0x0F).toNat ≤ 0x0F) ∧
    0x14 ≤ (fieldOpc 0x14).toNat ∧ (fieldOpc 0x2F).toNat ≤ 0x2F ∧ 0x32 ≤ (fieldOpc 0x32).toNat ∧
    fieldOpc 0x0801 = opcodeOf .toCode ∧ zeroFieldsOk (formatOf .toCode) 0x0801 = false := by decide

theorem witness_IllegalWordIsAnsweredAndChangesNothing :
    State.reset.cfg.wf = true ∧ State.reset.cur = none ∧
    (portState 0x06).reqPort = 0x06 :: [] ∧ decode 0x06 = .error .unassignedOpcode ∧
    (portState 0x411).reqPort = 0x411 :: [] ∧ decode 0x411 = .error .nonzeroField := by decide

theorem witness_StepRunsTheDecodedRequest :
    (portState 0x611).cfg.wf = true ∧ (portState 0x31).cur = none ∧ (portState 0x31).reqPort = 0x31 :: [] ∧
    decode 0x31 = .ok .readStatus := by decide

theorem witness_StepWaitsWithoutRequest :
    State.reset.cfg.wf = true ∧ State.reset.cur = none ∧ State.reset.reqPort = [] := by decide

/-- One configuration for each clause, at the boundary of its range. -/
theorem witness_BrokenConfigurationIsRefused :
    ({ Config.default with width := 1 } : Config).width % 2 = 1 ∧ ({ Config.default with width := 0 } : Config).width = 0 ∧
    65535 < ({ Config.default with width := 65536 } : Config).width ∧
    ({ Config.default with height := 0 } : Config).height = 0 ∧
    65535 < ({ Config.default with height := 65536 } : Config).height ∧
    (cfgFb [0, 0, 0]).fbInit.length ≠ (cfgFb [0, 0, 0]).width * (cfgFb [0, 0, 0]).height / 2 ∧
    Color.white ≠ .green ∧ ({ Palette.default with green := ⟨255, 255, 255⟩ } : Palette).rgb .white =
      ({ Palette.default with green := ⟨255, 255, 255⟩ } : Palette).rgb .green := by decide

theorem witness_NothingStopsTheMachine : State.reset.cfg.wf = true := by decide

theorem witness_FromCodeMatchesTheMaskedNibble :
    (0xF7 : Byte).toNat % 16 ≤ 7 ∧ 8 ≤ (0x18 : Byte).toNat % 16 := by decide

theorem witness_UnpackChecksTheHighNibbleFirst :
    8 ≤ (0x8F : Byte).toNat / 16 ∧ ((0x78 : Byte).toNat / 16 ≤ 7 ∧ 8 ≤ (0x78 : Byte).toNat % 16) ∧
    ((0x77 : Byte).toNat / 16 ≤ 7 ∧ (0x77 : Byte).toNat % 16 ≤ 7) := by decide

theorem witness_PackAndUnpackAreInverse : (0x70 : Byte).toNat / 16 ≤ 7 ∧ (0x70 : Byte).toNat % 16 ≤ 7 := by decide

theorem witness_NearestIsFirstAtLeastDistance :
    State.reset.cfg.wf = true ∧ State.reset.cfg.palette.rgb .orange = ⟨255, 128, 0⟩ ∧
    Color.red.code.toNat < Color.orange.code.toNat := by decide

theorem witness_ExactMatchClauseIsRedundant : (allColors.map Palette.default.rgb).Nodup := by decide

theorem witness_ClearOverwritesEveryByte : 3 < State.reset.cfg.fbLen := by decide

/-- Both parities at the corner (WIDTH-1, HEIGHT-1), in both frames. -/
theorem witness_SetPixelWritesOneNibble :
    State.reset.cfg.wf = true ∧ inBounds State.reset.cfg State.reset.rot 3 1 = true ∧ pixelX State.reset 3 1 % 2 = 1 ∧
    inBounds State.reset.cfg State.reset.rot 2 1 = true ∧ pixelX State.reset 2 1 % 2 = 0 ∧
    inBounds State.reset.cfg .deg90 1 3 = true ∧ 0 ≠ pixelIndex State.reset 3 1 := by decide

/-- The clip at each edge, and an index past the buffer. -/
theorem witness_ClippedPixelIsDropped :
    inBounds State.reset.cfg .deg0 4 0 = false ∧ inBounds State.reset.cfg .deg180 0 2 = false ∧
    inBounds State.reset.cfg .deg90 2 0 = false ∧ inBounds State.reset.cfg .deg270 0 4 = false ∧
    inBounds State.reset.cfg .deg0 (-1) 0 = false ∧ inBounds State.reset.cfg .deg0 0 (-1) = false ∧
    State.reset.cfg.fbLen ≤ pixelIndex State.reset 0 2 := by decide

theorem witness_PixelAddressFollowsRotation :
    State.reset.cfg.wf = true ∧ inBounds State.reset.cfg .deg0 3 1 = true ∧ inBounds State.reset.cfg .deg90 1 3 = true ∧
    inBounds State.reset.cfg .deg180 3 1 = true ∧ inBounds State.reset.cfg .deg270 1 3 = true := by decide

theorem witness_NativeIsBijection :
    inBounds Config.default .deg270 1 3 = true ∧ 3 < Config.default.width ∧ 1 < Config.default.height := by decide

theorem witness_EveryByteHoldsTwoNativePixels :
    Config.default.wf = true ∧ 3 < Config.default.fbLen ∧ 3 < Config.default.width ∧ 1 < Config.default.height := by decide

/-- The same coordinates twice, and the corner of the turned panel. -/
theorem witness_LastPixelWriteWins :
    inBounds State.reset.cfg State.reset.rot 3 1 = true ∧ inBounds State.reset.cfg .deg180 0 0 = true ∧
    native State.reset.cfg State.reset.rot 3 1 = native State.reset.cfg .deg180 0 0 := by decide

theorem witness_AsBytesExportsTheBuffer : 3 < State.reset.cfg.fbLen := by decide

theorem witness_ResetCompletes : TransportOk idleState 2 ∧ NotBusy idleState 1 := by decide

theorem witness_InitializeCompletes_WakeUpCompletes :
    TransportOk idleState (failables (resetEvents idleState.cfg ++ initEvents idleState.cfg idleState.bg)) ∧
    NotBusy idleState 1 := by decide

theorem witness_UpdateFrameCompletes :
    TransportOk idleState (failables (updateEvents idleState.cfg idleState.bg idleState.fbBytes)) ∧
    NotBusy idleState 1 := by decide

theorem witness_DisplayFrameCompletes : TransportOk idleState 6 ∧ NotBusy idleState 4 := by decide

theorem witness_UpdateAndDisplayFrameCompletes :
    TransportOk idleState (failables (updateEvents idleState.cfg idleState.bg idleState.fbBytes) + 6) ∧
    NotBusy idleState 5 := by decide

theorem witness_ClearFrameCompletes :
    TransportOk idleState (failables (updateEvents idleState.cfg idleState.bg
      (List.replicate idleState.cfg.fbLen (packByte idleState.bg idleState.bg))) + 6) ∧ NotBusy idleState 5 := by decide

theorem witness_PowerOffAndSleepComplete : TransportOk idleState 2 ∧ TransportOk idleState 4 := by decide

theorem witness_ComputedPayloads : Config.default.wf = true := by decide

theorem witness_InitializeSendsTheCommandListInOrder :
    (Instr.pcWakeUp = .pcInitialize ∨ Instr.pcWakeUp = .pcWakeUp) ∧
    TransportOk idleState (failables (resetEvents idleState.cfg ++ initEvents idleState.cfg idleState.bg)) ∧
    NotBusy idleState 1 := by decide

theorem witness_EventCountsPerRequest :
    [SeqOp.reset, .initPanel, .wakeUp, .updateFrame, .displayFrame, .updateAndDisplayFrame, .clearFrame, .powerOff,
      .sleep].all (fun op => decide (TransportOk idleState (failables (opEvents op idleState))) &&
        decide (NotBusy idleState (polls (opEvents op idleState)))) = true := by decide

/-- PC_DISPLAY_FRAME held at its first busy-wait, busy three times more, the transport failing at the fourth event. -/
def heldFailing : State := { heldState with xportIn := [true, true, true, false] }

/-- V-SEQ-8, V-SEQ-9, the last event of PC_SLEEP, and a held request. -/
theorem witness_TransportErrorEndsTheRequest :
    (5 < failables (opEvents .initPanel (failing .idle 5)) ∧ TransportOk (failing .idle 5) 5 ∧
      (failing .idle 5).xportAnswer 5 = false ∧
      NotBusy (failing .idle 5) (polls (upToFailable 5 (opEvents .initPanel (failing .idle 5))))) ∧
    (0 < failables (opEvents .reset (failing .idle 0)) ∧ (failing .idle 0).xportAnswer 0 = false) ∧
    (3 < failables (opEvents .sleep (failing .idle 3)) ∧ TransportOk (failing .idle 3) 3 ∧
      (failing .idle 3).xportAnswer 3 = false) ∧
    (HeldAt .displayFrame heldFailing ∧ 3 < failables (remainingEvents .displayFrame heldFailing) ∧
      TransportOk heldFailing 3 ∧ heldFailing.xportAnswer 3 = false ∧ StaysBusy heldFailing 3 ∧
      ∀ j < polls (upToFailable 3 (remainingEvents .displayFrame heldFailing)),
        heldFailing.pollAnswer (3 + j) = false) := by decide

theorem witness_BusyForeverHangs : HeldAt .displayFrame heldState ∧ StaysBusy heldState 3 := by decide

/-- PC_DISPLAY_FRAME busy at once; PC_CLEAR_FRAME with the fill, busy at its second busy-wait; and PC_DISPLAY_FRAME going
on from its first busy-wait to a busy answer at the next (V-SEQ-4). -/
theorem witness_RequestWaitsAtABusyPoll :
    (ready [0, 0, 0, 0] .idle [true]).pollAnswer 0 = true ∧
    (script .clearFrame fillState = (script .clearFrame fillState).take 24 ++ .waitBusy ::
        (script .clearFrame fillState).drop 25 ∧
      TransportOk fillState (failables (elemEvents ((script .clearFrame fillState).take 24))) ∧
      NotBusy fillState (polls (elemEvents ((script .clearFrame fillState).take 24))) ∧
      fillState.pollAnswer (polls (elemEvents ((script .clearFrame fillState).take 24))) = true) ∧
    (HeldAt .displayFrame goesOnState ∧
      (script .displayFrame goesOnState).drop goesOnState.stepIx =
        [.waitBusy, .emit (.dc false), .emit (.tx 0x04)] ++ .waitBusy :: (script .displayFrame goesOnState).drop 5 ∧
      TransportOk goesOnState 2 ∧ NotBusy goesOnState 1 ∧ goesOnState.pollAnswer 1 = true) := by decide

/-- A word on the port, two busy answers and a not-busy one. -/
def resetState : State := { ready [0, 0, 0, 0] .asleep [true, true] with reqPort := [encode .pcReset] }

/-- A request of each kind that waits, held at a busy-wait, busy three times more and then not; and PC_RESET. -/
theorem witness_RequestCompletesAfterBusyAnswers :
    ([(.initPanel, .reset, 5), (.wakeUp, .reset, 5), (.updateFrame, .updating, 1), (.displayFrame, .displaying, 1),
      (.updateAndDisplayFrame, .updating, 1), (.clearFrame, .displaying, 23)] : List (SeqOp × Phase × Nat)).all
      (fun r => decide (HeldAt r.1 (heldAs r.1 r.2.1 r.2.2) ∧
        TransportOk (heldAs r.1 r.2.1 r.2.2) (failables (remainingEvents r.1 (heldAs r.1 r.2.1 r.2.2))) ∧
        StaysBusy (heldAs r.1 r.2.1 r.2.2) 3 ∧
        ∀ j < polls (remainingEvents r.1 (heldAs r.1 r.2.1 r.2.2)),
          (heldAs r.1 r.2.1 r.2.2).pollAnswer (3 + j) = false)) = true ∧
    resetState.cfg.wf = true ∧ resetState.cur = none ∧ resetState.reqPort = encode .pcReset :: [] ∧
    TransportOk resetState 2 ∧ StaysBusy resetState 2 ∧ resetState.pollAnswer 2 = false := by decide

/-- PC_UPDATE_FRAME that started in UNKNOWN and waits. -/
def violatingState : State :=
  { ready [0, 0, 0, 0] .updating [] with cur := some .updateFrame, stepIx := 1, curLegal := false, protoErr := true }

/-- V-SEQ-10: a violation that is over at once, one that waits, and one that is over after a wait. -/
theorem witness_ProtocolViolationIsRecorded :
    (∃ t, exec SeqOp.updateFrame.instr (ready [0, 0, 0, 0] .unknown []) = .next t ∧ SeqOp.updateFrame ≠ .reset ∧
      SeqOp.updateFrame ≠ .initPanel ∧ SeqOp.updateFrame ≠ .wakeUp ∧
      (ready [0, 0, 0, 0] .unknown []).phase ≠ .idle ∧ t.cur = none) ∧
    (∃ t, exec SeqOp.updateFrame.instr (ready [0, 0, 0, 0] .unknown [true]) = .next t ∧ t.cur = some .updateFrame) ∧
    (∃ t, violatingState.cur = some .updateFrame ∧ violatingState.curLegal = false ∧ step violatingState = .next t ∧
      t.cur = none) :=
  ⟨⟨_, rfl, by decide, by decide, by decide, by decide, by decide⟩, ⟨_, rfl, by decide⟩,
    ⟨_, by decide, by decide, rfl, by decide⟩⟩

theorem witness_SequencerFrame :
    (∃ t, exec SeqOp.clearFrame.instr fillState = .next t ∧ fillState.xportErr = true ∧ fillState.protoErr = true ∧
      fillState.cfg.clearFrameWritesFb = true ∧ 3 < fillState.cfg.fbLen) ∧
    (∃ t, exec SeqOp.updateFrame.instr fillState = .next t ∧ SeqOp.updateFrame ≠ .clearFrame) :=
  ⟨⟨_, rfl, by decide, by decide, by decide, by decide⟩, ⟨_, rfl, by decide⟩⟩

theorem witness_IsBusyReadsThePin : State.reset.cfg.busySource = .pin := by decide

/-- The SHIFT_REG adapter fitted. -/
def shiftState : State := { State.reset with cfg := { Config.default with busySource := .shiftReg } }

/-- The SHIFT_REG adapter fitted, IS_BUSY on the port, and five status bytes to come: 00, FF, 00, FF, 00. -/
def srState : State :=
  { shiftState with
    reqPort := [0x30]
    lineIn := List.replicate 8 false ++ List.replicate 8 true ++ List.replicate 8 false ++ List.replicate 8 true ++
      List.replicate 8 false }

theorem witness_IsBusyReadsTheShiftRegister :
    shiftState.cfg.busySource = .shiftReg ∧ shiftState.cfg.srBusyBit = 7 := by decide

/-- A trace and its refinement for either adapter; and IS_BUSY on the port with the PIN adapter in the place of the shift
register, the levels of both giving busy, not-busy, busy, not-busy, busy. -/
theorem witness_RefinedTraceReplacesEachPoll :
    (TraceRefines resetState.cfg resetState.trace resetState.refined ∧ ∃ t, step resetState = .next t) ∧
    (∀ k < 5, (withAdapter srState .pin true [true, false, true, false, true] 0 []).pollAnswer k =
      srState.pollAnswer k) ∧
    (∃ t, step srState = .next t) :=
  ⟨⟨rfl, _, rfl⟩, by decide, ⟨_, rfl⟩⟩

theorem witness_ResetHasInvariant : Config.default.wf = true := by decide

theorem witness_BlockResetValues : (cfgFb [0x88, 0x88, 0x88, 0x88]).wf = true := by decide

/-- PC_UPDATE_FRAME standing at its busy-wait after one busy answer, in a state the invariant holds of. -/
def waitingState : State :=
  { ready [0x02, 0x11, 0x11, 0x11] .updating [] with
    cur := some .updateFrame
    stepIx := 1
    curLegal := true
    fb := [(1, 0x23)]
    trace := [.dc false, .tx 0x04, .busy true]
    dcLevel := .low }

theorem waitingState_inv : Inv waitingState where
  config := by decide
  memory := by decide
  control := by
    show (script .updateFrame waitingState)[waitingState.stepIx]? = some .waitBusy ∧
      waitingState.phase ∈ heldPhases .updateFrame ∧ (waitingState.curLegal = false → waitingState.protoErr = true)
    decide
  lines := by
    show waitingState.dcLevel = lastDc .undriven waitingState.trace ∧
      waitingState.rstLevel = lastRst .undriven waitingState.trace
    decide
  wire := fun p hp => by
    have hp : p = (.low, 0x04) := by simpa [waitingState, taggedBytes, LineLevel.ofBool] using hp
    subst hp
    exact ⟨by decide, fun _ => ⟨.pon, by decide⟩⟩

theorem witness_StepKeepsInvariant : ∃ t, Inv waitingState ∧ step waitingState = .next t :=
  ⟨_, waitingState_inv, rfl⟩

/-- V-SEQ-10 from the port: the step that sets PROTO_ERR; a state with both bits set; and V-SEQ-9 from the port: the step
that sets XPORT_ERR. -/
theorem witness_StickyBitsStaySet :
    (∃ t, step { ready [0, 0, 0, 0] .unknown [] with reqPort := [0x23] } = .next t ∧
      (ready [0, 0, 0, 0] .unknown []).protoErr = false ∧ t.protoErr = true) ∧
    (∃ t, step fillState = .next t ∧ fillState.protoErr = true ∧ fillState.xportErr = true) ∧
    (∃ t, step { failing .idle 0 with reqPort := [0x20] } = .next t ∧ (failing .idle 0).xportErr = false ∧
      t.xportErr = true) :=
  ⟨⟨_, rfl, by decide, by decide⟩, ⟨_, rfl, by decide, by decide⟩, ⟨_, rfl, by decide, by decide⟩⟩

theorem witness_HistoryIsNeverRewritten : ∃ t, step waitingState = .next t := ⟨_, rfl⟩

theorem witness_OneRequestAtATime : ∃ t, heldState.cur = some .displayFrame ∧ step heldState = .next t :=
  ⟨_, by decide, rfl⟩

theorem witness_RequestRespondsOnceOrWaits :
    (∃ t, idleState.cur = none ∧ exec .pcSleep idleState = .next t) ∧
    (∃ t, idleState.cur = none ∧ exec .fbAsBytes idleState = .next t) :=
  ⟨⟨_, by decide, rfl⟩, ⟨_, by decide, rfl⟩⟩

theorem witness_ResponsesKeepTheirLayout :
    ∃ t, step { State.reset with reqPort := [0x31], rsps := [⟨0x00000F01, []⟩] } = .next t ∧
      ∀ r ∈ ([⟨0x00000F01, []⟩] : List Response),
        r.word.extractLsb' 4 4 = 0 ∧ (r.word.extractLsb' 0 4).toNat ≤ 3 :=
  ⟨_, rfl, by decide⟩

/-- A request for each column of the matrix that changes it. -/
theorem witness_AccessMatrix :
    (∃ t, exec (.fbClear .red) idleState = .next t ∧ t.fb ≠ idleState.fb) ∧
    (∃ t, exec (.fbSetRotation .deg90) idleState = .next t ∧ t.rot ≠ idleState.rot) ∧
    (∃ t, exec (.pcSetBackground .red) idleState = .next t ∧ t.bg ≠ idleState.bg) ∧
    (∃ t, exec .pcSleep idleState = .next t ∧ t.phase ≠ idleState.phase ∧ t.trace ≠ idleState.trace) :=
  ⟨⟨_, rfl, by decide⟩, ⟨_, rfl, by decide⟩, ⟨_, rfl, by decide⟩, ⟨_, rfl, by decide, by decide⟩⟩

theorem portState_inv : Inv { ready [0, 0, 0, 0] .unknown [] with reqPort := [0x21] } where
  config := by decide
  memory := by decide
  control := ⟨rfl, rfl, rfl⟩
  lines := ⟨rfl, rfl⟩
  wire := fun p hp => by simp [ready, withFb, State.resetWith, taggedBytes] at hp

/-- By PC_INITIALIZE from the port, and by a request in progress that started legally. -/
theorem witness_IdleIsReachedOnlyByALegalRequest :
    (∃ t, step { ready [0, 0, 0, 0] .unknown [] with reqPort := [0x21] } = .next t ∧
      Inv { ready [0, 0, 0, 0] .unknown [] with reqPort := [0x21] } ∧
      (ready [0, 0, 0, 0] .unknown []).phase ≠ .idle ∧ t.phase = .idle) ∧
    (∃ t, step waitingState = .next t ∧ Inv waitingState ∧ waitingState.phase ≠ .idle ∧ t.phase = .idle) :=
  ⟨⟨_, rfl, portState_inv, by decide, by decide⟩, ⟨_, rfl, waitingState_inv, by decide, by decide⟩⟩

end Sys2Proof.Tests
end

section
/-! The scope family (00_scope.md): what a step does around the request it runs. -/

namespace Sys2Proof

/-! ### Configurations that define no machine (R7) -/

theorem mem_allColors (c : Color) : c ∈ allColors := by cases c <;> decide

theorem Config.Ok.palette_rgb_injective {c : Config} (h : c.Ok) : Function.Injective c.palette.rgb := by
  obtain ⟨-, -, -, -, -, -, hnodup, -⟩ := h
  exact fun a b hab => List.inj_on_of_nodup_map hnodup (mem_allColors a) (mem_allColors b) hab

end Sys2Proof

namespace Sys2Proof.Machine

theorem step_of_not_configOk {s : State} (h : ¬ s.cfg.Ok) : step s = .refused .badConfiguration :=
  step_bad (Bool.eq_false_iff.2 (mt s.cfg.wf_iff.1 h))

/-- Settles O9: each clause denies one of the constraints that the configuration check asks for. -/
theorem brokenConfigurationIsRefused : Obligations.BrokenConfigurationIsRefused := by
  intro s hbroken
  refine step_of_not_configOk fun hok => ?_
  have hinj := hok.palette_rgb_injective
  obtain ⟨heven, hw1, hw2, hh1, hh2, hlen, -⟩ := hok
  rcases hbroken with h | h | h | h | h | h | ⟨a, b, hne, hab⟩
  · omega
  · omega
  · omega
  · omega
  · omega
  · exact h hlen
  · exact hne (hinj hab)

/-! ### The request a step runs (R3, R312) -/

/-- Settles O7: step_request says it of every word that decodes. -/
theorem stepRunsTheDecodedRequest : Obligations.StepRunsTheDecodedRequest :=
  fun _ _ _ _ hwf hcur hport hdecode => step_request hwf hcur hport hdecode

theorem resumeSeq_reqPort (op : SeqOp) (s : State) : (resumeSeq op s).reqPort = s.reqPort := by
  obtain ⟨-, -, hport, -⟩ := runElems_frame op _ s (resume_plain op s)
  exact hport

/-- Going on with a request either ends it with one response, or leaves CUR as it was and answers nothing. -/
theorem resumeSeq_responds (op : SeqOp) (s : State) :
    ((resumeSeq op s).cur = none ∧ ∃ r, (resumeSeq op s).rsps = s.rsps ++ [r]) ∨
    ((resumeSeq op s).cur = s.cur ∧ (resumeSeq op s).rsps = s.rsps) := by
  rcases runElems_responds op _ s (resume_plain op s) with ⟨hcur, -, -, st, hrsps⟩ | ⟨hcur, -, hrsps, -⟩
  · exact .inl ⟨hcur, ⟨respWord st 0, []⟩, hrsps⟩
  · exact .inr ⟨hcur, hrsps⟩

/-- With a request in progress, a step that answers a next state goes on with it. -/
theorem eq_resumeSeq_of_step {op : SeqOp} {s t : State} (hcur : s.cur = some op) (h : step s = .next t) :
    t = resumeSeq op s := by
  obtain ⟨hwf, -⟩ := step_cases h
  exact (next_inj ((step_inProgress hwf hcur).symm.trans h)).symm

/-- Settles O56: the step goes on with the request in progress, which never reads the port, and responds only as it
clears CUR. -/
theorem oneRequestAtATime : Obligations.OneRequestAtATime := by
  intro op s t hcur h
  obtain rfl := eq_resumeSeq_of_step hcur h
  refine ⟨resumeSeq_reqPort op s, ?_⟩
  rw [← hcur]
  exact resumeSeq_responds op s

end Sys2Proof.Machine
end

section
/-! The state family (10_state.md): the state after block reset, the invariant that every step keeps, and what each
request and each step leaves as it was. -/

namespace Sys2Proof.Machine

/-! ### A sequencer request as it is taken and as it goes on -/

/-- A request taken from the port is one that goes on from the first element of its script. -/
theorem runSeq_eq_resumeSeq (op : SeqOp) (s : State) : runSeq op s = resumeSeq op (acceptSeq op s) := rfl

theorem resumeSeq_frame (op : SeqOp) (s : State) :
    (resumeSeq op s).rot = s.rot ∧ (resumeSeq op s).bg = s.bg ∧ (resumeSeq op s).reqPort = s.reqPort ∧
      (resumeSeq op s).cfg = s.cfg :=
  runElems_frame op _ s (resume_plain op s)

theorem resumeSeq_protoErr (op : SeqOp) (s : State) : (resumeSeq op s).protoErr = s.protoErr :=
  runElems_protoErr op _ s (resume_plain op s)

theorem runSeq_protoErr (op : SeqOp) (s : State) :
    (runSeq op s).protoErr = (s.protoErr || !legalFrom op s.phase) :=
  resumeSeq_protoErr op (acceptSeq op s)

/-- Going on with a request only adds to both traces and to the responses, and does not clear XPORT_ERR. -/
theorem resumeSeq_history (op : SeqOp) (s : State) :
    s.trace <+: (resumeSeq op s).trace ∧ s.refined <+: (resumeSeq op s).refined ∧
      s.rsps <+: (resumeSeq op s).rsps ∧ (s.xportErr = true → (resumeSeq op s).xportErr = true) := by
  have hplain := resume_plain op s
  obtain ⟨htrace, hrefined, hxport⟩ := runElems_history op _ s hplain
  exact ⟨htrace, hrefined, runElems_rsps op _ s hplain, hxport⟩

/-- Taking a request only adds to both traces and to the responses, and does not clear XPORT_ERR. -/
theorem runSeq_history (op : SeqOp) (s : State) :
    s.trace <+: (runSeq op s).trace ∧ s.refined <+: (runSeq op s).refined ∧
      s.rsps <+: (runSeq op s).rsps ∧ (s.xportErr = true → (runSeq op s).xportErr = true) :=
  resumeSeq_history op (acceptSeq op s)

/-! ### What a step did -/

/-- Everything a step that answers a next state can have done, with the requests from the port told apart: those of the
sequencer run their script, and the others have the effect NotSeqEffect allows. -/
theorem step_effect {s t : State} (h : step s = .next t) :
    (∃ op, s.cur = some op ∧ t = resumeSeq op s) ∨
    t = s ∨
    (∃ w rest op, s.cur = none ∧ s.reqPort = w :: rest ∧ decode w = .ok (SeqOp.instr op) ∧
      t = runSeq op { s with reqPort := rest }) ∨
    (∃ rest i, s.cur = none ∧ NotSeqEffect i { s with reqPort := rest } t) ∨
    (∃ rest, s.cur = none ∧ t = raiseIllegal { s with reqPort := rest }) := by
  obtain ⟨-, hresume | ⟨-, -, hwait⟩ | ⟨w, rest, i, hcur, hport, hdecode, hexec⟩ |
    ⟨w, rest, e, hcur, -, -, hillegal⟩⟩ := step_cases h
  · exact .inl hresume
  · exact .inr (.inl hwait)
  · rcases seq_or_not i with ⟨op, rfl⟩ | hnot
    · rw [exec_seq] at hexec
      exact .inr (.inr (.inl ⟨w, rest, op, hcur, hport, hdecode, (next_inj hexec).symm⟩))
    · exact .inr (.inr (.inr (.inl ⟨rest, i, hcur, exec_notSeq hnot hexec⟩)))
  · exact .inr (.inr (.inr (.inr ⟨rest, hcur, hillegal⟩)))

/-! ### The invariant through a sequencer request (R32, R36) -/

theorem legalFrom_idle (op : SeqOp) : legalFrom op .idle = true := by cases op <;> rfl

theorem finalPhase_resting (op : SeqOp) (legal : Bool) : (finalPhase op legal).resting = true := by
  cases legal
  · rfl
  · cases op <;> rfl

theorem controlOk_iff_of_cur_none {s : State} (h : s.cur = none) :
    ControlOk s ↔ s.phase.resting = true ∧ s.stepIx = 0 ∧ s.curLegal = false := by
  rw [ControlOk, h]

theorem controlOk_iff_of_cur_some {op : SeqOp} {s : State} (h : s.cur = some op) :
    ControlOk s ↔ (script op s)[s.stepIx]? = some .waitBusy ∧ s.phase ∈ heldPhases op ∧
      (s.curLegal = false → s.protoErr = true) := by
  rw [ControlOk, h]

/-- A request in progress anywhere in its script, not only at a busy-wait: what Inv asks of the state but for the place
STEP stands at, and what the elements from STEP on need. -/
structure Running (op : SeqOp) (s : State) : Prop where
  config : s.cfg.wf = true
  memory : Memory.wf s.cfg s.fb
  lines : LinesMatchTrace s
  wire : WireOk s
  cur : s.cur = some op
  illegal : s.curLegal = false → s.protoErr = true
  phase : s.phase ∈ heldPhases op ∨ setsPhaseFirst ((script op s).drop s.stepIx) = true
  sends : SendsFrom s.cfg s.dcLevel ((script op s).drop s.stepIx)

/-- A request that a step left at its busy-wait is running. -/
theorem Inv.running {op : SeqOp} {s : State} (h : Inv s) (hcur : s.cur = some op) : Running op s := by
  obtain ⟨hwait, hphase, hillegal⟩ := (controlOk_iff_of_cur_some hcur).1 h.control
  exact
    { config := h.config, memory := h.memory, lines := h.lines, wire := h.wire, cur := hcur, illegal := hillegal
      phase := .inl hphase
      sends := sendsFrom_drop _ _ (sendsAfterWait_script op s) hwait _ }

/-- A request just accepted is running, whatever phase it starts in. -/
theorem Inv.running_acceptSeq {s : State} (h : Inv s) (op : SeqOp) : Running op (acceptSeq op s) where
  config := h.config
  memory := h.memory
  lines := h.lines
  wire := h.wire
  cur := rfl
  illegal := fun hlegal => by simp [show legalFrom op s.phase = false from hlegal]
  phase := .inr (script_setsPhaseFirst op (acceptSeq op s))
  sends := sendsFrom_script op (acceptSeq op s) _

theorem script_resumeSeq (op : SeqOp) (s : State) : script op (resumeSeq op s) = script op s := by
  refine script_runElems op _ s (resume_plain op s) ?_
  by_cases h : op = .clearFrame
  · exact .inl h
  · exact .inr fun e he => script_keepsFb op s h e (List.mem_of_mem_drop he)

/-- A request that goes on ends in a resting phase, or stands at a busy-wait in a phase it holds. -/
theorem Running.controlOk_resumeSeq {op : SeqOp} {s : State} (h : Running op s) : ControlOk (resumeSeq op s) := by
  have hplain := resume_plain op s
  rcases runElems_responds op _ s hplain with ⟨hcur, hstep, hlegal, -⟩ | ⟨hcur, hlegal, -, hproto⟩
  · have hphase := runElems_endPhase op _ s hplain hcur (by simp [h.cur])
    refine (controlOk_iff_of_cur_none hcur).2 ⟨?_, hstep, hlegal⟩
    rcases hphase with hphase | hphase <;> rw [hphase]
    · rfl
    · exact finalPhase_resting op _
  · rw [h.cur] at hcur
    have hheld := (runElems_control op (script op s) (script_phases op s) _ s hplain rfl h.phase).resolve_left
      (by simp [hcur])
    obtain ⟨hwait, hphase⟩ := hheld
    refine (controlOk_iff_of_cur_some hcur).2 ⟨?_, hphase, fun hl => hproto.trans (h.illegal (hlegal.symm.trans hl))⟩
    rw [← resumeSeq, script_resumeSeq]
    exact hwait

theorem Running.inv_resumeSeq {op : SeqOp} {s : State} (h : Running op s) : Inv (resumeSeq op s) := by
  have hplain := resume_plain op s
  obtain ⟨-, -, -, hcfg⟩ := resumeSeq_frame op s
  obtain ⟨hlines, hwire⟩ := runElems_wire op _ s hplain h.sends h.lines h.wire
  exact
    { config := hcfg ▸ h.config
      memory := runElems_memory op _ s hplain h.memory
      control := h.controlOk_resumeSeq
      lines := hlines
      wire := hwire }

/-! ### The invariant through every other request -/

/-- The invariant does not speak of the request port. -/
theorem Inv.withReqPort {s : State} (h : Inv s) (port : List Req) : Inv { s with reqPort := port } :=
  ⟨h.config, h.memory, h.control, h.lines, h.wire⟩

/-- Nor of the responses. -/
theorem Inv.respond {s : State} (h : Inv s) (st : Status) (v : BitVec 24) : Inv (respond st v s) :=
  ⟨h.config, h.memory, h.control, h.lines, h.wire⟩

/-- A BUSY event drives no line and sends no byte. -/
theorem NotSeqEffect.trace_views {i : Instr} {s t : State} (h : NotSeqEffect i s t) :
    lastDc .undriven t.trace = lastDc .undriven s.trace ∧ lastRst .undriven t.trace = lastRst .undriven s.trace ∧
      taggedBytes .undriven t.trace = taggedBytes .undriven s.trace := by
  rcases h.trace with htrace | ⟨-, v, htrace⟩ <;> rw [htrace]
  · exact ⟨rfl, rfl, rfl⟩
  · simp [lastDc, lastRst, taggedBytes_append, taggedBytes]

theorem NotSeqEffect.inv {i : Instr} {s t : State} (h : NotSeqEffect i s t) (hcur : s.cur = none) (hs : Inv s) :
    Inv t := by
  obtain ⟨hdc, hrst, hbytes⟩ := h.trace_views
  obtain ⟨hdcLevel, hrstLevel⟩ := hs.lines
  refine ⟨h.cfg ▸ hs.config, h.cfg ▸ h.memory hs.memory, ?_, ⟨?_, ?_⟩, ?_⟩
  · rw [controlOk_iff_of_cur_none (h.cur.trans hcur), h.phase, h.stepIx, h.curLegal]
    exact (controlOk_iff_of_cur_none hcur).1 hs.control
  · rw [h.dcLevel, hdcLevel, hdc]
  · rw [h.rstLevel, hrstLevel, hrst]
  · unfold WireOk
    rw [hbytes, h.cfg]
    exact hs.wire

/-- Settles O51: a sequencer request is running when it is taken and when it goes on, and running on leaves the
invariant; no other step touches what the invariant speaks of, but for FB, which stays canonical. -/
theorem stepKeepsInvariant : Obligations.StepKeepsInvariant := by
  intro s t hs h
  rcases step_effect h with ⟨op, hcur, rfl⟩ | rfl | ⟨w, rest, op, -, -, -, rfl⟩ | ⟨rest, i, hcur, heffect⟩ |
    ⟨rest, -, rfl⟩
  · exact (hs.running hcur).inv_resumeSeq
  · exact hs
  · rw [runSeq_eq_resumeSeq]
    exact ((hs.withReqPort rest).running_acceptSeq op).inv_resumeSeq
  · exact heffect.inv hcur (hs.withReqPort rest)
  · exact (hs.withReqPort rest).respond _ _

/-! ### What a sequencer request leaves alone (R41, R302) -/

theorem fbByte_congr {s t : State} (hfb : t.fb = s.fb) (hcfg : t.cfg = s.cfg) (i : Nat) : t.fbByte i = s.fbByte i := by
  rw [State.fbByte, State.fbByte, hfb, hcfg]

theorem afterFill_cfg (op : SeqOp) (s : State) : (afterFill op s).cfg = s.cfg := by
  unfold afterFill; split_ifs <;> rfl

/-- Whatever the transport and the polls answer, the bytes of FB are those the fill has left. -/
theorem runSeq_fbByte (op : SeqOp) (s : State) (i : Nat) : (runSeq op s).fbByte i = (afterFill op s).fbByte i := by
  obtain ⟨-, -, -, hcfg⟩ := runSeq_frame op s
  exact fbByte_congr (runSeq_fb op s) (hcfg.trans (afterFill_cfg op s).symm) i

/-- Settles O45: each clause is a lemma about runSeq; FB's bytes are those afterFill leaves. -/
theorem sequencerFrame : Obligations.SequencerFrame := by
  intro op s t h
  rw [exec_seq] at h
  obtain rfl := next_inj h
  obtain ⟨hrot, hbg, hport, hcfg⟩ := runSeq_frame op s
  obtain ⟨htrace, hrefined, -, hxport⟩ := runSeq_history op s
  refine ⟨hrot, hbg, hcfg, hport, hxport, fun hproto => ?_, htrace, hrefined, fun hkeeps i => ?_,
    fun hop hfills i hi => ?_⟩
  · rw [runSeq_protoErr, hproto, Bool.true_or]
  · have hnofill : ¬(op = .clearFrame ∧ s.cfg.clearFrameWritesFb = true) := by
      rintro ⟨hop, hfills⟩
      exact hkeeps.elim (· hop) (by simp [hfills])
    rw [runSeq_fbByte, afterFill, if_neg hnofill]
  · rw [runSeq_fbByte, afterFill, if_pos ⟨hop, hfills⟩]
    exact fbByte_fillFb s _ hi

/-! ### The sticky bits (R37, R38) -/

/-- A request that goes on and sets XPORT_ERR has ended in a TransportError. -/
theorem resumeSeq_sets_xportErr (op : SeqOp) (s : State) (hclear : s.xportErr = false)
    (hset : (resumeSeq op s).xportErr = true) :
    (resumeSeq op s).cur = none ∧ (resumeSeq op s).phase = .unknown ∧
      (resumeSeq op s).rsps = s.rsps ++ [⟨0x00000002, []⟩] :=
  runElems_xportErr op _ s (resume_plain op s) hclear hset

/-- So has one taken from the port. -/
theorem runSeq_sets_xportErr (op : SeqOp) (s : State) (hclear : s.xportErr = false)
    (hset : (runSeq op s).xportErr = true) :
    (runSeq op s).cur = none ∧ (runSeq op s).phase = .unknown ∧ (runSeq op s).rsps = s.rsps ++ [⟨0x00000002, []⟩] :=
  resumeSeq_sets_xportErr op (acceptSeq op s) hclear hset

/-- A request from the port that sets PROTO_ERR was taken in a phase other than IDLE, which is legal for all. -/
theorem phase_ne_idle_of_runSeq_sets_protoErr {op : SeqOp} {s : State} (hclear : s.protoErr = false)
    (hset : (runSeq op s).protoErr = true) : s.phase ≠ .idle := by
  intro hidle
  simp [runSeq_protoErr, hclear, hidle, legalFrom_idle] at hset

/-- The clauses of O54 hold of a step that leaves both bits as they were. -/
theorem sticky_of_bits_kept {s t : State} (P Q : Prop) (hproto : t.protoErr = s.protoErr)
    (hxport : t.xportErr = s.xportErr) :
    (s.protoErr = true → t.protoErr = true) ∧ (s.xportErr = true → t.xportErr = true) ∧
      (s.protoErr = false → t.protoErr = true → P) ∧ (s.xportErr = false → t.xportErr = true → Q) := by
  simp +contextual [hproto, hxport]

/-- Settles O54: only a sequencer request changes the two bits, PROTO_ERR as it is taken and XPORT_ERR as it ends. -/
theorem stickyBitsStaySet : Obligations.StickyBitsStaySet := by
  intro s t h
  rcases step_effect h with ⟨op, hcur, rfl⟩ | rfl | ⟨w, rest, op, hcur, hport, hdecode, rfl⟩ |
    ⟨rest, i, -, heffect⟩ | ⟨rest, -, rfl⟩
  · obtain ⟨-, -, -, hxport⟩ := resumeSeq_history op s
    rw [resumeSeq_protoErr]
    exact ⟨id, hxport, fun hclear hset => by simp [hclear] at hset, resumeSeq_sets_xportErr op s⟩
  · exact sticky_of_bits_kept _ _ rfl rfl
  · obtain ⟨-, -, -, hxport⟩ := runSeq_history op { s with reqPort := rest }
    refine ⟨fun hproto => ?_, hxport, fun hclear hset => ?_,
      runSeq_sets_xportErr op { s with reqPort := rest }⟩
    · rw [runSeq_protoErr, hproto, Bool.true_or]
    · exact ⟨hcur, phase_ne_idle_of_runSeq_sets_protoErr (s := { s with reqPort := rest }) hclear hset, w, rest, op,
        hport, hdecode⟩
  · exact sticky_of_bits_kept _ _ heffect.protoErr heffect.xportErr
  · exact sticky_of_bits_kept _ _ rfl rfl

/-! ### The configuration and the records (R30, R72, R190) -/

theorem NotSeqEffect.history {i : Instr} {s t : State} (h : NotSeqEffect i s t) :
    s.trace <+: t.trace ∧ s.refined <+: t.refined ∧ s.rsps <+: t.rsps := by
  obtain ⟨st, v, d, hrsps⟩ := h.rsps
  refine ⟨?_, h.refined, hrsps ▸ List.prefix_append _ _⟩
  rcases h.trace with htrace | ⟨-, v, htrace⟩ <;> rw [htrace]
  exact List.prefix_append _ _

/-- Settles O55: a step only appends to its records, whichever request it performs. -/
theorem historyIsNeverRewritten : Obligations.HistoryIsNeverRewritten := by
  intro s t h
  rcases step_effect h with ⟨op, -, rfl⟩ | rfl | ⟨w, rest, op, -, -, -, rfl⟩ | ⟨rest, i, -, heffect⟩ |
    ⟨rest, -, rfl⟩
  · obtain ⟨-, -, -, hcfg⟩ := resumeSeq_frame op s
    obtain ⟨htrace, hrefined, hrsps, -⟩ := resumeSeq_history op s
    exact ⟨hcfg, htrace, hrefined, hrsps⟩
  · exact ⟨rfl, List.prefix_rfl, List.prefix_rfl, List.prefix_rfl⟩
  · obtain ⟨-, -, -, hcfg⟩ := runSeq_frame op { s with reqPort := rest }
    obtain ⟨htrace, hrefined, hrsps, -⟩ := runSeq_history op { s with reqPort := rest }
    exact ⟨hcfg, htrace, hrefined, hrsps⟩
  · exact ⟨heffect.cfg, heffect.history⟩
  · exact ⟨rfl, List.prefix_rfl, List.prefix_rfl, List.prefix_append _ _⟩

/-! ### The access matrix (R41) -/

/-- The only sequencer request that writes FB is PC_CLEAR_FRAME, and only with CLEAR_FRAME_WRITES_FB. -/
theorem clearFrame_of_runSeq_fb_ne {op : SeqOp} {s : State} (h : (runSeq op s).fb ≠ s.fb) :
    op = .clearFrame ∧ s.cfg.clearFrameWritesFb = true := by
  by_contra hnofill
  exact h (by rw [runSeq_fb, afterFill, if_neg hnofill])

/-- Settles O59: a sequencer request may change the control columns and the trace, and of the rest only FB; for the
others the matrix is what NotSeqEffect says. -/
theorem accessMatrix : Obligations.AccessMatrix := by
  intro i s t h
  rcases seq_or_not i with ⟨op, rfl⟩ | hnot
  · rw [exec_seq] at h
    obtain rfl := next_inj h
    obtain ⟨hrot, hbg, hport, hcfg⟩ := runSeq_frame op s
    refine ⟨fun hfb => ?_, fun hne => absurd hrot hne, fun hne => absurd hbg hne, fun _ => ⟨op, rfl⟩,
      fun _ => .inr ⟨op, rfl⟩, hport, hcfg⟩
    obtain ⟨rfl, hfills⟩ := clearFrame_of_runSeq_fb_ne hfb
    exact .inr (.inr ⟨rfl, hfills⟩)
  · have heffect := exec_notSeq hnot h
    refine ⟨fun hfb => (heffect.fb hfb).imp_right .inl, heffect.rot, heffect.bg, fun hcontrol => ?_, fun htrace => ?_,
      heffect.reqPort, heffect.cfg⟩
    · simp [heffect.phase, heffect.protoErr, heffect.xportErr, heffect.dcLevel, heffect.rstLevel, heffect.cur]
        at hcontrol
    · exact .inl (heffect.trace.resolve_left htrace).1

/-! ### The status word (R40, R255) -/

/-- The number a concatenation is. -/
theorem toNat_append_eq_add {m n : Nat} (x : BitVec m) (y : BitVec n) : (x ++ y).toNat = 2 ^ n * x.toNat + y.toNat := by
  rw [BitVec.toNat_append, ← Nat.shiftLeft_add_eq_or_of_lt y.isLt, Nat.shiftLeft_eq, Nat.mul_comm]

/-- The response word as the number rspOf writes (30_encoding.md R96). -/
theorem respWord_eq_rspOf (st : Status) (v : BitVec 24) : respWord st v = rspOf v.toNat st.code.toNat := by
  refine BitVec.eq_of_toNat_eq ?_
  have hst := st.code.isLt
  have hv := v.isLt
  simp only [respWord, rspOf, toNat_append_eq_add, BitVec.toNat_ofNat]
  omega

/-- Responding, in the form the statements about VALUE and STATUS use. -/
theorem respond_eq_plusResponse (st : Status) (v : BitVec 24) (s : State) :
    respond st v s = plusResponse s v.toNat st.code.toNat := by
  rw [plusResponse, ← respWord_eq_rspOf]
  rfl

/-- STATUS_WORD as a number: the fields of R40 at their places. -/
theorem statusWord_toNat (s : State) :
    (statusWord s).toNat = s.phase.code.toNat + 8 * s.rot.code.toNat + 32 * s.bg.code.toNat +
      256 * s.protoErr.toNat + 512 * s.xportErr.toNat := by
  simp only [statusWord, toNat_append_eq_add, BitVec.toNat_ofBool, BitVec.toNat_ofNat]
  omega

/-- The bits of STATUS_WORD above 9 are zero, so VALUE[9:0] is all of it. -/
theorem readStatus_value_toNat (s : State) :
    (((statusWord s).extractLsb' 0 10).zeroExtend 24).toNat = (statusWord s).toNat := by
  have hphase := s.phase.code.isLt
  have hrot := s.rot.code.isLt
  have hbg := s.bg.code.isLt
  have hproto := s.protoErr.toNat_lt
  have hxport := s.xportErr.toNat_lt
  have hlt : (statusWord s).toNat < 2 ^ 10 := by rw [statusWord_toNat]; omega
  simp only [BitVec.truncate_eq_setWidth, BitVec.toNat_setWidth, BitVec.extractLsb'_toNat, Nat.shiftRight_zero]
  omega

/-- Settles O50: READ_STATUS answers STATUS_WORD, which has R40's layout. -/
theorem readStatusAnswersTheStatusWord : Obligations.ReadStatusAnswersTheStatusWord := by
  intro s
  rw [← statusWord_toNat, ← readStatus_value_toNat]
  exact congrArg Host.Outcome.next (respond_eq_plusResponse .ok _ s)

/-! ### After block reset (R42, R300) -/

theorem inv_resetWith {c : Config} (h : c.wf = true) : Inv (State.resetWith c) where
  config := h
  memory := resetWith_memory_wf c
  control := ⟨rfl, rfl, rfl⟩
  lines := ⟨rfl, rfl⟩
  wire := fun _ hp => by cases hp

/-- Settles O52: after block reset nothing is in progress, FB lists no cell and the trace is empty. -/
theorem resetHasInvariant : Obligations.ResetHasInvariant :=
  ⟨fun _ h => inv_resetWith h, inv_resetWith (by decide)⟩

/-- With no cell listed, FB reads as FB_INIT. -/
theorem resetWith_fbBytes {c : Config} (h : c.Ok) : (State.resetWith c).fbBytes = c.fbInit := by
  obtain ⟨-, -, -, -, -, hlen, -⟩ := h
  refine List.ext_getElem ((fbBytes_length _).trans hlen.symm) fun i _ hi => ?_
  simp [State.fbBytes, State.fbByte, State.resetWith, cellsFind, Config.fbUnlisted, hi]

/-- Settles O53: the registers by State.resetWith's definition, and FB by the cells it does not list. -/
theorem blockResetValues : Obligations.BlockResetValues := fun c =>
  ⟨rfl, rfl, rfl, rfl, rfl, rfl, rfl, rfl, rfl, rfl, fun h => resetWith_fbBytes (c.wf_iff.1 h)⟩

end Sys2Proof.Machine
end

section
/-! The memory family (20_memory.md): the native pixel a caller's coordinates name, and the byte it lives in. -/

namespace Sys2Proof

/-! ### The byte of a native pixel (R61, R62) -/

theorem Config.Ok.width_eq_two_mul {c : Config} (h : c.Ok) : c.width = 2 * (c.width / 2) := by
  obtain ⟨heven, -⟩ := h
  omega

theorem Config.Ok.halfWidth_pos {c : Config} (h : c.Ok) : 0 < c.width / 2 := by
  obtain ⟨heven, hpos, -⟩ := h
  omega

/-- The buffer is HEIGHT rows of WIDTH/2 bytes: an index is in it when its row is in the frame. -/
theorem Config.Ok.lt_fbLen_iff {c : Config} (h : c.Ok) (i : Nat) : i < c.fbLen ↔ i / (c.width / 2) < c.height := by
  have hlen : c.fbLen = c.width / 2 * c.height := Nat.mul_div_right_comm ⟨_, h.width_eq_two_mul⟩ c.height
  rw [hlen, Nat.mul_comm, Nat.div_lt_iff_lt_mul h.halfWidth_pos]

/-- WIDTH being even, the second pixel of a byte is in the row too. -/
theorem Config.Ok.two_mul_add_one_lt_width {c : Config} (h : c.Ok) {k : Nat} (hk : k < c.width / 2) :
    2 * k + 1 < c.width := by
  have := h.width_eq_two_mul
  omega

/-- A byte index is its row and its place in the row, as quotient and remainder by the bytes of a row. -/
theorem byteIndex_eq_iff {c : Config} (h : c.Ok) {nx : Nat} (hnx : nx < c.width) (ny i : Nat) :
    byteIndex c nx ny = i ↔ nx / 2 = i % (c.width / 2) ∧ ny = i / (c.width / 2) := by
  have hcol : nx / 2 < c.width / 2 := by
    have := h.width_eq_two_mul
    omega
  rw [eq_comm (a := ny), and_comm, eq_comm (a := nx / 2), Nat.div_mod_unique h.halfWidth_pos]
  exact ⟨fun hi => ⟨hi, hcol⟩, And.left⟩

theorem byteIndex_lt_fbLen {c : Config} (h : c.Ok) {nx ny : Nat} (hnx : nx < c.width) (hny : ny < c.height) :
    byteIndex c nx ny < c.fbLen := by
  obtain ⟨-, hrow⟩ := (byteIndex_eq_iff h hnx ny _).1 rfl
  exact (h.lt_fbLen_iff _).2 (hrow ▸ hny)

/-! ### The rotated bounds (R163, R164) -/

/-- The rotated bounds accept exactly the coordinates whose native pixel lies in the panel. -/
theorem inBounds_iff_native (c : Config) (r : Rotation) (x y : Int) :
    inBounds c r x y = true ↔
      (0 ≤ (native c r x y).1 ∧ (native c r x y).1 < c.width) ∧
        0 ≤ (native c r x y).2 ∧ (native c r x y).2 < c.height := by
  cases r <;> simp [inBounds, native] <;> omega

end Sys2Proof

namespace Sys2Proof.Machine

/-- Settles O23: by byteIndex_eq_iff, the pixels of byte i are those of its row whose native x halves to k. -/
theorem everyByteHoldsTwoNativePixels : Obligations.EveryByteHoldsTwoNativePixels := by
  intro c i hwf hi
  have hok := c.wf_iff.1 hwf
  refine ⟨fun nx ny => byteIndex_lt_fbLen hok, hok.two_mul_add_one_lt_width (Nat.mod_lt i hok.halfWidth_pos),
    (hok.lt_fbLen_iff i).1 hi, fun nx ny hnx _ => ?_⟩
  have hhalf (k : Nat) : nx / 2 = k ↔ nx = 2 * k ∨ nx = 2 * k + 1 := by omega
  rw [byteIndex_eq_iff hok hnx, hhalf]

/-! ### The native pixel in the state's rotation (R164) -/

/-- In bounds, the native coordinates are not negative, so nothing is lost where they are taken as naturals. -/
theorem pixel_eq_native {s : State} {x y : Int} (h : inBounds s.cfg s.rot x y = true) :
    ((pixelX s x y : Int), (pixelY s x y : Int)) = native s.cfg s.rot x y := by
  obtain ⟨⟨hx, -⟩, hy, -⟩ := (inBounds_iff_native ..).1 h
  exact Prod.ext (Int.toNat_of_nonneg hx) (Int.toNat_of_nonneg hy)

theorem pixel_lt_of_inBounds {s : State} {x y : Int} (h : inBounds s.cfg s.rot x y = true) :
    pixelX s x y < s.cfg.width ∧ pixelY s x y < s.cfg.height := by
  obtain ⟨⟨-, hx⟩, -, hy⟩ := (inBounds_iff_native ..).1 h
  rw [← pixel_eq_native h] at hx hy
  exact ⟨Int.ofNat_lt.1 hx, Int.ofNat_lt.1 hy⟩

/-- Settles O21: each rotation's line is native's, read through pixel_eq_native; the index is byteIndex of that pixel,
which lies in the panel. -/
theorem pixelAddressFollowsRotation : Obligations.PixelAddressFollowsRotation := by
  intro x y s h
  have hpixel (r : Rotation) (hr : s.rot = r) :
      (pixelX s x y : Int) = (native s.cfg r x y).1 ∧ (pixelY s x y : Int) = (native s.cfg r x y).2 :=
    Prod.ext_iff.1 (hr ▸ pixel_eq_native h)
  obtain ⟨hx, hy⟩ := pixel_lt_of_inBounds h
  exact ⟨hpixel .deg0, hpixel .deg90, hpixel .deg180, hpixel .deg270, hx, hy, rfl,
    fun hwf => byteIndex_lt_fbLen (s.cfg.wf_iff.1 hwf) hx hy⟩

end Sys2Proof.Machine
end

section
/-! The encoding family (30_encoding.md): decode and encode are inverse to each other, decode agrees with the opcode
table's masks and refuses by name, and every response has the layout of R96. -/

namespace Sys2Proof

/-! ### What decode answers (R94, R95) -/

theorem mem_allOps (op : Op) : op ∈ allOps := by cases op <;> decide

theorem lookupOp_eq_some_iff {o : Byte} {op : Op} : lookupOp o = some op ↔ o = opcodeOf op := by
  refine ⟨fun h => ?_, fun h => h ▸ lookupOp_opcodeOf op⟩
  rw [lookupOp] at h
  have hfound := List.find?_some h
  exact (beq_iff_eq.1 hfound).symm

theorem decode_of_opcode {w : Req} {op : Op} (hopc : fieldOpc w = opcodeOf op) :
    decode w = if zeroFieldsOk (formatOf op) w then .ok (assemble op w) else .error .nonzeroField := by
  simp only [decode, hopc, lookupOp_opcodeOf]

theorem decode_of_unassigned {w : Req} (h : lookupOp (fieldOpc w) = none) : decode w = .error .unassignedOpcode := by
  simp only [decode, h]

/-- Everything decode can answer, and where it does. -/
theorem decode_cases (w : Req) :
    (lookupOp (fieldOpc w) = none ∧ decode w = .error .unassignedOpcode) ∨
    ∃ op, fieldOpc w = opcodeOf op ∧
      ((zeroFieldsOk (formatOf op) w = true ∧ decode w = .ok (assemble op w)) ∨
       (zeroFieldsOk (formatOf op) w = false ∧ decode w = .error .nonzeroField)) := by
  cases hop : lookupOp (fieldOpc w) with
  | none => exact .inl ⟨rfl, decode_of_unassigned hop⟩
  | some op =>
    have hopc := lookupOp_eq_some_iff.1 hop
    refine .inr ⟨op, hopc, ?_⟩
    cases hzero : zeroFieldsOk (formatOf op) w <;> simp [decode_of_opcode hopc, hzero]

/-- A word decodes exactly where it has an operation's opcode and zero in the zero fields of its format. -/
theorem decode_eq_ok_iff {w : Req} {i : Instr} :
    decode w = .ok i ↔
      ∃ op, fieldOpc w = opcodeOf op ∧ zeroFieldsOk (formatOf op) w = true ∧ assemble op w = i := by
  constructor
  · intro h
    rcases decode_cases w with ⟨-, hd⟩ | ⟨op, hopc, ⟨hzero, hd⟩ | ⟨-, hd⟩⟩ <;> rw [hd] at h <;> cases h
    exact ⟨op, hopc, hzero, rfl⟩
  · rintro ⟨op, hopc, hzero, rfl⟩
    rw [decode_of_opcode hopc, if_pos hzero]

theorem decode_eq_nonzeroField_iff {w : Req} :
    decode w = .error .nonzeroField ↔ ∃ op, fieldOpc w = opcodeOf op ∧ zeroFieldsOk (formatOf op) w = false := by
  constructor
  · intro h
    rcases decode_cases w with ⟨-, hd⟩ | ⟨op, hopc, ⟨-, hd⟩ | ⟨hzero, -⟩⟩
    · rw [hd] at h; cases h
    · rw [hd] at h; cases h
    · exact ⟨op, hopc, hzero⟩
  · rintro ⟨op, hopc, hzero⟩
    rw [decode_of_opcode hopc, if_neg (by simp [hzero])]

theorem decode_eq_unassignedOpcode_iff {w : Req} :
    decode w = .error .unassignedOpcode ↔ lookupOp (fieldOpc w) = none := by
  refine ⟨fun h => ?_, decode_of_unassigned⟩
  rcases decode_cases w with ⟨hnone, -⟩ | ⟨op, -, ⟨-, hd⟩ | ⟨-, hd⟩⟩
  · exact hnone
  · rw [hd] at h; cases h
  · rw [hd] at h; cases h

/-! ### Operands read back from their fields (R91) -/

/-- A byte with only its low n bits set is those bits, extended. -/
theorem zeroExtend_low_of_high_eq_zero {f : Byte} {n k : Nat} (hnk : n + k = 8) (h : f.extractLsb' n k = 0) :
    (f.extractLsb' 0 n).zeroExtend 8 = f := by
  refine BitVec.eq_of_getLsbD_eq fun i hi => ?_
  by_cases hin : i < n
  · simp [hin, hi]
  · have hbit : (f.extractLsb' n k).getLsbD (i - n) = false := by rw [h]; exact BitVec.getLsbD_zero
    have hik : i - n < k := by omega
    simp only [BitVec.getLsbD_extractLsb', Nat.add_sub_cancel' (Nat.le_of_not_lt hin), hik, decide_true,
      Bool.true_and] at hbit
    simp [hin, hbit]

theorem colorByte_colorOperand {f : Byte} (h : f.extractLsb' 3 5 = 0) : colorByte (colorOperand f) = f := by
  rw [colorByte, colorOperand, code_ofCode, zeroExtend_low_of_high_eq_zero rfl h]

theorem code_rotationOfCode (k : BitVec 2) : (Rotation.ofCode k).code = k := by
  revert k; decide

theorem rotationByte_rotationOperand {f : Byte} (h : f.extractLsb' 2 6 = 0) :
    rotationByte (rotationOperand f) = f := by
  rw [rotationByte, rotationOperand, code_rotationOfCode, zeroExtend_low_of_high_eq_zero rfl h]

theorem coordOk_iff {x : Int} : coordOk x = true ↔ -2147483648 ≤ x ∧ x ≤ 2147483647 := by simp [coordOk]

/-- A coordinate in range is the signed value of its field. -/
theorem toInt_ofInt_of_coordOk {x : Int} (h : coordOk x = true) : (BitVec.ofInt 32 x).toInt = x := by
  obtain ⟨hlow, hhigh⟩ := coordOk_iff.1 h
  exact BitVec.toInt_ofInt_eq_self (by decide) hlow (Int.lt_add_one_of_le hhigh)

theorem coordOk_toInt (v : BitVec 32) : coordOk v.toInt = true :=
  coordOk_iff.2 ⟨v.le_toInt, Int.le_of_lt_add_one v.toInt_lt⟩

/-! ### Encoding and decoding -/

open Laws.EncodeFields in
/-- Every instruction's word has its operation's opcode and zero in the zero fields of its format. -/
theorem encode_fields : ∀ i : Instr, Statement i
  | .toCode c => toCode c
  | .fromCode a => fromCode a
  | .pack hi lo => pack hi lo
  | .unpack a => unpack a
  | .nearest r g b => nearest r g b
  | .fbClear c => fbClear c
  | .fbSetRotation r => fbSetRotation r
  | .fbSetPixel x y c => fbSetPixel x y c
  | .fbAsBytes => fbAsBytes
  | .pcReset => pcReset
  | .pcInitialize => pcInitialize
  | .pcWakeUp => pcWakeUp
  | .pcUpdateFrame => pcUpdateFrame
  | .pcDisplayFrame => pcDisplayFrame
  | .pcUpdateAndDisplayFrame => pcUpdateAndDisplayFrame
  | .pcClearFrame => pcClearFrame
  | .pcPowerOff => pcPowerOff
  | .pcSleep => pcSleep
  | .pcSetBackground c => pcSetBackground c
  | .isBusy => isBusy
  | .readStatus => readStatus

/-- The operands are assembled from the fields they were put in. -/
theorem assemble_encode {i : Instr} (h : i.wf = true) : assemble (opOf i) (encode i) = i := by
  cases i with
  | fbSetPixel x y c =>
    obtain ⟨hx, hy⟩ := Bool.and_eq_true_iff.1 h
    simp [assemble, opOf, encode, toInt_ofInt_of_coordOk hx, toInt_ofInt_of_coordOk hy]
  | _ => simp [assemble, opOf, encode]

theorem assemble_wf (op : Op) (w : Req) : (assemble op w).wf = true := by
  cases op with
  | fbSetPixel => exact Bool.and_eq_true_iff.2 ⟨coordOk_toInt _, coordOk_toInt _⟩
  | _ => rfl

@[simp] theorem opOf_assemble (op : Op) (w : Req) : opOf (assemble op w) = op := by cases op <;> rfl

/-- Where the zero fields are zero, the assembled operands hold all that the fields above OPC hold. -/
theorem encode_assemble {op : Op} {w : Req} (h : zeroFieldsOk (formatOf op) w = true) :
    encode (assemble op w) = reqOf (opcodeOf op) (fieldA w) (fieldB w) (fieldC w) (fieldX w) (fieldY w) := by
  cases op <;> simp only [formatOf, zeroFieldsOk, Bool.and_eq_true, beq_iff_eq] at h <;>
    simp [encode, assemble, opOf, h, colorByte_colorOperand, rotationByte_rotationOperand]

/-- Settles O1: the word of i has the opcode and the zero fields of i's operation, and i's operands in its fields. -/
theorem decodeOfEncodeGivesInstructionBack : Obligations.DecodeOfEncodeGivesInstructionBack := by
  intro i hwf
  obtain ⟨hopc, hzero⟩ := encode_fields i
  exact decode_eq_ok_iff.2 ⟨opOf i, hopc, hzero, assemble_encode hwf⟩

/-- Settles O2: a word is what its six fields make, and a word that decodes has nothing in them but the opcode and the
operands. -/
theorem encodeOfDecodeGivesWordBack : Obligations.EncodeOfDecodeGivesWordBack := by
  intro w i h
  obtain ⟨op, hopc, hzero, rfl⟩ := decode_eq_ok_iff.1 h
  refine ⟨assemble_wf op w, ?_⟩
  rw [encode_assemble hzero, ← hopc, reqOf_fields]

/-! ### The masks of the opcode table (R92, R93) -/

/-- The bits a format fixes: OPC and its zero fields. -/
def Format.mask : Format → Req
  | .f0 => reqOf 0xFF 0xFF 0xFF 0xFF 0xFFFFFFFF 0xFFFFFFFF
  | .fc => reqOf 0xFF 0xF8 0xFF 0xFF 0xFFFFFFFF 0xFFFFFFFF
  | .fcc => reqOf 0xFF 0xF8 0xF8 0xFF 0xFFFFFFFF 0xFFFFFFFF
  | .fn => reqOf 0xFF 0 0xFF 0xFF 0xFFFFFFFF 0xFFFFFFFF
  | .frgb => reqOf 0xFF 0 0 0 0xFFFFFFFF 0xFFFFFFFF
  | .fr => reqOf 0xFF 0xFC 0xFF 0xFF 0xFFFFFFFF 0xFFFFFFFF
  | .fp => reqOf 0xFF 0xF8 0xFF 0xFF 0 0

/-- Every row of the table is an operation with its opcode as match and its format's fixed bits as mask. -/
theorem opcodeTable_eq_map :
    Machine.opcodeTable = allOps.map fun op => (op, reqOf (opcodeOf op) 0 0 0 0 0, (formatOf op).mask) := by decide

theorem forall_mem_opcodeTable_iff {P : Op × Req × Req → Prop} :
    (∀ row ∈ Machine.opcodeTable, P row) ↔ ∀ op, P (op, reqOf (opcodeOf op) 0 0 0 0 0, (formatOf op).mask) := by
  simp [opcodeTable_eq_map, mem_allOps]

/-- A word masked field by field. -/
theorem and_reqOf (w : Req) (o a b c : Byte) (x y : BitVec 32) :
    w &&& reqOf o a b c x y =
      reqOf (fieldOpc w &&& o) (fieldA w &&& a) (fieldB w &&& b) (fieldC w &&& c) (fieldX w &&& x)
        (fieldY w &&& y) := by
  conv_lhs => rw [← reqOf_fields w]
  refine BitVec.eq_of_getLsbD_eq fun i _ => ?_
  simp only [BitVec.getLsbD_and, reqOf_getLsbD]
  split_ifs <;> rfl

theorem reqOf_inj {o a b c o' a' b' c' : Byte} {x y x' y' : BitVec 32} :
    reqOf o a b c x y = reqOf o' a' b' c' x' y' ↔ o = o' ∧ a = a' ∧ b = b' ∧ c = c' ∧ x = x' ∧ y = y' := by
  constructor
  · intro h
    exact ⟨by simpa using congrArg fieldOpc h, by simpa using congrArg fieldA h, by simpa using congrArg fieldB h,
      by simpa using congrArg fieldC h, by simpa using congrArg fieldX h, by simpa using congrArg fieldY h⟩
  · rintro ⟨rfl, rfl, rfl, rfl, rfl, rfl⟩; rfl

theorem and_colorMask_eq_zero_iff (f : Byte) : f &&& 0xF8 = 0 ↔ f.extractLsb' 3 5 = 0 := by
  revert f; decide

theorem and_rotationMask_eq_zero_iff (f : Byte) : f &&& 0xFC = 0 ↔ f.extractLsb' 2 6 = 0 := by
  revert f; decide

/-- A word masked with a format's fixed bits is a bare opcode exactly where it has the opcode and zero fields. -/
theorem and_mask_eq_iff (f : Format) (w : Req) (o : Byte) :
    w &&& f.mask = reqOf o 0 0 0 0 0 ↔ fieldOpc w = o ∧ zeroFieldsOk f w = true := by
  have hbyte (v : Byte) : v &&& 0xFF = v := BitVec.and_allOnes
  have hcoord (v : BitVec 32) : v &&& 0xFFFFFFFF = v := BitVec.and_allOnes
  have hfree {n : Nat} (v : BitVec n) : v &&& 0 = 0 := BitVec.and_zero
  cases f <;> simp only [Format.mask, and_reqOf, reqOf_inj, hbyte, hcoord, hfree, and_colorMask_eq_zero_iff,
    and_rotationMask_eq_zero_iff, zeroFieldsOk, Bool.and_eq_true, beq_iff_eq, and_assoc, true_and,
    and_true]

/-- A word matches an operation's row exactly where it decodes to an instruction of that operation. -/
theorem and_mask_eq_iff_decode (op : Op) (w : Req) :
    w &&& (formatOf op).mask = reqOf (opcodeOf op) 0 0 0 0 0 ↔ ∃ i, decode w = .ok i ∧ opOf i = op := by
  rw [and_mask_eq_iff]
  constructor
  · rintro ⟨hopc, hzero⟩
    exact ⟨assemble op w, decode_eq_ok_iff.2 ⟨op, hopc, hzero, rfl⟩, opOf_assemble op w⟩
  · rintro ⟨i, hi, rfl⟩
    obtain ⟨op, hopc, hzero, rfl⟩ := decode_eq_ok_iff.1 hi
    rw [opOf_assemble]
    exact ⟨hopc, hzero⟩

/-- Settles O3: a row is a format's mask, which and_mask_eq_iff_decode reads; a word is refused where it decodes to an
instruction of no operation. -/
theorem decodeAgreesWithMasksOfOpcodeTable : Obligations.DecodeAgreesWithMasksOfOpcodeTable := by
  intro w
  simp only [forall_mem_opcodeTable_iff, ne_eq, and_mask_eq_iff_decode, implies_true, true_and]
  cases hdecode : decode w with
  | ok i => simp
  | error e => simp

/-! ### Illegal words (R95) -/

/-- The opcodes of no row of R93, by their ranges. -/
theorem lookupOp_eq_none_iff (o : Byte) :
    lookupOp o = none ↔
      o.toNat = 0 ∨ (6 ≤ o.toNat ∧ o.toNat ≤ 0x0F) ∨ (0x14 ≤ o.toNat ∧ o.toNat ≤ 0x1F) ∨
        (0x2A ≤ o.toNat ∧ o.toNat ≤ 0x2F) ∨ 0x32 ≤ o.toNat := by
  simp only [lookupOp, List.find?_eq_none, allOps, List.forall_mem_cons, List.not_mem_nil, false_implies, implies_true,
    and_true, beq_iff_eq, opcodeOf]
  bv_omega

/-- Settles O4: the two causes are decode's own two branches; FROM_CODE and UNPACK with any A are words of
instructions. -/
theorem illegalEncodingsAreRefusedByName : Obligations.IllegalEncodingsAreRefusedByName :=
  ⟨fun _ => decode_eq_unassignedOpcode_iff.trans (lookupOp_eq_none_iff _), fun _ => decode_eq_nonzeroField_iff,
    fun a => ⟨decodeOfEncodeGivesInstructionBack (.fromCode a) rfl, decodeOfEncodeGivesInstructionBack (.unpack a) rfl⟩⟩

/-- Settles O6: nine closed words, decoded by evaluation. -/
theorem wordsOfTheSpecDecode : Obligations.WordsOfTheSpecDecode := by
  unfold Obligations.WordsOfTheSpecDecode
  decide

end Sys2Proof

namespace Sys2Proof.Machine

/-! ### Responses (R96, R97) -/

/-- Going on with a request answers nothing, or one response word. -/
theorem resumeSeq_rsps (op : SeqOp) (s : State) :
    (resumeSeq op s).rsps = s.rsps ∨ ∃ st, (resumeSeq op s).rsps = s.rsps ++ [⟨respWord st 0, []⟩] := by
  rcases runElems_responds op _ s (resume_plain op s) with ⟨-, -, -, hrsps⟩ | ⟨-, -, hrsps, -⟩
  · exact .inr hrsps
  · exact .inl hrsps

/-- A step answers nothing, or one response word. -/
theorem step_rsps {s t : State} (h : step s = .next t) :
    t.rsps = s.rsps ∨ ∃ st v d, t.rsps = s.rsps ++ [⟨respWord st v, d⟩] := by
  rcases step_effect h with ⟨op, -, rfl⟩ | rfl | ⟨w, rest, op, -, -, -, rfl⟩ | ⟨rest, i, -, heffect⟩ |
    ⟨rest, -, rfl⟩
  · exact (resumeSeq_rsps op s).imp_right fun ⟨st, hrsps⟩ => ⟨st, 0, [], hrsps⟩
  · exact .inl rfl
  · exact (resumeSeq_rsps op (acceptSeq op { s with reqPort := rest })).imp_right fun ⟨st, hrsps⟩ => ⟨st, 0, [], hrsps⟩
  · exact .inr heffect.rsps
  · exact .inr ⟨.illegal, 0, [], rfl⟩

/-- Settles O58: the one response a step may add is a respWord, which has the layout. -/
theorem responsesKeepTheirLayout : Obligations.ResponsesKeepTheirLayout := by
  intro s t h hold r hr
  rcases step_rsps h with hsame | ⟨st, v, d, hadded⟩
  · exact hold r (hsame ▸ hr)
  · rw [hadded, List.mem_append, List.mem_singleton] at hr
    rcases hr with hr | rfl
    · exact hold r hr
    · exact respWord_layout st v

theorem fbBytes_getElem? (s : State) {i : Nat} (h : i < s.cfg.fbLen) : s.fbBytes[i]? = some (s.fbByte i) := by
  simp [State.fbBytes, h]

/-- Settles O25: the data stream is fbBytes. -/
theorem asBytesExportsTheBuffer : Obligations.AsBytesExportsTheBuffer := by
  intro s
  refine ⟨s.fbBytes, ?_, fbBytes_length s, fun i => fbBytes_getElem? s⟩
  have hword : respWord .ok 0 = rspOf 0 0 := respWord_eq_rspOf .ok 0
  rw [← hword]
  rfl

end Sys2Proof.Machine
end

section
/-! The colour family (40_color_model.md): NEAREST is Mathlib's List.argmin over the enumeration, and what PACK, UNPACK
and FROM_CODE do with the nibbles of a byte. -/

namespace Sys2Proof

/-! ### Codes (R130) -/

theorem idxOf_allColors (c : Color) : allColors.idxOf c = c.code.toNat := by cases c <;> rfl

theorem exists_color_of_le {n : Nat} (h : n ≤ 7) : ∃ c : Color, c.code.toNat = n :=
  ⟨.ofCode (BitVec.ofNat 3 n), by rw [code_ofCode, BitVec.toNat_ofNat]; omega⟩

theorem code_toNat_injective : Function.Injective fun c : Color => c.code.toNat :=
  fun a b h => by rw [← ofCode_code a, ← ofCode_code b, BitVec.eq_of_toNat_eq h]

/-! ### The distance (R137) -/

theorem rgbDist_nonneg (p q : Rgb) : 0 ≤ rgbDist p q := by unfold rgbDist; positivity

theorem rgbDist_eq_zero_iff {p q : Rgb} : rgbDist p q = 0 ↔ p = q := by
  have hchannel (x y : Byte) : ((x.toNat : Int) - y.toNat) ^ 2 = 0 ↔ x = y := by
    rw [sq_eq_zero_iff, sub_eq_zero, Nat.cast_inj, BitVec.toNat_inj]
  obtain ⟨r, g, b⟩ := p
  obtain ⟨r', g', b'⟩ := q
  rw [rgbDist, add_eq_zero_iff_of_nonneg (by positivity) (by positivity),
    add_eq_zero_iff_of_nonneg (by positivity) (by positivity), hchannel, hchannel, hchannel, Rgb.mk.injEq, and_assoc]

/-! ### The search (R136, R138) -/

/-- A strict comparison that keeps the best so far is the one argmin folds with. -/
theorem argmin_cons_eq_nearestFrom (p : Palette) (v : Rgb) (best : Color) (cs : List Color) :
    (best :: cs).argmin (fun c => rgbDist v (p.rgb c)) = some (nearestFrom p v best cs) := by
  induction cs generalizing best with
  | nil => rfl
  | cons c cs ih =>
    rw [nearestFrom]
    split_ifs with hlt
    · rw [← ih c]; simp [List.argmin, List.argAux, hlt]
    · rw [← ih best]; simp [List.argmin, List.argAux, hlt]

/-- The first colour, in enumeration order, at which d is least. -/
theorem argmin_allColors_eq_some_iff {d : Color → Int} {k : Color} :
    allColors.argmin d = some k ↔ (∀ c, d k ≤ d c) ∧ ∀ c, c.code.toNat < k.code.toNat → d k < d c := by
  have hmem := List.mem_argmin_iff (f := d) (m := k) (l := allColors)
  simp only [Option.mem_def, mem_allColors, idxOf_allColors, true_and, forall_const] at hmem
  rw [hmem]
  refine and_congr_right fun hle => forall_congr' fun c => ?_
  have := hle c
  constructor <;> omega

theorem argmin_allColors_eq_nearestSearch (p : Palette) (v : Rgb) :
    allColors.argmin (fun c => rgbDist v (p.rgb c)) = some (nearestSearch p v) :=
  argmin_cons_eq_nearestFrom p v .black allColors.tail

/-- The first colour with a property: no colour of a lower code has it. -/
theorem find?_allColors_eq_some {q : Color → Bool} {k : Color} (h : allColors.find? q = some k) :
    q k = true ∧ ∀ c, c.code.toNat < k.code.toNat → q c = false := by
  obtain ⟨hk, i, hi, hget, hbefore⟩ := List.find?_eq_some_iff_getElem.1 h
  have hcode (j : Nat) (hj : j < allColors.length) : allColors[j].code.toNat = j := by
    revert j; decide
  refine ⟨hk, fun c hc => ?_⟩
  obtain ⟨j, hj, rfl⟩ := List.getElem_of_mem (mem_allColors c)
  rw [← hget, hcode, hcode] at hc
  simpa using hbefore j hc

/-- An exact match is at distance 0 and any colour before the first one is farther, so the search finds it too, even
where two colours share a triple. -/
theorem nearestColor_eq_nearestSearch (p : Palette) (v : Rgb) : nearestColor p v = nearestSearch p v := by
  unfold nearestColor
  split
  next k hfind =>
    obtain ⟨hk, hbefore⟩ := find?_allColors_eq_some hfind
    have hzero : rgbDist v (p.rgb k) = 0 := rgbDist_eq_zero_iff.2 (beq_iff_eq.1 hk).symm
    refine Option.some_inj.1 (Eq.trans (Eq.symm ?_) (argmin_allColors_eq_nearestSearch p v))
    refine argmin_allColors_eq_some_iff.2 ⟨fun c => hzero ▸ rgbDist_nonneg _ _, fun c hc => ?_⟩
    have hne : p.rgb c ≠ v := beq_eq_false_iff_ne.1 (hbefore c hc)
    exact hzero ▸ (rgbDist_nonneg _ _).lt_of_ne fun h => hne (rgbDist_eq_zero_iff.1 h.symm).symm
  next => rfl

/-- What NEAREST answers: the first colour at the least distance. -/
theorem nearestColor_spec (p : Palette) (v : Rgb) :
    (∀ c, rgbDist v (p.rgb (nearestColor p v)) ≤ rgbDist v (p.rgb c)) ∧
      ∀ c, c.code.toNat < (nearestColor p v).code.toNat →
        rgbDist v (p.rgb (nearestColor p v)) < rgbDist v (p.rgb c) := by
  rw [nearestColor_eq_nearestSearch]
  exact argmin_allColors_eq_some_iff.1 (argmin_allColors_eq_nearestSearch p v)

/-- A colour at the operand's own triple leaves the nearest one at distance 0, at that triple too. -/
theorem rgb_nearestColor_of_exact {p : Palette} {v : Rgb} {c : Color} (h : p.rgb c = v) :
    p.rgb (nearestColor p v) = v := by
  have hle := (nearestColor_spec p v).1 c
  rw [rgbDist_eq_zero_iff.2 h.symm] at hle
  exact (rgbDist_eq_zero_iff.1 (le_antisymm hle (rgbDist_nonneg _ _))).symm

/-- Settles O16: the search finds an exact match by itself, for any palette. -/
theorem exactMatchClauseIsRedundant : Obligations.ExactMatchClauseIsRedundant :=
  fun p v _ => nearestColor_eq_nearestSearch p v

/-! ### Nibbles (R133 to R135) -/

/-- The library's lemma about setWidth, for the zeroExtend the model writes. -/
theorem toNat_zeroExtend_of_le {m n : Nat} (h : m ≤ n) (x : BitVec m) : (x.zeroExtend n).toNat = x.toNat :=
  BitVec.toNat_setWidth_of_le h

theorem hiNibble_toNat (a : Byte) : (hiNibble a).toNat = a.toNat / 16 := by
  have := a.isLt
  rw [hiNibble, BitVec.extractLsb'_toNat, Nat.shiftRight_eq_div_pow]
  omega

theorem loNibble_toNat (a : Byte) : (loNibble a).toNat = a.toNat % 16 := BitVec.extractLsb'_toNat ..

theorem colorOfNibble_eq_some_iff {n : BitVec 4} {c : Color} : colorOfNibble n = some c ↔ c.code.toNat = n.toNat := by
  have hc := c.code.isLt
  unfold colorOfNibble
  split_ifs with hn
  · have hlow : (Color.ofCode (n.extractLsb' 0 3)).code.toNat = n.toNat := by
      rw [code_ofCode, BitVec.extractLsb'_toNat, Nat.shiftRight_zero]
      omega
    rw [Option.some_inj, ← code_toNat_injective.eq_iff, hlow, eq_comm]
  · simp only [false_iff]
    omega

theorem colorOfNibble_eq_none {n : BitVec 4} (h : 8 ≤ n.toNat) : colorOfNibble n = none :=
  if_neg (Nat.not_le.2 h)

theorem packByte_toNat (hi lo : Color) : (packByte hi lo).toNat = 16 * hi.code.toNat + lo.code.toNat := by
  have hhi := hi.code.isLt
  have hlo : lo.code.toNat < 2 ^ 4 := by omega
  rw [packByte, BitVec.toNat_or, BitVec.toNat_shiftLeft, toNat_zeroExtend_of_le (by decide),
    toNat_zeroExtend_of_le (by decide), Nat.mod_eq_of_lt (by rw [Nat.shiftLeft_eq]; omega),
    ← Nat.shiftLeft_add_eq_or_of_lt hlo, Nat.shiftLeft_eq, Nat.mul_comm]

/-- A byte is pack of the two colours whose codes are its nibbles. -/
theorem packByte_eq_iff {hi lo : Color} {a : Byte} :
    packByte hi lo = a ↔ hi.code.toNat = a.toNat / 16 ∧ lo.code.toNat = a.toNat % 16 := by
  have hlo := lo.code.isLt
  rw [← BitVec.toNat_inj, packByte_toNat]
  omega

end Sys2Proof

namespace Sys2Proof.Machine

/-! ### What the five requests answer (R132 to R136) -/

theorem colorValue_toNat (c : Color) : (colorValue c).toNat = c.code.toNat :=
  toNat_zeroExtend_of_le (by decide) _

theorem respond_colorValue (c : Color) (s : State) : respond .ok (colorValue c) s = plusResponse s c.code.toNat 0 := by
  rw [respond_eq_plusResponse, colorValue_toNat]
  rfl

theorem raiseOutOfRange_eq_plusResponse (n : BitVec 4) (s : State) :
    raiseOutOfRange n s = plusResponse s n.toNat 1 := by
  rw [raiseOutOfRange, respond_eq_plusResponse, toNat_zeroExtend_of_le (by decide)]
  rfl

theorem exec_toCode (c : Color) (s : State) : exec (.toCode c) s = .next (plusResponse s c.code.toNat 0) :=
  congrArg _ (respond_colorValue c s)

theorem exec_pack (hi lo : Color) (s : State) :
    exec (.pack hi lo) s = .next (plusResponse s (16 * hi.code.toNat + lo.code.toNat) 0) := by
  rw [← packByte_toNat, ← toNat_zeroExtend_of_le (show 8 ≤ 24 by decide)]
  exact congrArg _ (respond_eq_plusResponse ..)

theorem exec_nearest (r g b : Byte) (s : State) :
    exec (.nearest r g b) s = .next (plusResponse s (nearestColor s.cfg.palette ⟨r, g, b⟩).code.toNat 0) :=
  congrArg _ (respond_colorValue _ s)

/-- Settles O15: nearestColor_spec through exec_nearest; an exact match is at the nearest colour's triple, and a valid
configuration's PALETTE is injective. -/
theorem nearestIsFirstAtLeastDistance : Obligations.NearestIsFirstAtLeastDistance := by
  intro r g b s
  obtain ⟨hleast, hfirst⟩ := nearestColor_spec s.cfg.palette ⟨r, g, b⟩
  refine ⟨decodeOfEncodeGivesInstructionBack (.nearest r g b) rfl, _, exec_nearest r g b s, hleast, hfirst,
    fun hwf c hc => ?_⟩
  exact (s.cfg.wf_iff.1 hwf).palette_rgb_injective ((rgb_nearestColor_of_exact hc).trans hc.symm)

theorem exec_fromCode_of_color {a : Byte} {c : Color} (h : c.code.toNat = a.toNat % 16) (s : State) :
    exec (.fromCode a) s = .next (plusResponse s c.code.toNat 0) := by
  have hc := colorOfNibble_eq_some_iff.2 (h.trans (loNibble_toNat a).symm)
  simp only [exec, execFromCode, hc, respond_colorValue]

theorem exec_fromCode_of_outOfRange {a : Byte} (h : 8 ≤ a.toNat % 16) (s : State) :
    exec (.fromCode a) s = .next (plusResponse s (a.toNat % 16) 1) := by
  rw [← loNibble_toNat] at h ⊢
  simp only [exec, execFromCode, colorOfNibble_eq_none h, raiseOutOfRange_eq_plusResponse]

theorem exec_unpack_of_high_outOfRange {a : Byte} (h : 8 ≤ a.toNat / 16) (s : State) :
    exec (.unpack a) s = .next (plusResponse s (a.toNat / 16) 1) := by
  rw [← hiNibble_toNat] at h ⊢
  simp only [exec, execUnpack, colorOfNibble_eq_none h, raiseOutOfRange_eq_plusResponse]

theorem exec_unpack_of_low_outOfRange {a : Byte} {hi : Color} (hhi : hi.code.toNat = a.toNat / 16)
    (h : 8 ≤ a.toNat % 16) (s : State) : exec (.unpack a) s = .next (plusResponse s (a.toNat % 16) 1) := by
  have hc := colorOfNibble_eq_some_iff.2 (hhi.trans (hiNibble_toNat a).symm)
  rw [← loNibble_toNat] at h ⊢
  simp only [exec, execUnpack, hc, colorOfNibble_eq_none h, raiseOutOfRange_eq_plusResponse]

theorem exec_unpack_packByte (hi lo : Color) (s : State) :
    exec (.unpack (packByte hi lo)) s = .next (plusResponse s (hi.code.toNat + 256 * lo.code.toNat) 0) := by
  obtain ⟨hhi, hlo⟩ := packByte_eq_iff.1 (Eq.refl (packByte hi lo))
  have hh := colorOfNibble_eq_some_iff.2 (hhi.trans (hiNibble_toNat _).symm)
  have hl := colorOfNibble_eq_some_iff.2 (hlo.trans (loNibble_toNat _).symm)
  have hvalue : (0#8 ++ lo.code.zeroExtend 8 ++ hi.code.zeroExtend 8 : BitVec 24).toNat =
      hi.code.toNat + 256 * lo.code.toNat := by
    rw [toNat_append_eq_add, toNat_append_eq_add, toNat_zeroExtend_of_le (by decide),
      toNat_zeroExtend_of_le (by decide), BitVec.toNat_zero]
    omega
  simp only [exec, execUnpack, hh, hl]
  rw [respond_eq_plusResponse, hvalue]
  rfl

/-- A byte with both nibbles in range is pack of two colours. -/
theorem exists_packByte_eq {a : Byte} (hhigh : a.toNat / 16 ≤ 7) (hlow : a.toNat % 16 ≤ 7) :
    ∃ hi lo : Color, packByte hi lo = a := by
  obtain ⟨hi, hhi⟩ := exists_color_of_le hhigh
  obtain ⟨lo, hlo⟩ := exists_color_of_le hlow
  exact ⟨hi, lo, packByte_eq_iff.2 ⟨hhi, hlo⟩⟩

/-- Settles O14: every byte UNPACK accepts is a packed one, and UNPACK of a packed byte finds its colours. -/
theorem packAndUnpackAreInverse : Obligations.PackAndUnpackAreInverse := by
  refine ⟨exec_unpack_packByte, fun a hhigh hlow => ?_⟩
  obtain ⟨hi, lo, rfl⟩ := exists_packByte_eq hhigh hlow
  exact ⟨hi, lo, rfl, exec_unpack_packByte hi lo⟩

/-- Settles O11: exec_toCode and exec_pack, and the words of the two requests. -/
theorem toCodeAndPackAreTotal : Obligations.ToCodeAndPackAreTotal :=
  ⟨exec_toCode, exec_pack, fun c => decodeOfEncodeGivesInstructionBack (.toCode c) rfl,
    fun hi lo => decodeOfEncodeGivesInstructionBack (.pack hi lo) rfl⟩

/-- Settles O12: a nibble of at most 7 is a colour's code. -/
theorem fromCodeMatchesTheMaskedNibble : Obligations.FromCodeMatchesTheMaskedNibble := by
  intro a s
  refine ⟨fun hlow => ?_, fun hlow => exec_fromCode_of_outOfRange hlow s,
    decodeOfEncodeGivesInstructionBack (.fromCode a) rfl⟩
  obtain ⟨c, hc⟩ := exists_color_of_le hlow
  exact hc ▸ exec_fromCode_of_color hc s

/-- Settles O13: one lemma for each of UNPACK's three answers. -/
theorem unpackChecksTheHighNibbleFirst : Obligations.UnpackChecksTheHighNibbleFirst := by
  intro a s
  refine ⟨fun hhigh => exec_unpack_of_high_outOfRange hhigh s, fun hhigh hlow => ?_, fun hhigh hlow => ?_,
    decodeOfEncodeGivesInstructionBack (.unpack a) rfl⟩
  · obtain ⟨hi, hhi⟩ := exists_color_of_le hhigh
    exact exec_unpack_of_low_outOfRange hhi hlow s
  · obtain ⟨hi, lo, hpack⟩ := exists_packByte_eq hhigh hlow
    obtain ⟨hhi, hlo⟩ := packByte_eq_iff.1 hpack
    rw [← hhi, ← hlo, ← hpack]
    exact exec_unpack_packByte hi lo s

end Sys2Proof.Machine
end

section
/-! The framebuffer family (41_framebuffer.md): the inverse rotation as a bijection, and what FB_CLEAR, FB_SET_ROTATION
and FB_SET_PIXEL leave in each byte. -/

namespace Sys2Proof

/-! ### The inverse rotation (R169) -/

/-- The caller's coordinates that name a native pixel under a rotation. -/
def callerOf (c : Config) (r : Rotation) (nx ny : Int) : Int × Int :=
  match r with
  | .deg0 => (nx, ny)
  | .deg90 => (ny, c.width - 1 - nx)
  | .deg180 => (c.width - 1 - nx, c.height - 1 - ny)
  | .deg270 => (c.height - 1 - ny, nx)

/-- callerOf inverts native on all integers, in bounds or not. -/
theorem native_eq_iff (c : Config) (r : Rotation) (p q : Int × Int) :
    native c r p.1 p.2 = q ↔ p = callerOf c r q.1 q.2 := by
  cases r <;> simp only [native, callerOf, Prod.ext_iff] <;> omega

theorem native_callerOf (c : Config) (r : Rotation) (nx ny : Int) :
    native c r (callerOf c r nx ny).1 (callerOf c r nx ny).2 = (nx, ny) :=
  (native_eq_iff c r _ (nx, ny)).2 rfl

/-- Settles O22: callerOf names the one pair, which is in bounds because its native pixel is; at 180 degrees callerOf
and native are the same function. -/
theorem nativeIsBijection : Obligations.NativeIsBijection := by
  intro c
  refine ⟨fun r x y h => ?_, fun r nx ny hnx hny => ⟨callerOf c r nx ny, ⟨?_, native_callerOf c r nx ny⟩, ?_⟩,
    native_callerOf c .deg180, ?_, ?_⟩
  · obtain ⟨⟨hx, hw⟩, hy, hh⟩ := (inBounds_iff_native c r x y).1 h
    exact ⟨hx, hw, hy, hh⟩
  · rw [inBounds_iff_native, native_callerOf]
    omega
  · exact fun p ⟨_, hp⟩ => (native_eq_iff c r p _).1 hp
  · simp [native]
  · simp [native]

/-! ### The bounds (R163) -/

theorem inBounds_eq_false_iff (c : Config) (r : Rotation) (x y : Int) :
    inBounds c r x y = false ↔
      x < 0 ∨ y < 0 ∨
      ((r = .deg0 ∨ r = .deg180) ∧ (x ≥ c.width ∨ y ≥ c.height)) ∨
      ((r = .deg90 ∨ r = .deg270) ∧ (y ≥ c.width ∨ x ≥ c.height)) := by
  rw [← Bool.not_eq_true, inBounds_iff_native]
  cases r <;> simp [native] <;> omega

/-! ### The nibble a pixel is (R162, R165) -/

theorem hiNibble_append (a b : BitVec 4) : hiNibble (a ++ b) = a := BitVec.extractLsb'_append_eq_left

theorem loNibble_append (a b : BitVec 4) : loNibble (a ++ b) = b := BitVec.extractLsb'_append_eq_right

theorem append_nibbles (b : Byte) : hiNibble b ++ loNibble b = b :=
  (BitVec.extractLsb'_append_extractLsb'_eq_extractLsb' rfl).trans BitVec.extractLsb'_eq_self

theorem zeroExtend_code_eq_append (k : BitVec 3) : k.zeroExtend 8 = 0#4 ++ k.zeroExtend 4 := by revert k; decide

theorem shiftLeft_code_eq_append (k : BitVec 3) : k.zeroExtend 8 <<< 4 = k.zeroExtend 4 ++ 0#4 := by revert k; decide

/-- The mask is a cast, as setNibble's 0x0F elaborates to one. -/
theorem and_lowNibbleMask (b : Byte) : b &&& ((0x0F : Nat) : Byte) = 0#4 ++ loNibble b := by
  have hmask : ((0x0F : Nat) : Byte) = 0#4 ++ BitVec.allOnes 4 := by decide
  conv_lhs => rw [← append_nibbles b, hmask, BitVec.and_append, BitVec.and_zero, BitVec.and_allOnes]

theorem and_highNibbleMask (b : Byte) : b &&& 0xF0 = hiNibble b ++ 0#4 := by
  have hmask : (0xF0 : Byte) = BitVec.allOnes 4 ++ 0#4 := by decide
  conv_lhs => rw [← append_nibbles b, hmask, BitVec.and_append, BitVec.and_zero, BitVec.and_allOnes]

/-- At an even native x the byte is the colour's code over the old low nibble. -/
theorem setNibble_of_even {nx : Nat} (h : nx % 2 = 0) (c : Color) (old : Byte) :
    setNibble nx c old = c.code.zeroExtend 4 ++ loNibble old := by
  rw [setNibble, if_pos h, and_lowNibbleMask, shiftLeft_code_eq_append, BitVec.or_append, BitVec.zero_or,
    BitVec.or_zero]

/-- At an odd native x the byte is the old high nibble over the colour's code. -/
theorem setNibble_of_odd {nx : Nat} (h : nx % 2 = 1) (c : Color) (old : Byte) :
    setNibble nx c old = hiNibble old ++ c.code.zeroExtend 4 := by
  rw [setNibble, if_neg (by omega), and_highNibbleMask, zeroExtend_code_eq_append, BitVec.or_append, BitVec.or_zero,
    BitVec.zero_or]

/-- Last write wins: nothing of the first colour is left in the byte. -/
theorem setNibble_setNibble (nx : Nat) (c d : Color) (old : Byte) :
    setNibble nx d (setNibble nx c old) = setNibble nx d old := by
  rcases Nat.mod_two_eq_zero_or_one nx with h | h
  · simp only [setNibble_of_even h, loNibble_append]
  · simp only [setNibble_of_odd h, hiNibble_append]

end Sys2Proof

namespace Sys2Proof.Machine

theorem respond_ok (s : State) : respond .ok 0 s = plusResponse s 0 0 := respond_eq_plusResponse .ok 0 s

@[simp] theorem fbByte_plusResponse (s : State) (value status i : Nat) :
    (plusResponse s value status).fbByte i = s.fbByte i := rfl

/-! ### FB_CLEAR and the setters (R160, R161, R215) -/

theorem exec_fbClear (c : Color) (s : State) :
    exec (.fbClear c) s = .next (plusResponse (s.fillFb (packByte c c)) 0 0) :=
  congrArg Host.Outcome.next (respond_ok _)

theorem exec_fbSetRotation (r : Rotation) (s : State) :
    exec (.fbSetRotation r) s = .next (plusResponse { s with rot := r } 0 0) :=
  congrArg Host.Outcome.next (respond_ok _)

theorem exec_pcSetBackground (c : Color) (s : State) :
    exec (.pcSetBackground c) s = .next (plusResponse { s with bg := c } 0 0) :=
  congrArg Host.Outcome.next (respond_ok _)

/-- Settles O17: FB_CLEAR fills FB with pack(c, c), which is 16 * code + code. -/
theorem clearOverwritesEveryByte : Obligations.ClearOverwritesEveryByte := by
  intro c s
  refine ⟨decodeOfEncodeGivesInstructionBack (.fbClear c) rfl, _, exec_fbClear c s, fun i hi => ?_, rfl⟩
  rw [fbByte_plusResponse, fbByte_fillFb s _ hi, packByte_toNat]
  omega

/-- Settles O18: each setter is one field update and a response; FB's bytes depend on FB and the parameters only. -/
theorem settersWriteOneRegister : Obligations.SettersWriteOneRegister :=
  ⟨fun r s => ⟨exec_fbSetRotation r s, fbByte_congr rfl rfl⟩, exec_pcSetBackground⟩

/-! ### FB_SET_PIXEL (R162, R163, R274) -/

theorem exec_fbSetPixel_of_clipped {s : State} {x y : Int} (h : inBounds s.cfg s.rot x y = false) (c : Color) :
    exec (.fbSetPixel x y c) s = .next (plusResponse s 0 0) := by
  simp only [exec, execFbSetPixel, h, respond_ok, Bool.false_eq_true, if_false]

theorem exec_fbSetPixel_of_pastBuffer {s : State} {x y : Int} (h : s.cfg.fbLen ≤ pixelIndex s x y) (c : Color) :
    exec (.fbSetPixel x y c) s = .next (plusResponse s 0 0) := by
  simp only [exec, execFbSetPixel, State.readFb, if_neg (Nat.not_lt.2 h), respond_ok, ite_self]

theorem exec_fbSetPixel_of_stored {s : State} {x y : Int} (h : inBounds s.cfg s.rot x y = true)
    (hi : pixelIndex s x y < s.cfg.fbLen) (c : Color) :
    exec (.fbSetPixel x y c) s =
      .next (plusResponse
        (s.writeFb (pixelIndex s x y) (setNibble (pixelX s x y) c (s.fbByte (pixelIndex s x y)))) 0 0) := by
  simp only [exec, execFbSetPixel, h, State.readFb, hi, respond_ok, if_true]

/-- Settles O20: the clip is inBounds_eq_false_iff, and each drop is its own branch of the request. -/
theorem clippedPixelIsDropped : Obligations.ClippedPixelIsDropped := fun x y c s =>
  ⟨inBounds_eq_false_iff s.cfg s.rot x y, fun h => exec_fbSetPixel_of_clipped h c,
    fun h => exec_fbSetPixel_of_pastBuffer h c⟩

/-- Settles O19: under a valid configuration the pixel's byte is in the buffer, and setNibble writes the half of it that
the parity of the native x selects. -/
theorem setPixelWritesOneNibble : Obligations.SetPixelWritesOneNibble := by
  intro x y c s hwf h
  obtain ⟨hx, hy⟩ := pixel_lt_of_inBounds h
  have hi : pixelIndex s x y < s.cfg.fbLen := byteIndex_lt_fbLen (s.cfg.wf_iff.1 hwf) hx hy
  have hcode : (c.code.zeroExtend 4).toNat = c.code.toNat := toNat_zeroExtend_of_le (by decide) _
  refine ⟨_, exec_fbSetPixel_of_stored h hi c, rfl, fun j hj => fbByte_writeFb_other s _ hj, fun hpar => ?_,
    fun hpar => ?_⟩
  · rw [fbByte_plusResponse, fbByte_writeFb_same, setNibble_of_even hpar, hiNibble_append, loNibble_append]
    exact ⟨hcode, rfl⟩
  · rw [fbByte_plusResponse, fbByte_writeFb_same, setNibble_of_odd hpar, hiNibble_append, loNibble_append]
    exact ⟨hcode, rfl⟩

/-! ### The last write wins (R167) -/

/-- The bytes of the buffer f once the native pixel p has the colour: its byte's nibble set where that byte is in the
buffer, every other byte as in f. -/
def pixelSet (cfg : Config) (p : Int × Int) (c : Color) (f : Nat → Byte) (j : Nat) : Byte :=
  if j = byteIndex cfg p.1.toNat p.2.toNat ∧ j < cfg.fbLen then setNibble p.1.toNat c (f j) else f j

theorem pixelSet_pixelSet (cfg : Config) (p : Int × Int) (c d : Color) (f : Nat → Byte) :
    pixelSet cfg p d (pixelSet cfg p c f) = pixelSet cfg p d f := by
  funext j
  unfold pixelSet
  split_ifs
  · rw [setNibble_setNibble]
  · rfl

/-- FB_SET_PIXEL in bounds sets the native pixel in FB and answers; nothing else changes. -/
theorem exec_fbSetPixel_eq_pixelSet {s : State} {x y : Int} (h : inBounds s.cfg s.rot x y = true) (c : Color) :
    ∃ cells, exec (.fbSetPixel x y c) s = .next (plusResponse { s with fb := cells } 0 0) ∧
      State.fbByte { s with fb := cells } = pixelSet s.cfg (native s.cfg s.rot x y) c s.fbByte := by
  rcases Nat.lt_or_ge (pixelIndex s x y) s.cfg.fbLen with hi | hi
  · refine ⟨_, exec_fbSetPixel_of_stored h hi c, funext fun j => ?_⟩
    by_cases hj : j = pixelIndex s x y
    · subst hj
      exact (fbByte_writeFb_same ..).trans (if_pos ⟨rfl, hi⟩).symm
    · exact (fbByte_writeFb_other s _ hj).trans (if_neg fun hset => hj hset.1).symm
  · refine ⟨s.fb, exec_fbSetPixel_of_pastBuffer hi c, funext fun j => (if_neg ?_).symm⟩
    rintro ⟨rfl, hlt⟩
    exact absurd hlt (Nat.not_lt.2 hi)

/-- Settles O24: the three requests set one native pixel, and of two settings of it the first is lost. -/
theorem lastPixelWriteWins : Obligations.LastPixelWriteWins := by
  intro x y x' y' r c d s h h' hnative
  obtain ⟨cells, ht, hfirst⟩ := exec_fbSetPixel_eq_pixelSet h c
  obtain ⟨_, hu, hboth⟩ :=
    exec_fbSetPixel_eq_pixelSet (s := { plusResponse { s with fb := cells } 0 0 with rot := r }) h' d
  obtain ⟨_, hv, hsecond⟩ := exec_fbSetPixel_eq_pixelSet (s := { s with rot := r }) h' d
  refine ⟨_, _, _, ht, hu, hv, congrFun ?_⟩
  calc
    _ = pixelSet s.cfg (native s.cfg r x' y') d (pixelSet s.cfg (native s.cfg s.rot x y) c s.fbByte) :=
      hboth.trans (congrArg _ hfirst)
    _ = pixelSet s.cfg (native s.cfg r x' y') d s.fbByte := by rw [hnative, pixelSet_pixelSet]
    _ = _ := hsecond.symm

end Sys2Proof.Machine
end

section
/-! The panel controller family (42_panel_controller.md): what each sequencer request sends and leaves when nothing fails
and nothing is busy, and panel equivalence. -/

namespace Sys2Proof

/-! ### Computed payloads (R203, R204) -/

theorem vcom_toNat (c : Color) : (vcom c).toNat = 0x17 + 32 * c.code.toNat := by cases c <;> rfl

theorem resBytes_toNat {c : Config} (h : c.Ok) :
    (resBytes c).map BitVec.toNat = [c.width / 256, c.width % 256, c.height / 256, c.height % 256] := by
  obtain ⟨-, -, hwidth, -, hheight, -⟩ := h
  simp only [resBytes, List.map_cons, List.map_nil, BitVec.extractLsb'_toNat, BitVec.toNat_ofNat,
    Nat.shiftRight_eq_div_pow, List.cons.injEq, and_true]
  omega

/-- Settles O34: each payload byte as a number. -/
theorem computedPayloads : Obligations.ComputedPayloads :=
  ⟨vcom_toNat, rfl, fun c h => resBytes_toNat (c.wf_iff.1 h)⟩

end Sys2Proof

namespace Sys2Proof.Machine

/-! ### Completion (R205 to R214) -/

/-- How many polls the busy-waits of a request make when none answers busy. -/
theorem polls_opEvents (op : SeqOp) (s : State) :
    polls (opEvents op s) =
      match op with
      | .reset | .initPanel | .wakeUp | .updateFrame => 1
      | .displayFrame => 4
      | .updateAndDisplayFrame | .clearFrame => 5
      | .powerOff | .sleep => 0 := by
  have hrefresh : polls (refreshEvents s.cfg) = 4 := rfl
  cases op <;> simp only [opEvents, polls_initEvents, polls_append (updateEvents ..), polls_updateEvents, hrefresh] <;>
    rfl

/-- The events of PC_UPDATE_FRAME and then the refresh, with its six failable events. -/
theorem failables_update_refresh (c : Config) (bg : Color) (frame : List Byte) :
    failables (updateEvents c bg frame ++ refreshEvents c) = failables (updateEvents c bg frame) + 6 := by
  rw [failables_append]
  rfl

/-- A sequencer request taken from the port, when nothing fails and nothing is busy. -/
theorem exec_completes (op : SeqOp) (s : State) (ht : TransportOk s (failables (opEvents op s)))
    (hb : NotBusy s (polls (opEvents op s))) :
    exec op.instr s = .next (completed (afterFill op s) (opEvents op s) (legalFrom op s.phase) (endPhase op)) := by
  rw [exec_seq, runSeq_completes op s ht hb]

/-- The same of a request that fills nothing. -/
theorem exec_completes_of_ne_clearFrame {op : SeqOp} (hop : op ≠ .clearFrame) {s : State}
    (ht : TransportOk s (failables (opEvents op s))) (hb : NotBusy s (polls (opEvents op s))) :
    exec op.instr s = .next (completed s (opEvents op s) (legalFrom op s.phase) (endPhase op)) := by
  rw [exec_completes op s ht hb, afterFill_id s hop]

/-- Settles O26: PC_RESET sends its two RST events and one poll, and is legal from every phase. -/
theorem resetCompletes : Obligations.ResetCompletes := fun _ ht hb =>
  exec_completes_of_ne_clearFrame (op := .reset) nofun ht hb

/-- Settles O27: PC_INITIALIZE polls once and is legal from every phase. -/
theorem initializeCompletes : Obligations.InitializeCompletes := fun _ ht hb =>
  exec_completes_of_ne_clearFrame (op := .initPanel) nofun ht (by rwa [polls_opEvents])

/-- Settles O28: as PC_INITIALIZE. -/
theorem wakeUpCompletes : Obligations.WakeUpCompletes := fun _ ht hb =>
  exec_completes_of_ne_clearFrame (op := .wakeUp) nofun ht (by rwa [polls_opEvents])

/-- Settles O29: PC_UPDATE_FRAME polls once, and its frame is FB. -/
theorem updateFrameCompletes : Obligations.UpdateFrameCompletes := fun _ ht hb =>
  exec_completes_of_ne_clearFrame (op := .updateFrame) nofun ht (by rwa [polls_opEvents])

/-- Settles O30: the ten events are refreshEvents. -/
theorem displayFrameCompletes : Obligations.DisplayFrameCompletes := fun _ ht hb =>
  exec_completes_of_ne_clearFrame (op := .displayFrame) nofun ht hb

/-- Settles O31: one poll of the update and four of the refresh. -/
theorem updateAndDisplayFrameCompletes : Obligations.UpdateAndDisplayFrameCompletes := fun s ht hb =>
  exec_completes_of_ne_clearFrame (op := .updateAndDisplayFrame) nofun
    (by rwa [opEvents, failables_update_refresh]) (by rwa [polls_opEvents])

/-- Settles O32: the request completes from the state its fill leaves. -/
theorem clearFrameCompletes : Obligations.ClearFrameCompletes := by
  intro s ht hb
  have hfill : afterFill .clearFrame s =
      if s.cfg.clearFrameWritesFb = true then s.fillFb (packByte s.bg s.bg) else s := by simp [afterFill]
  rw [← hfill]
  exact exec_completes .clearFrame s (by rwa [opEvents, failables_update_refresh]) (by rwa [polls_opEvents])

/-- Settles O33: neither request polls. -/
theorem powerOffAndSleepComplete : Obligations.PowerOffAndSleepComplete := fun _ =>
  ⟨fun ht => exec_completes_of_ne_clearFrame (op := .powerOff) nofun ht nofun,
    fun ht => exec_completes_of_ne_clearFrame (op := .sleep) nofun ht nofun⟩

/-! ### The bytes a request sends (R200, R216) -/

/-- The bytes of a list of events that are sent under a given level of the command/data line, which starts at l. -/
def bytesUnder (level l : LineLevel) (evs : List Event) : List Byte :=
  ((taggedBytes l evs).filter (fun p => p.1 == level)).map Prod.snd

theorem commandBytes_eq (evs : List Event) : commandBytes evs = bytesUnder .low .undriven evs := rfl

theorem payloadBytes_eq (evs : List Event) : payloadBytes evs = bytesUnder .high .undriven evs := rfl

@[simp] theorem bytesUnder_append (level l : LineLevel) (a b : List Event) :
    bytesUnder level l (a ++ b) = bytesUnder level l a ++ bytesUnder level (lastDc l a) b := by
  simp [bytesUnder, taggedBytes_append]

@[simp] theorem bytesUnder_low_cmdEvents (l : LineLevel) (c : Config) (n : CmdName) (p : List Byte) :
    bytesUnder .low l (cmdEvents c n p) = [c.cmd.byte n] := by
  simp [bytesUnder, taggedBytes_cmdEvents, List.filter_map, Function.comp_def]

@[simp] theorem bytesUnder_high_cmdEvents (l : LineLevel) (c : Config) (n : CmdName) (p : List Byte) :
    bytesUnder .high l (cmdEvents c n p) = p := by
  simp [bytesUnder, taggedBytes_cmdEvents, List.filter_map, Function.comp_def]

@[simp] theorem bytesUnder_resetEvents (level l : LineLevel) (c : Config) :
    bytesUnder level l (resetEvents c) = [] := rfl

@[simp] theorem bytesUnder_busy (level l : LineLevel) (v : Bool) (evs : List Event) :
    bytesUnder level l (.busy v :: evs) = bytesUnder level l evs := rfl

theorem commandBytes_initEvents (c : Config) (bg : Color) :
    commandBytes (resetEvents c ++ initEvents c bg) =
      [c.cmd.psr, c.cmd.pwr, c.cmd.pfs, c.cmd.btst, c.cmd.pll, c.cmd.tse, c.cmd.cdi, c.cmd.tcon, c.cmd.tres,
        c.cmd.flash, c.cmd.cdi] := by
  simp [commandBytes_eq, initEvents, CmdBytes.byte]

theorem payloadBytes_initEvents (c : Config) (bg : Color) :
    payloadBytes (resetEvents c ++ initEvents c bg) =
      c.initPayload.psr ++ c.initPayload.pwr ++ c.initPayload.pfs ++ c.initPayload.btst ++ c.initPayload.pll ++
        c.initPayload.tse ++ [vcom bg] ++ c.initPayload.tcon ++ resBytes c ++ c.initPayload.flash ++ [vcom bg] := by
  simp [payloadBytes_eq, initEvents]

/-- Settles O35: both requests send resetEvents and then initEvents. -/
theorem initializeSendsTheCommandListInOrder : Obligations.InitializeSendsTheCommandListInOrder := by
  rintro s i (rfl | rfl) ht hb
  · exact ⟨_, _, initializeCompletes s ht hb, rfl, commandBytes_initEvents .., payloadBytes_initEvents ..⟩
  · exact ⟨_, _, wakeUpCompletes s ht hb, rfl, commandBytes_initEvents .., payloadBytes_initEvents ..⟩

theorem bytesUnder_low_updateEvents (l : LineLevel) (c : Config) (bg : Color) (frame : List Byte) :
    bytesUnder .low l (updateEvents c bg frame) = [c.cmd.cdi, c.cmd.tres, c.cmd.dtm, c.cmd.dsp] := by
  simp [updateEvents, CmdBytes.byte]

theorem bytesUnder_high_updateEvents (l : LineLevel) (c : Config) (bg : Color) (frame : List Byte) :
    bytesUnder .high l (updateEvents c bg frame) = vcom bg :: (resBytes c ++ frame) := by
  simp [updateEvents]

theorem bytesUnder_low_refreshEvents (l : LineLevel) (c : Config) :
    bytesUnder .low l (refreshEvents c) = [c.cmd.pon, c.cmd.drf, c.cmd.pof] := rfl

theorem bytesUnder_high_refreshEvents (l : LineLevel) (c : Config) : bytesUnder .high l (refreshEvents c) = [] := rfl

theorem commandBytes_opEvents_length (op : SeqOp) (s : State) :
    (commandBytes (opEvents op s)).length =
      match op with
      | .reset => 0
      | .initPanel | .wakeUp => 11
      | .updateFrame => 4
      | .displayFrame => 3
      | .updateAndDisplayFrame | .clearFrame => 7
      | .powerOff | .sleep => 1 := by
  cases op <;> simp only [opEvents, commandBytes_initEvents] <;>
    simp [commandBytes_eq, bytesUnder_low_updateEvents, bytesUnder_low_refreshEvents]

theorem payloadBytes_opEvents_length (op : SeqOp) (s : State) :
    (payloadBytes (opEvents op s)).length =
      match op with
      | .initPanel | .wakeUp =>
        s.cfg.initPayload.psr.length + s.cfg.initPayload.pwr.length + s.cfg.initPayload.pfs.length +
          s.cfg.initPayload.btst.length + s.cfg.initPayload.pll.length + s.cfg.initPayload.tse.length +
          s.cfg.initPayload.tcon.length + s.cfg.initPayload.flash.length + 6
      | .updateFrame | .updateAndDisplayFrame | .clearFrame => 5 + s.cfg.fbLen
      | .sleep => 1
      | .reset | .displayFrame | .powerOff => 0 := by
  have hres : (resBytes s.cfg).length = 4 := rfl
  cases op <;> simp only [opEvents, payloadBytes_initEvents] <;>
    simp [payloadBytes_eq, bytesUnder_high_updateEvents, bytesUnder_high_refreshEvents, fbBytes_length, hres] <;>
    omega

theorem delays_opEvents (op : SeqOp) (s : State) :
    delays (opEvents op s) =
      match op with
      | .reset | .initPanel | .wakeUp => 2
      | _ => 0 := by
  have hreset : delays (resetEvents s.cfg) = 2 := rfl
  have hrefresh : delays (refreshEvents s.cfg) = 0 := rfl
  have hinit : delays (initEvents s.cfg s.bg) = 0 := by simp [initEvents, delays_append, delays_cmdEvents]
  have hupdate (frame : List Byte) : delays (updateEvents s.cfg s.bg frame) = 0 := by
    have hbusy (evs : List Event) : delays (.busy false :: evs) = delays evs := by simp [delays]
    simp [updateEvents, hbusy, delays_append, delays_cmdEvents]
  cases op <;> simp [opEvents, delays_append, hreset, hrefresh, hinit, hupdate, delays_cmdEvents]

theorem afterFill_trace (op : SeqOp) (s : State) : (afterFill op s).trace = s.trace := by
  unfold afterFill; split_ifs <;> rfl

/-- Settles O36: the four counts of the events a completed request sends. -/
theorem eventCountsPerRequest : Obligations.EventCountsPerRequest := by
  intro op s ht hb
  refine ⟨_, opEvents op s, exec_completes op s ht hb, congrArg (· ++ _) (afterFill_trace op s), ?_⟩
  rw [commandBytes_opEvents_length, payloadBytes_opEvents_length, polls_opEvents, delays_opEvents]
  cases op <;> rfl

/-! ### Panel equivalence (R198) -/

/-- A payload with the line asserted before each byte, from a line that is high: the panel sees the bytes alone. -/
theorem panelView_perBytePayload (p : List Byte) :
    panelView .high (p.flatMap fun b => [.dc true, .tx b]) = p.map .tx := by
  induction p with
  | nil => rfl
  | cons b p ih => simp [panelView, LineLevel.ofBool, ih]

theorem panelView_payload (l : LineLevel) (p : List Byte) : panelView l (p.map .tx) = p.map .tx := by
  induction p with
  | nil => rfl
  | cons b p ih => simp [panelView, ih]

theorem lastDc_payload (l : LineLevel) (p : List Byte) : lastDc l (p.map .tx) = l := by
  induction p with
  | nil => rfl
  | cons b p ih => exact ih

theorem lastDc_perBytePayload (p : List Byte) : lastDc .high (p.flatMap fun b => [.dc true, .tx b]) = .high := by
  induction p with
  | nil => rfl
  | cons b p ih => exact ih

/-- From every level of the line the panel sees the same command, and the line is left at the same level. -/
theorem perByteCmdEvents_panel (l : LineLevel) (c : Config) (n : CmdName) (p : List Byte) :
    panelView l (perByteCmdEvents c n p) = panelView l (cmdEvents c n p) ∧
      lastDc l (perByteCmdEvents c n p) = lastDc l (cmdEvents c n p) := by
  cases p with
  | nil => exact ⟨rfl, rfl⟩
  | cons b p =>
    have hperByte : perByteCmdEvents c n (b :: p) =
        [.dc false, .tx (c.cmd.byte n), .dc true] ++ .tx b :: p.flatMap (fun b => [.dc true, .tx b]) := rfl
    have honce : cmdEvents c n (b :: p) = [.dc false, .tx (c.cmd.byte n), .dc true] ++ (b :: p).map .tx := rfl
    rw [hperByte, honce, panelView_append, panelView_append, lastDc_append, lastDc_append, panelView_payload,
      lastDc_payload]
    exact ⟨congrArg (_ ++ .tx b :: ·) (panelView_perBytePayload p), lastDc_perBytePayload p⟩

/-- Settles O46: what stands before the command fixes the level it starts at, and what stands after it starts at the
level it leaves. -/
theorem perByteAssertionIsPanelEquivalent : Obligations.PerByteAssertionIsPanelEquivalent := by
  intro c n p before after
  obtain ⟨hview, hdc⟩ := perByteCmdEvents_panel (lastDc .undriven before) c n p
  simp only [PanelEquivalent, panelView_append, lastDc_append, hview, hdc]

end Sys2Proof.Machine
end

section
/-! The busy-waits of the panel controller family (42_panel_controller.md R194, R196): a request that stands at one, how
it comes to stand there, and how it goes on to its end. -/

namespace Sys2Proof.Machine

/-! ### While the polls answer busy -/

/-- Rounds that polled busy send no failable event, so the transport's answers stay where they were. -/
theorem afterEvents_busyRounds_xportAnswer (s : State) (n k : Nat) :
    (afterEvents s (busyRounds s.cfg n)).xportAnswer k = s.xportAnswer k := by
  rw [afterEvents_xportAnswer, failables_busyRounds, Nat.zero_add]

theorem afterEvents_busyRounds_pollAnswer (s : State) (n k : Nat) :
    (afterEvents s (busyRounds s.cfg n)).pollAnswer k = s.pollAnswer (n + k) := by
  rw [afterEvents_pollAnswer, polls_busyRounds]

/-- The first round, and then the others. -/
theorem afterEvents_busyRounds_succ (s : State) (n : Nat) :
    afterEvents (afterEvents s (.busy true :: pollDelayEvents s.cfg)) (busyRounds s.cfg n) =
      afterEvents s (busyRounds s.cfg (n + 1)) := by
  rw [afterEvents_append]
  rfl

/-- A held request whose polls answer busy n times spends n steps on them, and whatever it does next it does from the
state with the n rounds sent. -/
theorem run_busyRounds {op : SeqOp} {s : State} (h : HeldAt op s) (n k : Nat) (hb : StaysBusy s n) :
    Sys2Proof.core.run (n + k) s = Sys2Proof.core.run k (afterEvents s (busyRounds s.cfg n)) := by
  induction n generalizing s with
  | zero => rw [Nat.zero_add]; exact congrArg _ (afterEvents_nil s).symm
  | succ n ih =>
    obtain ⟨hstep, hheld⟩ := heldAt_busy h (hb 0 n.succ_pos)
    rw [Nat.add_right_comm, run_next _ hstep, ih hheld, ← afterEvents_busyRounds_succ]
    · rfl
    · intro j hj
      rw [afterEvents_pollAnswer, (busyRound_counts s.cfg).1, Nat.add_comm]
      exact hb (j + 1) (by omega)

/-- Settles O38: the n rounds and no step more. -/
theorem busyForeverHangs : Obligations.BusyForeverHangs := fun n _ _ h hb => run_busyRounds h n 0 hb

theorem finishSeq_eq_answered (op : SeqOp) (s : State) :
    finishSeq op s = answered 0 { s with phase := finalPhase op s.curLegal } := rfl

/-- A request in progress is held after its busy rounds as it was before them. -/
theorem HeldAt.afterEvents {op : SeqOp} {s : State} (h : HeldAt op s) (evs : List Event) :
    HeldAt op (afterEvents s evs) := h

theorem run_one {s t : State} (h : step s = .next t) : Sys2Proof.core.run 1 s = .next t := run_next 0 h

/-- A held request completes, in the step after the last busy answer. -/
theorem run_heldAt_completes {op : SeqOp} {s : State} {n : Nat} (h : HeldAt op s)
    (ht : TransportOk s (failables (remainingEvents op s))) (hbusy : StaysBusy s n)
    (hfree : ∀ j < polls (remainingEvents op s), s.pollAnswer (n + j) = false) :
    Sys2Proof.core.run (n + 1) s =
      .next (answered 0
        { afterEvents s (busyRounds s.cfg n ++ remainingEvents op s) with phase := finalPhase op s.curLegal }) := by
  have hheld := h.afterEvents (busyRounds s.cfg n)
  obtain ⟨hwf, hcur, hwait⟩ := hheld
  rw [run_busyRounds h n 1 hbusy, run_one (step_inProgress hwf hcur), resumeSeq_completes hwait, finishSeq_eq_answered,
    ← afterEvents_append]
  · rfl
  · exact fun k hk => (afterEvents_busyRounds_xportAnswer s n k).trans (ht k hk)
  · exact fun k hk => (afterEvents_busyRounds_pollAnswer s n k).trans (hfree k hk)

/-- The script of PC_CLEAR_FRAME begins with the fill where CLEAR_FRAME_WRITES_FB says so. -/
theorem script_clearFrame_of_writes {s : State} (h : s.cfg.clearFrameWritesFb = true) :
    script .clearFrame s = .fillFb (packByte s.bg s.bg) ::
      (updateScript s.cfg s.bg (List.replicate s.cfg.fbLen (packByte s.bg s.bg)) ++ displayScript s.cfg) := by
  simp [script, h]

/-- Otherwise it is that of PC_UPDATE_AND_DISPLAY_FRAME with another frame. -/
theorem script_clearFrame_of_not_writes {s : State} (h : s.cfg.clearFrameWritesFb = false) :
    script .clearFrame s =
      updateScript s.cfg s.bg (List.replicate s.cfg.fbLen (packByte s.bg s.bg)) ++ displayScript s.cfg := by
  simp [script, h]

/-- A script that does not begin with the fill of PC_CLEAR_FRAME writes no framebuffer at all. -/
theorem script_keepsFb_of_no_fill {op : SeqOp} {s : State}
    (h : ¬(op = .clearFrame ∧ s.cfg.clearFrameWritesFb = true)) :
    ∀ e ∈ script op s, e.keepsFb = true := by
  by_cases hop : op = .clearFrame
  · subst hop
    rw [script_clearFrame_of_not_writes (by simpa using h)]
    exact updateDisplay_keepsFb _ _ _
  · exact script_keepsFb op s hop

/-- A request from the port whose script reaches a busy-wait that polls busy: it stands there. -/
theorem runSeq_waits {op : SeqOp} {s : State} {es rest : List Elem} (hscript : script op s = es ++ .waitBusy :: rest)
    (ht : TransportOk s (failables (elemEvents es))) (hb : NotBusy s (polls (elemEvents es)))
    (hw : s.pollAnswer (polls (elemEvents es)) = true) :
    runSeq op s =
      { afterEvents (afterFill op s) (elemEvents es ++ .busy true :: pollDelayEvents s.cfg) with
        phase := phaseAfter s.phase es
        cur := some op
        stepIx := es.length
        curLegal := legalFrom op s.phase
        protoErr := s.protoErr || !legalFrom op s.phase } := by
  have hplain : ∀ e ∈ es, e.plain = true := fun e he => script_plain op s e (hscript ▸ List.mem_append_left _ he)
  by_cases hfill : op = .clearFrame ∧ s.cfg.clearFrameWritesFb = true
  · obtain ⟨rfl, hwrites⟩ := hfill
    have hbody := script_clearFrame_of_writes hwrites
    rw [hscript] at hbody
    cases es with
    | nil => cases hbody
    | cons e es =>
      rw [List.cons_append] at hbody
      obtain ⟨rfl, hes⟩ := List.cons.inj hbody
      have hkeeps : ∀ e ∈ es, e.keepsFb = true := fun e he =>
        updateDisplay_keepsFb _ _ _ e (hes ▸ List.mem_append_left _ he)
      have hwaits := runElems_waits .clearFrame rest es
        { acceptSeq .clearFrame (s.fillFb (packByte s.bg s.bg)) with stepIx := 1 }
        (fun e he => hplain e (List.mem_cons_of_mem _ he)) hkeeps ht hb hw
      rw [runSeq, hscript, afterFill, if_pos ⟨rfl, hwrites⟩, List.length_cons, Nat.add_comm es.length 1]
      exact hwaits
  · have hkeeps : ∀ e ∈ es, e.keepsFb = true := fun e he =>
      script_keepsFb_of_no_fill hfill e (hscript ▸ List.mem_append_left _ he)
    rw [runSeq, hscript, runElems_waits op rest es (acceptSeq op s) hplain hkeeps ht hb hw, afterFill, if_neg hfill,
      acceptSeq_stepIx, Nat.zero_add]
    rfl

/-- A request in progress that reaches a busy-wait that polls busy: it stands there. -/
theorem resumeSeq_waits {op : SeqOp} {s : State} {es rest : List Elem}
    (hwait : (script op s)[s.stepIx]? = some .waitBusy)
    (hscript : (script op s).drop s.stepIx = es ++ .waitBusy :: rest)
    (ht : TransportOk s (failables (elemEvents es))) (hb : NotBusy s (polls (elemEvents es)))
    (hw : s.pollAnswer (polls (elemEvents es)) = true) :
    resumeSeq op s =
      { afterEvents s (elemEvents es ++ .busy true :: pollDelayEvents s.cfg) with
        phase := phaseAfter s.phase es
        stepIx := s.stepIx + es.length } := by
  have hmem : ∀ e ∈ es, e ∈ (script op s).drop s.stepIx := fun e he => hscript ▸ List.mem_append_left _ he
  rw [resumeSeq, hscript]
  exact runElems_waits op rest es s (fun e he => resume_plain op s e (hmem e he))
    (fun e he => heldAt_keepsFb hwait e (hmem e he)) ht hb hw

theorem legalFrom_displayFrame (p : Phase) : legalFrom .displayFrame p = decide (p = .idle) := rfl

/-- Settles O39: the first clause is the second at PC_DISPLAY_FRAME's first busy-wait, before which only the phase is
set. -/
theorem requestWaitsAtABusyPoll : Obligations.RequestWaitsAtABusyPoll := by
  refine ⟨fun s hw => ?_, fun op s es rest hscript ht hb hw => ?_, fun op s es rest h hscript ht hb hw => ?_⟩
  · have hwaits := runSeq_waits (op := .displayFrame) (es := [.setPhase .displaying]) (s := s) rfl nofun nofun hw
    rw [decide_not, ← legalFrom_displayFrame]
    exact (exec_seq .displayFrame s).trans (congrArg _ hwaits)
  · rw [exec_seq, runSeq_waits hscript ht hb hw]
  · obtain ⟨hwf, hcur, hwait⟩ := h
    rw [step_inProgress hwf hcur, resumeSeq_waits hwait hscript ht hb hw]

/-! ### Completion after busy answers (R205, R320) -/

/-- The elements of PC_RESET before its busy-wait, and their events. -/
def pulseElems (c : Config) : List Elem :=
  [.setPhase .reset, .emit (.rst false), .emit (.dly c.tRstLowMs), .emit (.rst true), .emit (.dly c.tRstHighMs)]

def pulseEvents (c : Config) : List Event := [.rst false, .dly c.tRstLowMs, .rst true, .dly c.tRstHighMs]

theorem elemEvents_pulseElems (c : Config) : elemEvents (pulseElems c) = pulseEvents c := rfl

theorem script_reset (s : State) : script .reset s = pulseElems s.cfg ++ .waitBusy :: [] := rfl

/-- What PC_RESET leaves where its first poll answers busy. -/
def resetHeld (s : State) : State :=
  { afterEvents s (pulseEvents s.cfg ++ .busy true :: pollDelayEvents s.cfg) with
    phase := .reset
    cur := some .reset
    stepIx := 5
    curLegal := true
    protoErr := s.protoErr || false }

theorem exec_pcReset_waits {s : State} (ht : TransportOk s 2) (hw : s.pollAnswer 0 = true) :
    exec .pcReset s = .next (resetHeld s) :=
  (exec_seq .reset s).trans (congrArg _ (runSeq_waits (script_reset s) ht nofun hw))

theorem heldAt_resetHeld {s : State} (hwf : s.cfg.wf = true) : HeldAt .reset (resetHeld s) := ⟨hwf, rfl, rfl⟩

theorem remainingEvents_resetHeld (s : State) : remainingEvents .reset (resetHeld s) = [.busy false] := rfl

theorem resetHeld_pollAnswer (s : State) (k : Nat) : (resetHeld s).pollAnswer k = s.pollAnswer (k + 1) := by
  refine (afterEvents_pollAnswer s (pulseEvents s.cfg ++ .busy true :: pollDelayEvents s.cfg) k).trans ?_
  rw [polls_append, (busyRound_counts s.cfg).1, Nat.add_comm]
  rfl

/-- PC_RESET that waited completes as one that did not, with the rounds of its wait in the trace. -/
theorem answered_resetHeld (s : State) (n : Nat) :
    answered 0 { afterEvents (resetHeld s) (busyRounds s.cfg n ++ [.busy false]) with phase := .reset } =
      completed s (pulseEvents s.cfg ++ busyRounds s.cfg (n + 1) ++ [.busy false]) true .reset := by
  have hevents : pulseEvents s.cfg ++ busyRounds s.cfg (n + 1) ++ [.busy false] =
      (pulseEvents s.cfg ++ .busy true :: pollDelayEvents s.cfg) ++ (busyRounds s.cfg n ++ [.busy false]) := by
    simp [busyRounds, List.replicate_succ]
  rw [hevents, ← completed_afterEvents]
  rfl

/-- PC_RESET from the port, when its polls answer busy n times and then not-busy. -/
theorem run_reset_completes {s : State} {rest : List Req} {n : Nat} (hwf : s.cfg.wf = true) (hcur : s.cur = none)
    (hport : s.reqPort = encode .pcReset :: rest) (ht : TransportOk s 2) (hbusy : StaysBusy s n)
    (hfree : s.pollAnswer n = false) :
    Sys2Proof.core.run (n + 1) s =
      .next (completed { s with reqPort := rest } (pulseEvents s.cfg ++ busyRounds s.cfg n ++ [.busy false]) true
        .reset) := by
  have hstep := step_request hwf hcur hport (decodeOfEncodeGivesInstructionBack .pcReset rfl)
  cases n with
  | zero => exact run_one (hstep.trans (resetCompletes _ ht fun k hk => by rwa [Nat.lt_one_iff.1 hk]))
  | succ n =>
    have hwaits := hstep.trans (exec_pcReset_waits (s := { s with reqPort := rest }) ht (hbusy 0 n.succ_pos))
    have hheld := heldAt_resetHeld (s := { s with reqPort := rest }) hwf
    rw [run_next _ hwaits, run_heldAt_completes hheld nofun]
    · exact congrArg _ (answered_resetHeld { s with reqPort := rest } n)
    · exact fun k hk => (resetHeld_pollAnswer _ k).trans (hbusy (k + 1) (by omega))
    · intro j hj
      obtain rfl : j = 0 := Nat.lt_one_iff.1 hj
      exact (resetHeld_pollAnswer _ n).trans hfree

/-- Settles O40: the rounds and then the events that remain; PC_RESET from the port comes to its busy-wait first. -/
theorem requestCompletesAfterBusyAnswers : Obligations.RequestCompletesAfterBusyAnswers :=
  ⟨fun _ _ _ h ht hbusy hfree => run_heldAt_completes h ht hbusy hfree,
    fun _ _ _ hwf hcur hport ht hbusy hfree => run_reset_completes hwf hcur hport ht hbusy hfree⟩

end Sys2Proof.Machine
end

section
/-! The legality check of the panel controller family (42_panel_controller.md R197, R220 to R222), and the sequencer
requests that do the same as others (R207, R211, R275). -/

namespace Sys2Proof.Machine

/-! ### The legality check -/

theorem legalFrom_eq_false_iff {op : SeqOp} {p : Phase} :
    legalFrom op p = false ↔ op ≠ .reset ∧ op ≠ .initPanel ∧ op ≠ .wakeUp ∧ p ≠ .idle := by
  cases op <;> simp [legalFrom]

/-- A request in progress that ends leaves UNKNOWN or its final phase. -/
theorem resumeSeq_endPhase {op : SeqOp} {s : State} (hcur : s.cur = some op) (hend : (resumeSeq op s).cur = none) :
    (resumeSeq op s).phase = .unknown ∨ (resumeSeq op s).phase = finalPhase op s.curLegal :=
  runElems_endPhase op _ s (resume_plain op s) hend (by simp [hcur])

/-- One that was not legal leaves UNKNOWN. -/
theorem resumeSeq_unknown_of_illegal {op : SeqOp} {s : State} (hcur : s.cur = some op) (hlegal : s.curLegal = false)
    (hend : (resumeSeq op s).cur = none) : (resumeSeq op s).phase = .unknown := by
  have hphase := resumeSeq_endPhase hcur hend
  rw [hlegal] at hphase
  exact hphase.elim id id

/-- A request that goes on is over, or still in progress with its legality as it was. -/
theorem resumeSeq_ends_or_keeps (op : SeqOp) (s : State) :
    (resumeSeq op s).cur = none ∨ ((resumeSeq op s).cur = s.cur ∧ (resumeSeq op s).curLegal = s.curLegal) := by
  rcases runElems_responds op _ s (resume_plain op s) with ⟨hcur, -⟩ | ⟨hcur, hlegal, -⟩
  · exact .inl hcur
  · exact .inr ⟨hcur, hlegal⟩

/-- Settles O41: PROTO_ERR and the legality are set as the request is accepted, and the legality decides the phase it
ends in. -/
theorem protocolViolationIsRecorded : Obligations.ProtocolViolationIsRecorded := by
  constructor
  · intro op s t h
    rw [exec_seq] at h
    obtain rfl := next_inj h
    simp only [← legalFrom_eq_false_iff]
    refine ⟨by simp [runSeq_protoErr], fun hillegal hend => ?_, fun hwaits => ?_⟩
    · rw [runSeq_eq_resumeSeq] at hend ⊢
      exact resumeSeq_unknown_of_illegal rfl hillegal hend
    · rcases runSeq_responds op s with ⟨hcur, -⟩ | ⟨-, hlegal, -⟩
      · simp [hcur] at hwaits
      · rw [hlegal]
  · intro op s t hcur hillegal h
    obtain rfl := eq_resumeSeq_of_step hcur h
    refine ⟨resumeSeq_protoErr op s, ?_⟩
    rcases resumeSeq_ends_or_keeps op s with hend | ⟨hcur', hlegal'⟩
    · exact .inl ⟨hend, resumeSeq_unknown_of_illegal hcur hillegal hend⟩
    · exact .inr ⟨hcur'.trans hcur, hlegal'.trans hillegal⟩

/-! ### Reaching IDLE -/

theorem idle_not_mem_heldPhases (op : SeqOp) : .idle ∉ heldPhases op := by cases op <;> decide

theorem finalPhase_eq_idle_iff {op : SeqOp} {legal : Bool} :
    finalPhase op legal = .idle ↔ legal = true ∧ endPhase op = .idle := by
  cases legal <;> simp [finalPhase]

/-- A request that goes on and comes to IDLE ended there: it does not wait in IDLE. -/
theorem Running.ends_of_idle {op : SeqOp} {s : State} (h : Running op s) (hidle : (resumeSeq op s).phase = .idle) :
    s.curLegal = true ∧ endPhase op = .idle := by
  have hcontrol := h.controlOk_resumeSeq
  have hend : (resumeSeq op s).cur = none := by
    rcases resumeSeq_ends_or_keeps op s with hend | ⟨hcur, -⟩
    · exact hend
    · obtain ⟨-, hphase, -⟩ := (controlOk_iff_of_cur_some (hcur.trans h.cur)).1 hcontrol
      exact absurd (hidle ▸ hphase) (idle_not_mem_heldPhases op)
  rcases resumeSeq_endPhase h.cur hend with hphase | hphase
  · simp [hphase] at hidle
  · exact finalPhase_eq_idle_iff.1 (hphase.symm.trans hidle)

/-- The requests that are legal outside IDLE and end in IDLE. -/
theorem eq_initPanel_or_wakeUp {op : SeqOp} {p : Phase} (hp : p ≠ .idle) (hlegal : legalFrom op p = true)
    (hend : endPhase op = .idle) : op = .initPanel ∨ op = .wakeUp := by
  cases op <;> simp_all [legalFrom, endPhase]

/-- Settles O60: only a sequencer request changes PHASE, and one that leaves IDLE has ended there, legally. -/
theorem idleIsReachedOnlyByALegalRequest : Obligations.IdleIsReachedOnlyByALegalRequest := by
  intro s t hs h hne hidle
  rcases step_effect h with ⟨op, hcur, rfl⟩ | rfl | ⟨w, rest, op, hcur, hport, hdecode, rfl⟩ |
    ⟨rest, i, -, heffect⟩ | ⟨rest, -, rfl⟩
  · obtain ⟨hlegal, hend⟩ := (hs.running hcur).ends_of_idle hidle
    exact .inl ⟨op, hcur, hlegal, hend⟩
  · exact absurd hidle hne
  · rw [runSeq_eq_resumeSeq] at hidle
    obtain ⟨hlegal, hend⟩ := ((hs.withReqPort rest).running_acceptSeq op).ends_of_idle hidle
    refine .inr ⟨hcur, w, rest, hport, ?_⟩
    rcases eq_initPanel_or_wakeUp hne hlegal hend with rfl | rfl
    · exact .inl hdecode
    · exact .inr hdecode
  · exact absurd (heffect.phase.symm.trans hidle) hne
  · exact absurd hidle hne

/-! ### Two runs of the same elements -/

/-- A relation between states that the elements of a script keep: related states have the same parameters and the same
answers to come, and what an element or an error does to both leaves them related. -/
structure KeptByElements (R : State → State → Prop) : Prop where
  reads : ∀ {s t}, R s t →
    t.cfg = s.cfg ∧ t.xportAnswer 0 = s.xportAnswer 0 ∧ t.pollAnswer 0 = s.pollAnswer 0
  afterEvents : ∀ {s t} evs, R s t → R (afterEvents s evs) (afterEvents t evs)
  setPhase : ∀ {s t} p, R s t → R { s with phase := p } { t with phase := p }
  fillFb : ∀ {s t} v, R s t → R (s.fillFb v) (t.fillFb v)
  advance : ∀ {s t}, R s t → R { s with stepIx := s.stepIx + 1 } { t with stepIx := t.stepIx + 1 }
  transportError : ∀ {s t}, R s t → R (raiseTransportError s) (raiseTransportError t)

/-- Two requests that perform the same elements from related states, and end alike, leave related states. -/
theorem KeptByElements.runElems {R : State → State → Prop} (hR : KeptByElements R) {op op' : SeqOp}
    (hfinish : ∀ {s t}, R s t → R (finishSeq op s) (finishSeq op' t)) {es : List Elem}
    (hes : ∀ e ∈ es, e.plain = true) {s t : State} (h : R s t) : R (runElems op es s) (runElems op' es t) := by
  induction es generalizing s t with
  | nil => exact hfinish h
  | cons e es ih =>
    have hgo {s t : State} (h : R s t) := ih (fun e he => hes e (List.mem_cons_of_mem _ he)) (hR.advance h)
    obtain ⟨hcfg, hxport, hpoll⟩ := hR.reads h
    unfold Machine.runElems
    cases e with
    | setPhase p => exact hgo (hR.setPhase p h)
    | fillFb v => exact hgo (hR.fillFb v h)
    | emit ev =>
      have hplain := hes _ List.mem_cons_self
      have hnotBusy : ∀ v, ev ≠ .busy v := by rintro v rfl; simp [Elem.plain] at hplain
      rw [perform_emit ev s hnotBusy, perform_emit ev t hnotBusy, hxport]
      cases !ev.failable || s.xportAnswer 0
      · exact hR.transportError (hR.afterEvents [ev] h)
      · exact hgo (hR.afterEvents [ev] h)
    | waitBusy =>
      rw [perform_waitBusy, perform_waitBusy, hpoll, hcfg]
      cases s.pollAnswer 0
      · exact hgo (hR.afterEvents [.busy false] h)
      · exact hR.afterEvents _ h

/-- States that differ in nothing but PHASE, PROTO_ERR and the legality of the request in progress. -/
def SameButRecord (s t : State) : Prop := ∃ p e l, t = { s with phase := p, protoErr := e, curLegal := l }

theorem keptByElements_sameButRecord : KeptByElements SameButRecord where
  reads := by rintro s _ ⟨p, e, l, rfl⟩; exact ⟨rfl, rfl, rfl⟩
  afterEvents := by rintro s _ evs ⟨p, e, l, rfl⟩; exact ⟨p, e, l, rfl⟩
  setPhase := by rintro s _ q ⟨p, e, l, rfl⟩; exact ⟨q, e, l, rfl⟩
  fillFb := by rintro s _ v ⟨p, e, l, rfl⟩; exact ⟨p, e, l, rfl⟩
  advance := by rintro s _ ⟨p, e, l, rfl⟩; exact ⟨p, e, l, rfl⟩
  transportError := by rintro s _ ⟨p, e, l, rfl⟩; exact ⟨_, e, _, rfl⟩

theorem SameButRecord.finishSeq {s t : State} (op : SeqOp) (h : SameButRecord s t) :
    SameButRecord (finishSeq op s) (finishSeq op t) := by
  obtain ⟨p, e, l, rfl⟩ := h
  exact ⟨_, e, _, rfl⟩

/-- Settles O42: the phase is read by the legality check alone, and the script is the same. -/
theorem phaseChangesOnlyTheRecord : Obligations.PhaseChangesOnlyTheRecord := by
  intro op s p
  have haccept : SameButRecord (acceptSeq op s) (acceptSeq op { s with phase := p }) := ⟨p, _, _, rfl⟩
  refine ⟨_, _, exec_seq op s, exec_seq op { s with phase := p }, ?_⟩
  have hrun : SameButRecord (runSeq op s) (runSeq op { s with phase := p }) :=
    keptByElements_sameButRecord.runElems (.finishSeq op) (script_plain op s) haccept
  obtain ⟨q, e, l, hrun⟩ := hrun
  rw [hrun]

/-- States that differ in nothing but the name in CUR, which the second state has as PC_WAKE_UP. -/
def SameAsWakeUp (s t : State) : Prop := t = { s with cur := s.cur.map fun _ => .wakeUp }

theorem keptByElements_sameAsWakeUp : KeptByElements SameAsWakeUp where
  reads := by rintro s _ rfl; exact ⟨rfl, rfl, rfl⟩
  afterEvents := by rintro s _ evs rfl; rfl
  setPhase := by rintro s _ q rfl; rfl
  fillFb := by rintro s _ v rfl; rfl
  advance := by rintro s _ rfl; rfl
  transportError := by rintro s _ rfl; rfl

theorem SameAsWakeUp.finishSeq {s t : State} (h : SameAsWakeUp s t) :
    SameAsWakeUp (finishSeq .initPanel s) (finishSeq .wakeUp t) := by
  obtain rfl := h
  rfl

/-- Settles O43: the two requests have one script, one end phase and one legality. -/
theorem wakeUpIsInitialize : Obligations.WakeUpIsInitialize := fun s =>
  ⟨runSeq .initPanel s, exec_seq .initPanel s, (exec_seq .wakeUp s).trans (congrArg _
    (keptByElements_sameAsWakeUp.runElems .finishSeq (script_plain .initPanel s)
      (show SameAsWakeUp (acceptSeq .initPanel s) (acceptSeq .wakeUp s) from rfl)))⟩

/-- States that differ in nothing but FB, CUR and STEP. -/
def SameButFrame (s t : State) : Prop := ∃ cells c n, t = { s with fb := cells, cur := c, stepIx := n }

theorem keptByElements_sameButFrame : KeptByElements SameButFrame where
  reads := by rintro s _ ⟨cells, c, n, rfl⟩; exact ⟨rfl, rfl, rfl⟩
  afterEvents := by rintro s _ evs ⟨cells, c, n, rfl⟩; exact ⟨cells, c, n, rfl⟩
  setPhase := by rintro s _ q ⟨cells, c, n, rfl⟩; exact ⟨cells, c, n, rfl⟩
  fillFb := by rintro s _ v ⟨cells, c, n, rfl⟩; exact ⟨_, c, n, rfl⟩
  advance := by rintro s _ ⟨cells, c, n, rfl⟩; exact ⟨cells, c, n + 1, rfl⟩
  transportError := by rintro s _ ⟨cells, c, n, rfl⟩; exact ⟨cells, _, _, rfl⟩

theorem SameButFrame.finishSeq {s t : State} (h : SameButFrame s t) :
    SameButFrame (finishSeq .clearFrame s) (finishSeq .updateAndDisplayFrame t) := by
  obtain ⟨cells, c, n, rfl⟩ := h
  exact ⟨cells, _, _, rfl⟩

/-- PC_CLEAR_FRAME performs, after the fill it may make, the script of PC_UPDATE_AND_DISPLAY_FRAME from a framebuffer
that is filled. -/
theorem runSeq_clearFrame (s : State) :
    ∃ u, SameButFrame (acceptSeq .clearFrame s) u ∧
      runSeq .clearFrame s =
        runElems .clearFrame (script .updateAndDisplayFrame (s.fillFb (packByte s.bg s.bg))) u := by
  have hscript : script .updateAndDisplayFrame (s.fillFb (packByte s.bg s.bg)) =
      updateScript s.cfg s.bg (List.replicate s.cfg.fbLen (packByte s.bg s.bg)) ++ displayScript s.cfg := by
    rw [script, fbBytes_fillFb]
    rfl
  rw [runSeq, hscript]
  cases hwrites : s.cfg.clearFrameWritesFb with
  | true =>
    rw [script_clearFrame_of_writes hwrites]
    exact ⟨_, ⟨_, _, 1, rfl⟩, rfl⟩
  | false =>
    rw [script_clearFrame_of_not_writes hwrites]
    exact ⟨_, ⟨_, _, _, rfl⟩, rfl⟩

/-- Settles O44: the two requests perform the same elements from states that differ in FB, CUR and STEP alone. -/
theorem clearFrameIsUpdateAndDisplayOfFilled : Obligations.ClearFrameIsUpdateAndDisplayOfFilled := by
  intro s
  obtain ⟨u, ⟨cells, c, n, rfl⟩, hclear⟩ := runSeq_clearFrame s
  have haccept : SameButFrame { acceptSeq .clearFrame s with fb := cells, cur := c, stepIx := n }
      (acceptSeq .updateAndDisplayFrame (s.fillFb (packByte s.bg s.bg))) := ⟨_, _, _, rfl⟩
  have hrun : SameButFrame (runSeq .clearFrame s)
      (runSeq .updateAndDisplayFrame (s.fillFb (packByte s.bg s.bg))) :=
    hclear ▸ keptByElements_sameButFrame.runElems .finishSeq (script_plain .updateAndDisplayFrame _) haccept
  obtain ⟨cells', c', n', hrun⟩ := hrun
  refine ⟨_, _, exec_seq .clearFrame s, exec_seq .updateAndDisplayFrame _, ?_⟩
  rw [hrun]
  exact ⟨rfl, rfl, rfl, rfl, rfl⟩

end Sys2Proof.Machine
end

section
/-! The busy status family (43_busy_status.md): what IS_BUSY reads from either adapter, that the refined trace stays the
wire trace with every poll replaced, and that nothing but the draws and the refined trace tells which adapter answers. -/

namespace Sys2Proof.Machine

/-! ### IS_BUSY (R250 to R252, R254) -/

/-- IS_BUSY is one poll and a response with its answer, whichever adapter is fitted. -/
theorem exec_isBusy (s : State) :
    exec .isBusy s =
      .next (plusResponse (afterEvents s [.busy (s.pollAnswer 0)]) (s.pollAnswer 0).toNat 0) := by
  have hvalue (v : Bool) : (if v then 1 else 0 : BitVec 24).toNat = v.toNat := by cases v <;> rfl
  simp only [exec, execIsBusy, poll_eq, respond_eq_plusResponse, hvalue]
  rfl

/-- One poll sends a BUSY event, puts its pin events in the refined trace, and takes the samples of one poll. -/
theorem afterEvents_busy (s : State) (v : Bool) :
    afterEvents s [.busy v] =
      { s with
        trace := s.trace ++ [.busy v]
        refined := s.refined ++ (s.pollPins 0).map .pin
        lineIn := s.lineIn.drop (samplesPerPoll s.cfg)
        lineDraws := s.lineDraws + samplesPerPoll s.cfg } := by
  have hpolls : polls [.busy v] * samplesPerPoll s.cfg = samplesPerPoll s.cfg := Nat.one_mul _
  simp only [afterEvents, hpolls, refineEvents, List.append_nil]
  rfl

/-- Settles O47: of the PIN adapter a poll is one sample and no pin event. -/
theorem isBusyReadsThePin : Obligations.IsBusyReadsThePin := by
  intro s hpin
  have hanswer : s.pollAnswer 0 = (s.lineAnswer 0 == s.cfg.busyPinBusyLevel) := by simp only [State.pollAnswer, hpin]
  have hpins : s.pollPins 0 = [] := by simp only [State.pollPins, hpin]
  have hsamples : samplesPerPoll s.cfg = 1 := by simp only [samplesPerPoll, hpin]
  rw [exec_isBusy, afterEvents_busy, hanswer, hpins, hsamples, List.map_nil, List.append_nil]
  rfl

/-- Settles O48: of the SHIFT_REG adapter a poll is the latch toggle and eight clocked samples, of which bit 7 is the
first. -/
theorem isBusyReadsTheShiftRegister : Obligations.IsBusyReadsTheShiftRegister := by
  intro s hshift hbit
  have hanswer : s.pollAnswer 0 = !s.lineAnswer 0 := by simp [State.pollAnswer, hshift, hbit]
  have hpins : s.pollPins 0 = shiftRegPins ((List.range 8).map s.lineAnswer) := by simp [State.pollPins, hshift]
  have hsamples : samplesPerPoll s.cfg = 8 := by simp only [samplesPerPoll, hshift]
  rw [exec_isBusy, afterEvents_busy, hanswer, hpins, hsamples]
  rfl

/-! ### The refined trace through a step (R256) -/

/-- Going on with a request keeps the refinement. -/
theorem resumeSeq_refines (op : SeqOp) {s : State} (hs : TraceRefines s.cfg s.trace s.refined) :
    TraceRefines (resumeSeq op s).cfg (resumeSeq op s).trace (resumeSeq op s).refined :=
  runElems_refines op _ s (resume_plain op s) hs

/-- Every request keeps the refinement: a sequencer request runs its script, IS_BUSY makes one poll, and no other
touches either trace. -/
theorem exec_refines {i : Instr} {s t : State} (hs : TraceRefines s.cfg s.trace s.refined)
    (h : exec i s = .next t) : TraceRefines t.cfg t.trace t.refined := by
  rcases seq_or_not i with ⟨op, rfl⟩ | hnot
  · rw [exec_seq] at h
    obtain rfl := next_inj h
    exact resumeSeq_refines op (s := acceptSeq op s) hs
  · by_cases hpoll : i = .isBusy
    · subst hpoll
      rw [exec_isBusy] at h
      obtain rfl := next_inj h
      exact afterEvents_refines [.busy (s.pollAnswer 0)] hs (by simp) (by simp [polls])
    · have heffect := exec_notSeq hnot h
      have htrace := heffect.trace.resolve_right fun hbusy => hpoll hbusy.1
      rwa [heffect.cfg, htrace, heffect.refinedKept hpoll]

theorem step_refines {s t : State} (hs : TraceRefines s.cfg s.trace s.refined) (h : step s = .next t) :
    TraceRefines t.cfg t.trace t.refined := by
  obtain ⟨-, ⟨op, -, rfl⟩ | ⟨-, -, rfl⟩ | ⟨w, rest, i, -, -, -, hexec⟩ | ⟨w, rest, e, -, -, -, rfl⟩⟩ := step_cases h
  · exact resumeSeq_refines op hs
  · exact hs
  · exact exec_refines (s := { s with reqPort := rest }) hs hexec
  · exact hs

/-! ### Another adapter that gives the same answers (R256) -/

/-- The second state is the first with another adapter fitted; they agree in all but the adapter, the levels it
consumes and the refined trace. -/
def SameButAdapter (src : BusySource) (lvl : Bool) (s u : State) : Prop :=
  u = withAdapter s src lvl u.lineIn u.lineDraws u.refined

section
variable {src : BusySource} {lvl : Bool} {levels : List Bool} {draws : Nat} {fs : List FineEvent}

theorem sameButAdapter_withAdapter (s : State) : SameButAdapter src lvl s (withAdapter s src lvl levels draws fs) := rfl

/-- The script of a request does not read the adapter. -/
theorem script_withAdapter (op : SeqOp) (s : State) :
    script op (withAdapter s src lvl levels draws fs) = script op s := by
  cases op <;> rfl

/-- Going on with a request does the same to everything else: it makes no more than five polls. -/
theorem resumeSeq_withAdapter (op : SeqOp) {s : State}
    (hpolls : ∀ k < 5, (withAdapter s src lvl levels draws fs).pollAnswer k = s.pollAnswer k) :
    SameButAdapter src lvl (resumeSeq op s) (resumeSeq op (withAdapter s src lvl levels draws fs)) := by
  have hfive : polls (elemEvents ((script op s).drop s.stepIx)) ≤ 5 := (polls_drop _ _).trans (polls_script op s)
  obtain ⟨levels', draws', fs', hrun⟩ := runElems_withAdapter op _ s src lvl levels draws fs (resume_plain op s)
    fun k hk => hpolls k (by omega)
  have hresume : resumeSeq op (withAdapter s src lvl levels draws fs) =
      withAdapter (resumeSeq op s) src lvl levels' draws' fs' := by
    rw [resumeSeq, script_withAdapter]
    exact hrun
  rw [hresume]
  exact sameButAdapter_withAdapter _

/-- A request that makes no poll does the same to everything else, and leaves the adapter's own fields alone. -/
theorem exec_withAdapter_of_noPoll {i : Instr} (hseq : ∀ op, i ≠ SeqOp.instr op) (hpoll : i ≠ .isBusy) {s t : State}
    (h : exec i s = .next t) :
    exec i (withAdapter s src lvl levels draws fs) = .next (withAdapter t src lvl levels draws fs) := by
  cases i with
  | pcReset => exact absurd rfl (hseq .reset)
  | pcInitialize => exact absurd rfl (hseq .initPanel)
  | pcWakeUp => exact absurd rfl (hseq .wakeUp)
  | pcUpdateFrame => exact absurd rfl (hseq .updateFrame)
  | pcDisplayFrame => exact absurd rfl (hseq .displayFrame)
  | pcUpdateAndDisplayFrame => exact absurd rfl (hseq .updateAndDisplayFrame)
  | pcClearFrame => exact absurd rfl (hseq .clearFrame)
  | pcPowerOff => exact absurd rfl (hseq .powerOff)
  | pcSleep => exact absurd rfl (hseq .sleep)
  | isBusy => exact absurd rfl hpoll
  | fromCode a =>
    simp only [exec, execFromCode] at h ⊢
    cases hlow : colorOfNibble (loNibble a) <;> rw [hlow] at h <;> cases next_inj h <;> rfl
  | unpack a =>
    simp only [exec, execUnpack] at h ⊢
    cases hhigh : colorOfNibble (hiNibble a) <;> cases hlow : colorOfNibble (loNibble a) <;>
      simp only [hhigh, hlow] at h <;> cases next_inj h <;> rfl
  | fbSetPixel x y c =>
    cases hin : inBounds s.cfg s.rot x y with
    | false =>
      rw [exec_fbSetPixel_of_clipped hin] at h
      cases next_inj h
      exact exec_fbSetPixel_of_clipped (s := withAdapter s src lvl levels draws fs) hin c
    | true =>
      rcases Nat.lt_or_ge (pixelIndex s x y) s.cfg.fbLen with hlt | hge
      · rw [exec_fbSetPixel_of_stored hin hlt] at h
        cases next_inj h
        exact exec_fbSetPixel_of_stored (s := withAdapter s src lvl levels draws fs) hin hlt c
      · rw [exec_fbSetPixel_of_pastBuffer hge] at h
        cases next_inj h
        exact exec_fbSetPixel_of_pastBuffer (s := withAdapter s src lvl levels draws fs) hge c
  | _ => cases next_inj h; rfl

/-- Every request does the same to everything else. -/
theorem exec_withAdapter {i : Instr} {s t : State}
    (hpolls : ∀ k < 5, (withAdapter s src lvl levels draws fs).pollAnswer k = s.pollAnswer k)
    (h : exec i s = .next t) :
    ∃ u, exec i (withAdapter s src lvl levels draws fs) = .next u ∧ SameButAdapter src lvl t u := by
  rcases seq_or_not i with ⟨op, rfl⟩ | hnot
  · rw [exec_seq] at h
    obtain rfl := next_inj h
    exact ⟨_, exec_seq op _, resumeSeq_withAdapter op (s := acceptSeq op s) hpolls⟩
  · by_cases hpoll : i = .isBusy
    · subst hpoll
      rw [exec_isBusy] at h ⊢
      obtain rfl := next_inj h
      rw [hpolls 0 (by decide)]
      exact ⟨_, rfl, rfl⟩
    · exact ⟨_, exec_withAdapter_of_noPoll hnot hpoll h, sameButAdapter_withAdapter t⟩

/-- A step does the same to everything else. -/
theorem step_withAdapter {s t : State}
    (hpolls : ∀ k < 5, (withAdapter s src lvl levels draws fs).pollAnswer k = s.pollAnswer k)
    (h : step s = .next t) :
    ∃ u, step (withAdapter s src lvl levels draws fs) = .next u ∧ SameButAdapter src lvl t u := by
  obtain ⟨hwf, ⟨op, hcur, rfl⟩ | ⟨hcur, hport, rfl⟩ | ⟨w, rest, i, hcur, hport, hdecode, hexec⟩ |
    ⟨w, rest, e, hcur, hport, hdecode, rfl⟩⟩ := step_cases h
  · exact ⟨_, step_inProgress hwf hcur, resumeSeq_withAdapter op hpolls⟩
  · exact ⟨_, step_waiting hwf hcur hport, sameButAdapter_withAdapter t⟩
  · rw [step_request (s := withAdapter s src lvl levels draws fs) hwf hcur hport hdecode]
    exact exec_withAdapter (s := { s with reqPort := rest }) hpolls hexec
  · exact ⟨_, step_illegal hwf hcur hport hdecode, rfl⟩

end

/-- Settles O49: the traces are empty after block reset; only a poll puts anything else in the refined trace than in
the wire trace, and only its answer is read. -/
theorem refinedTraceReplacesEachPoll : Obligations.RefinedTraceReplacesEachPoll :=
  ⟨fun _ => rfl, fun _ _ => step_refines, fun _ _ _ _ _ _ _ => step_withAdapter⟩

end Sys2Proof.Machine
end

section
/-! The exceptions family (60_exceptions.md): every request answers and is over or waits, an illegal word changes
nothing, and a transport error ends its request with nothing rolled back. -/

namespace Sys2Proof.Machine

/-! ### A transport error (R272, R191) -/

theorem raiseTransportError_eq_answered (s : State) :
    raiseTransportError s = answered 2 { s with phase := .unknown, xportErr := true } := rfl

/-- A sequencer request taken from the port whose k-th failable event the transport fails. -/
theorem runSeq_fails (op : SeqOp) {s : State} {k : Nat} (hk : k < failables (opEvents op s)) (ht : TransportOk s k)
    (hf : s.xportAnswer k = false) (hb : NotBusy s (polls (upToFailable k (opEvents op s)))) :
    runSeq op s = transportFailed (afterFill op s) (upToFailable k (opEvents op s)) (legalFrom op s.phase) := by
  obtain ⟨es, n, hplain, hkeeps, hevents, hrun⟩ := runSeq_split op s
  rw [← hevents] at hk hb ⊢
  have hx (j : Nat) : (afterFill op s).xportAnswer j = s.xportAnswer j := (afterFill_answers op s j).1
  have hp (j : Nat) : (afterFill op s).pollAnswer j = s.pollAnswer j := (afterFill_answers op s j).2
  obtain ⟨p, m, hfails⟩ := runElems_fails op es { acceptSeq op (afterFill op s) with stepIx := n } k hplain hkeeps hk
    (fun j hj => (hx j).trans (ht j hj)) ((hx k).trans hf) (fun j hj => (hp j).trans (hb j hj))
  rw [hrun, hfails, raiseTransportError_eq_answered, ← afterFill_phase op s]
  rfl

/-- A held request whose polls answer busy n times and whose k-th failable event from there the transport fails. -/
theorem run_heldAt_fails {op : SeqOp} {s : State} {n k : Nat} (h : HeldAt op s)
    (hk : k < failables (remainingEvents op s)) (ht : TransportOk s k) (hf : s.xportAnswer k = false)
    (hbusy : StaysBusy s n)
    (hfree : ∀ j < polls (upToFailable k (remainingEvents op s)), s.pollAnswer (n + j) = false) :
    Sys2Proof.core.run (n + 1) s =
      .next (answered 2
        { afterEvents s (busyRounds s.cfg n ++ upToFailable k (remainingEvents op s)) with
          phase := .unknown
          xportErr := true }) := by
  obtain ⟨hwf, hcur, hwait⟩ := h.afterEvents (busyRounds s.cfg n)
  have hx := afterEvents_busyRounds_xportAnswer s n
  have hp := afterEvents_busyRounds_pollAnswer s n
  obtain ⟨p, m, hfails⟩ := resumeSeq_fails hwait hk (fun j hj => (hx j).trans (ht j hj)) ((hx k).trans hf)
    (fun j hj => (hp j).trans (hfree j hj))
  rw [run_busyRounds h n 1 hbusy, run_one (step_inProgress hwf hcur), hfails, raiseTransportError_eq_answered,
    ← afterEvents_append]
  rfl

/-- Settles O37: the events up to the failing one, from the state the fill leaves; and behind the n busy rounds. -/
theorem transportErrorEndsTheRequest : Obligations.TransportErrorEndsTheRequest :=
  ⟨fun op s _ hk ht hf hb => (exec_seq op s).trans (congrArg _ (runSeq_fails op hk ht hf hb)),
    fun _ _ _ _ h hk ht hf hbusy hfree => run_heldAt_fails h hk ht hf hbusy hfree⟩

/-! ### Every request answers (R270, R277) -/

/-- Settles O57: a sequencer request ends or waits as runElems_responds says, and every other one responds and leaves
CUR alone. -/
theorem requestRespondsOnceOrWaits : Obligations.RequestRespondsOnceOrWaits := by
  intro i s t hcur h
  rcases seq_or_not i with ⟨op, rfl⟩ | hnot
  · rw [exec_seq] at h
    obtain rfl := next_inj h
    exact (resumeSeq_responds op (acceptSeq op s)).imp_right fun hwaits => ⟨op, rfl, hwaits⟩
  · have heffect := exec_notSeq hnot h
    obtain ⟨st, v, d, hrsps⟩ := heffect.rsps
    exact .inl ⟨heffect.cur.trans hcur, ⟨respWord st v, d⟩, hrsps⟩

theorem exec_fromCode_next (a : Byte) (s : State) : ∃ t, exec (.fromCode a) s = .next t := by
  simp only [exec, execFromCode]
  cases colorOfNibble (loNibble a) with
  | none => exact ⟨_, rfl⟩
  | some c => exact ⟨_, rfl⟩

theorem exec_unpack_next (a : Byte) (s : State) : ∃ t, exec (.unpack a) s = .next t := by
  simp only [exec, execUnpack]
  cases colorOfNibble (hiNibble a) with
  | none => exact ⟨_, rfl⟩
  | some high =>
    cases colorOfNibble (loNibble a) with
    | none => exact ⟨_, rfl⟩
    | some low => exact ⟨_, rfl⟩

theorem exec_fbSetPixel_next (x y : Int) (c : Color) (s : State) : ∃ t, exec (.fbSetPixel x y c) s = .next t := by
  cases hin : inBounds s.cfg s.rot x y with
  | false => exact ⟨_, exec_fbSetPixel_of_clipped hin c⟩
  | true =>
    rcases Nat.lt_or_ge (pixelIndex s x y) s.cfg.fbLen with hlt | hge
    · exact ⟨_, exec_fbSetPixel_of_stored hin hlt c⟩
    · exact ⟨_, exec_fbSetPixel_of_pastBuffer hge c⟩

/-- Every request answers a next state; only three of them choose between answers. -/
theorem exec_next (i : Instr) (s : State) : ∃ t, exec i s = .next t := by
  cases i with
  | fromCode a => exact exec_fromCode_next a s
  | unpack a => exact exec_unpack_next a s
  | fbSetPixel x y c => exact exec_fbSetPixel_next x y c s
  | _ => exact ⟨_, rfl⟩

/-- With a configuration that defines a machine, a step goes on, waits, runs a request or answers ILLEGAL. -/
theorem step_next {s : State} (hwf : s.cfg.wf = true) : ∃ t, step s = .next t := by
  cases hcur : s.cur with
  | some op => exact ⟨_, step_inProgress hwf hcur⟩
  | none =>
    cases hport : s.reqPort with
    | nil => exact ⟨_, step_waiting hwf hcur hport⟩
    | cons w rest =>
      cases hdecode : decode w with
      | ok i =>
        rw [step_request hwf hcur hport hdecode]
        exact exec_next i _
      | error e => exact ⟨_, step_illegal hwf hcur hport hdecode⟩

/-- Settles O10: each branch of a step, and each request, answers a next state. -/
theorem nothingStopsTheMachine : Obligations.NothingStopsTheMachine := ⟨fun _ => step_next, exec_next⟩

/-! ### An illegal word (R273) -/

/-- Settles O5: step_illegal, and the response word of ILLEGAL as a number. -/
theorem illegalWordIsAnsweredAndChangesNothing : Obligations.IllegalWordIsAnsweredAndChangesNothing := by
  intro s w rest e hwf hcur hport hdecode
  have hword : respWord .illegal 0 = 0x00000003 := by decide
  rw [step_illegal hwf hcur hport hdecode, ← hword]
  rfl

end Sys2Proof.Machine
end

section
/-! The reset and hazards family (70_reset_and_hazards.md): the wait between two requests (R301). -/

namespace Sys2Proof.Machine

/-- Settles O8: step_waiting says it of every state whose configuration defines a machine. -/
theorem stepWaitsWithoutRequest : Obligations.StepWaitsWithoutRequest :=
  fun _ hwf hcur hport => step_waiting hwf hcur hport

end Sys2Proof.Machine
end
